-- ==== Sys2Proof/Word.lean ====
section
/-! DEFINITION. The two widths of the block: a byte of a buffer and a register. -/

namespace Sys2Proof

/-- 00_scope.md R15, R16: the unit of every buffer, an unsigned value 0..255. -/
abbrev Byte := BitVec 8

/-- 00_scope.md R15: XLEN = 32, the width of every operand, result and address register. -/
abbrev Word := BitVec 32

end Sys2Proof
end

