-- ==== Sys2Proof/Config.lean ====
section
/-! DEFINITION. The parameters of 00_scope.md R15 and the model's free values (opaque constants: nothing can
evaluate them). MEMSIZE, the one open parameter of the spec, is the field `size` of `Machine.Memory`, so that every
statement about a state holds for every MEMSIZE (DESIGN CHOICE, log 3). -/

namespace Sys2Proof.Config

/-- R15: XLEN. -/
def xlen : Nat := 32

/-- R15: MAXRUN, the largest literal run and the largest repeat run. -/
def maxRun : Nat := 128

/-- R15: MINREP, the shortest run the encoder emits as a repeat. -/
def minRep : Nat := 3

/-- R15: the largest legal plane count. -/
def maxPlanes : Nat := 8

/-- R15: MAXCOLORS, the cap on a palette's length. -/
def maxColors : Nat := 256

/-- R15: MEMSIZE is at most 2^32. -/
def maxMemSize : Nat := 4294967296

/-- FREE VALUE (log 4; 10_state.md R35, 93_implementation_defined.md U8): what a byte of buffer memory holds that
nothing has written since reset number `epoch`, at address `a`. Reading the address twice gives the same byte
(20_memory.md R68); which byte is not known. -/
opaque unwrittenByte (epoch a : Nat) : Byte

/-- FREE VALUE (log 10; 60_exceptions.md R244, 93_implementation_defined.md U6): what the byte at address `a` of a
command's destination extent holds after BusError number `draw`. Any value; which one is not known. -/
opaque openByte (draw a : Nat) : Byte

/-- FREE VALUE (log 12): what a 32-bit result register holds after a count `n` of 2^32 or more is written to it; the
spec gives the count and not what the register keeps of it. -/
opaque wideResult (n : Nat) : Word

end Sys2Proof.Config
end

