-- ==== Sys2Proof/Syntax.lean ====
section
/-! DEFINITION. The instructions: one constructor per row of spec/opcode_table.json, in the table's order. -/

namespace Sys2Proof

/-- 30_encoding.md R99 (stream instructions) and R104 (commands). A stream instruction carries the field of its
control byte; the bytes it owns are read by its execution (60_exceptions.md R249; log 19). A command carries nothing:
its operands are the latched operand registers (R95). -/
inductive Instr where
  /-- R122: copy the next `n + 1` bytes of the stream. -/
  | lit (n : BitVec 7)
  /-- R124: no operation. -/
  | nop
  /-- R123: repeat the next byte of the stream `129 - m` times; `m` is not 0. -/
  | rep (m : BitVec 7)
  /-- R129: decode one PackBits row segment. -/
  | pbdec
  /-- R152: encode one row segment. -/
  | pbenc
  /-- R175: interleaved to plane-major. -/
  | deint
  /-- R181: plane-major to interleaved. -/
  | intlv
  /-- R187: byte-granular column transpose. -/
  | transp
  /-- R194: bitplanes to chunky pixels. -/
  | chunky
  /-- R214: RGB triplets to colour words. -/
  | paldn
  /-- R220: colour words to RGB triplets. -/
  | palup
  /-- R226: default palette. -/
  | paldef
  /-- R231: trailing palette detection. -/
  | paldet
  deriving DecidableEq, Repr

end Sys2Proof
end

