-- ==== Sys2Proof/WellFormed.lean ====
section
/-! DEFINITION. Which terms of `Instr` are instructions of the block. -/

namespace Sys2Proof

/-- 30_encoding.md R90, R91: the REP row leaves out the control byte 0x80 (that is NOP), so a REP's field is not 0.
Every other term is well formed. -/
def Instr.wf : Instr → Bool
  | .lit _ => true
  | .nop => true
  | .rep m => m != 0#7
  | .pbdec => true
  | .pbenc => true
  | .deint => true
  | .intlv => true
  | .transp => true
  | .chunky => true
  | .paldn => true
  | .palup => true
  | .paldef => true
  | .paldet => true

/-- The opcode table's level column: the three stream instructions (30_encoding.md R99); the rest are commands (R104). -/
def Instr.isStream : Instr → Bool
  | .lit _ => true
  | .nop => true
  | .rep _ => true
  | .pbdec => false
  | .pbenc => false
  | .deint => false
  | .intlv => false
  | .transp => false
  | .chunky => false
  | .paldn => false
  | .palup => false
  | .paldef => false
  | .paldet => false

end Sys2Proof
end

