-- ==== Sys2Proof/Decode.lean ====
section
/-! DEFINITION. Decoding and encoding: the control byte of a PackBits group (format PB), the command code (format
CMD), and the bytes of a whole group as the assembler notation of 30_encoding.md R109 writes it. -/

namespace Sys2Proof

/-- What the sequencer decodes: the control byte of a group (R90) or the whole 32-bit value of CMD (R95). -/
inductive Code where
  | control (c : Byte)
  | command (w : Word)
  deriving DecidableEq, Repr

/-- Why a code names no instruction. -/
inductive DecodeError where
  /-- R105: the 32-bit value names no command. -/
  | illegalCommand (w : Word)
  deriving DecidableEq, Repr

/-- R17: `sext_8(b)`. -/
def sext8 (b : Byte) : Int := if b.toNat ≤ 127 then (b.toNat : Int) else (b.toNat : Int) - 256

/-- R90: the low seven bits of a control byte, `c[6:0]`. -/
def controlField (c : Byte) : BitVec 7 := BitVec.ofNat 7 (c.toNat % 128)

/-- R90, R91: every control byte is exactly one of LIT (0x00..0x7F), NOP (0x80) and REP (0x81..0xFF). -/
def decodeControl (c : Byte) : Instr :=
  if c.toNat ≤ 0x7F then .lit (controlField c)
  else if c.toNat = 0x80 then .nop
  else .rep (controlField c)

/-- R104: the command table, one row per command. -/
def commandTable : List (Word × Instr) :=
  [(0x01#32, .pbdec), (0x02#32, .pbenc), (0x10#32, .deint), (0x11#32, .intlv), (0x12#32, .transp),
   (0x13#32, .chunky), (0x20#32, .paldn), (0x21#32, .palup), (0x22#32, .paldef), (0x23#32, .paldet)]

/-- Looks a code up in a command table. -/
def lookupCommand (w : Word) : List (Word × Instr) → Except DecodeError Instr
  | [] => .error (.illegalCommand w)
  | (k, i) :: rest => if w = k then .ok i else lookupCommand w rest

/-- R104, R105: the whole 32-bit value is the code; a value outside the table names no command. -/
def decodeCommand (w : Word) : Except DecodeError Instr := lookupCommand w commandTable

/-- The decoder, total on every code. -/
def decode : Code → Except DecodeError Instr
  | .control c => .ok (decodeControl c)
  | .command w => decodeCommand w

/-- R96: LIT's count, `n + 1` (1..128). -/
def litCount (n : BitVec 7) : Nat := n.toNat + 1

/-- R96, R99: REP's count, `129 - m` (2..128 for a well-formed REP). -/
def repCount (m : BitVec 7) : Nat := 129 - m.toNat

/-- R97: the control byte of a literal run of `m` bytes, `m - 1`. -/
def literalControl (m : Nat) : Byte := BitVec.ofNat 8 (m - 1)

/-- R97, R18(c): the control byte of a repeat run of `r` bytes, `1 - r` stored as the byte `257 - r`. -/
def repeatControl (r : Nat) : Byte := BitVec.ofNat 8 (257 - r)

/-- R99, R104: the code of an instruction, written from the encoding tables. -/
def encode : Instr → Code
  | .lit n => .control (BitVec.ofNat 8 n.toNat)
  | .nop => .control 0x80#8
  | .rep m => .control (BitVec.ofNat 8 (128 + m.toNat))
  | .pbdec => .command 0x01#32
  | .pbenc => .command 0x02#32
  | .deint => .command 0x10#32
  | .intlv => .command 0x11#32
  | .transp => .command 0x12#32
  | .chunky => .command 0x13#32
  | .paldn => .command 0x20#32
  | .palup => .command 0x21#32
  | .paldef => .command 0x22#32
  | .paldet => .command 0x23#32

/-- The instruction the decoder reads from a table row's `nbits` bits `w`: the control byte of a stream instruction
(8 bits) or a command's code (32 bits); `none` where the decoder refuses or no row has that width. -/
def decodeTableWord (nbits w : Nat) : Option Instr :=
  if nbits = 8 then
    if w < 256 then some (decodeControl (BitVec.ofNat 8 w)) else none
  else if nbits = 32 then
    if w < 4294967296 then
      match decodeCommand (BitVec.ofNat 32 w) with
      | .ok i => some i
      | .error _ => none
    else none
  else none

/-- R90, R109: a PackBits group as text writes it: `LIT b0, .., bk`, `REP count, v`, `NOP`. -/
inductive Group where
  | lit (bytes : List Byte)
  | rep (count : Nat) (v : Byte)
  | nop
  deriving DecidableEq, Repr

/-- R109: the constraint column of the assembler notation. -/
def Group.wf : Group → Bool
  | .lit bytes => decide (1 ≤ bytes.length) && decide (bytes.length ≤ Config.maxRun)
  | .rep count _ => decide (2 ≤ count) && decide (count ≤ Config.maxRun)
  | .nop => true

/-- R109: the bytes of a group in the stream. -/
def Group.assemble : Group → List Byte
  | .lit bytes => literalControl bytes.length :: bytes
  | .rep count v => [repeatControl count, v]
  | .nop => [0x80#8]

/-- R122 to R124: the bytes a group produces. -/
def Group.output : Group → List Byte
  | .lit bytes => bytes
  | .rep count v => List.replicate count v
  | .nop => []

/-- The instruction a group's control byte is. -/
def Group.instr : Group → Instr
  | .lit bytes => .lit (BitVec.ofNat 7 (bytes.length - 1))
  | .rep count _ => .rep (BitVec.ofNat 7 (129 - count))
  | .nop => .nop

/-- R90: reads one whole group off the front of a byte list; `none` where the list is empty or ends inside the
group. -/
def Group.parse : List Byte → Option (Group × List Byte)
  | [] => none
  | c :: rest =>
    match decodeControl c with
    | .lit n =>
      if litCount n ≤ rest.length then some (.lit (rest.take (litCount n)), rest.drop (litCount n)) else none
    | .rep m =>
      match rest with
      | [] => none
      | v :: rest' => some (.rep (repCount m) v, rest')
    | .nop => some (.nop, rest)
    | .pbdec => none
    | .pbenc => none
    | .deint => none
    | .intlv => none
    | .transp => none
    | .chunky => none
    | .paldn => none
    | .palup => none
    | .paldef => none
    | .paldet => none

/-- The bytes of a sequence of groups: "groups follow one another in the stream with nothing between them" (R90). -/
def assembleAll : List Group → List Byte
  | [] => []
  | g :: gs => g.assemble ++ assembleAll gs

/-- The bytes a sequence of groups produces. -/
def outputAll : List Group → List Byte
  | [] => []
  | g :: gs => g.output ++ outputAll gs

end Sys2Proof
end

