-- ==== Sys2Proof/Machine/State.lean ====
section
/-! DEFINITION. The state of the block as plain data, the faults it records, the host's moves, and the state after
reset. 10_state.md throughout. -/

namespace Sys2Proof.Machine

/-- 10_state.md R22: the 21 registers, in the order of their numbers 0 to 20. -/
inductive Reg where
  | cmd | status | src | srclen | dst | len | width | height | nplanes | flags | srb | colw | rows | cols | drb
  | ncolors | filelen | pixlen | produced | consumed | result
  deriving DecidableEq, Repr

/-- R22: the operand registers, numbers 2 to 17. -/
structure Operands where
  src : Word
  srclen : Word
  dst : Word
  len : Word
  width : Word
  height : Word
  nplanes : Word
  flags : Word
  srb : Word
  colw : Word
  rows : Word
  cols : Word
  drb : Word
  ncolors : Word
  filelen : Word
  pixlen : Word
  deriving DecidableEq, Repr

/-- The value of the operand registers after reset: R35 gives none; zero is the model's (DESIGN CHOICE, log 1). -/
def Operands.zero : Operands :=
  { src := 0#32, srclen := 0#32, dst := 0#32, len := 0#32, width := 0#32, height := 0#32, nplanes := 0#32,
    flags := 0#32, srb := 0#32, colw := 0#32, rows := 0#32, cols := 0#32, drb := 0#32, ncolors := 0#32,
    filelen := 0#32, pixlen := 0#32 }

/-- 10_state.md R24: the fields of STATUS. Every other bit of the register is hard-wired to zero; `statusWord` of
Machine/Flags.lean is the register as the host reads it. -/
structure Status where
  busy : Bool
  done : Bool
  err : Bool
  cause : BitVec 4
  deriving DecidableEq, Repr

/-- 60_exceptions.md R240: the six faults the block records. -/
inductive FaultKind where
  | truncatedData | sizeMismatch | rowOverrun | badParam | illegalCommand | busError
  deriving DecidableEq, Repr

/-- 10_state.md R33: the buffer memory. `size` is MEMSIZE (log 3). `cells` lists the bytes something has written,
addresses strictly rising; an unlisted address holds no value (R35), and what reading it gives is the free value
`Config.unwrittenByte epoch` (log 4). `epoch` counts resets; `draws` counts the times BusError has left a destination
extent open, and indexes the free values of `Config.openByte` (log 10). -/
structure Memory where
  size : Nat
  epoch : Nat
  draws : Nat
  cells : List Host.Cell
  deriving DecidableEq, Repr

/-- Where the sequencer stands (log 5): at the start of the command in CMD, or at a group boundary inside PBDEC. -/
inductive Seq where
  | command | stream
  deriving DecidableEq, Repr

/-- One turn of the host, or a turn the host leaves to the sequencer (log 6). -/
inductive Input where
  /-- R22, R27: a host write of a register. -/
  | writeReg (r : Reg) (v : Word)
  /-- R22: a host read of a register. -/
  | readReg (r : Reg)
  /-- R33, R77: a host write of a byte of buffer memory. -/
  | writeMem (a : Nat) (b : Byte)
  /-- R33, R77: a host read of a byte of buffer memory. -/
  | readMem (a : Nat)
  /-- 70_reset_and_hazards.md R270: the reset input. -/
  | reset
  /-- The host does nothing; the sequencer takes its turn. -/
  | run
  /-- The host does nothing; the sequencer takes its turn, and begins a PBDEC group by group (R21). -/
  | runGroups
  deriving DecidableEq, Repr

/-- Why the machine stops. No instruction raises one: the block's own faults are recorded in STATUS and the machine
goes on (60_exceptions.md R245). -/
inductive Fault where
  /-- Raised by a host move that reads or writes M, or reads a result register, while BUSY = 1: 20_memory.md R76 calls
  the outcome undefined (93_implementation_defined.md U9). SAFE: the model stops where hardware does something (log 8). -/
  | hostAccessWhileBusy
  /-- Raised by a host move that reads or writes M at an address of MEMSIZE or more: 10_state.md R33 says there is no
  such address. SAFE: the model stops (log 9). -/
  | hostAddressAbsent
  deriving DecidableEq, Repr

/-- Why a step has no meaning. -/
inductive Refusal where
  /-- Raised by an arm of `exec` whose instruction has no meaning yet. SAFE: the model stops. No arm does so now. -/
  | notModelled (mnemonic : String)
  deriving DecidableEq, Repr

/-- Everything the spec gives the machine (INVENTORY.md, State), and the model's own `inputs` and `hostData`. -/
structure State where
  /-- Register 0, CMD. -/
  cmd : Word
  /-- Register 1, STATUS. -/
  status : Status
  /-- Registers 2 to 17, as the host last wrote them (R23). -/
  regs : Operands
  /-- Register 18, PRODUCED. -/
  produced : Word
  /-- Register 19, CONSUMED. -/
  consumed : Word
  /-- Register 20, RESULT. -/
  result : Word
  /-- The sequencer's copies of registers 2 to 17, taken at issue (R23, R27). -/
  latch : Operands
  /-- PBDEC's decode cursor, an offset from SRC (R30). -/
  pc : Nat
  /-- The bytes PBDEC has produced (40_packbits_decode.md R120). -/
  q : Nat
  /-- Where the sequencer stands. -/
  seq : Seq
  /-- The buffer memory (R33). -/
  mem : Memory
  /-- MODEL'S OWN: the host's moves still to come (log 6). -/
  inputs : List Input
  /-- MODEL'S OWN: what the host's last read returned (log 7). -/
  hostData : Word
  deriving DecidableEq, Repr

/-- 10_state.md R35, 70_reset_and_hazards.md R270: the state after reset. The operand registers' zeros (log 1), the
latched copies' zeros (log 2), MEMSIZE (log 3), the epoch (log 4), the sequencer's place (log 5), `inputs` (log 6),
`hostData` (log 7), the draw counter (log 10) and the zeros of `pc` and `q` (DESIGN CHOICE, log 22: R35 gives them 0 at
each issue and nothing after reset) are the model's. -/
def State.reset : State :=
  { cmd := 0#32
    status := { busy := false, done := false, err := false, cause := 0#4 }
    regs := Operands.zero
    produced := 0#32
    consumed := 0#32
    result := 0#32
    latch := Operands.zero
    pc := 0
    q := 0
    seq := .command
    mem := { size := Config.maxMemSize, epoch := 0, draws := 0, cells := [] }
    inputs := []
    hostData := 0#32 }

end Sys2Proof.Machine
end

