-- ==== Sys2Proof/Machine/Flags.lean ====
section
/-! DEFINITION. The STATUS register as a word, the fault codes, and the fields of FLAGS. The block has no condition
codes (10_state.md R24). -/

namespace Sys2Proof.Machine

/-- A Bool as bit `k` of a register. -/
def bitAt (b : Bool) (k : Nat) : Word := if b then BitVec.ofNat 32 (2 ^ k) else 0#32

/-- 10_state.md R24: STATUS as the host reads it: bit 0 BUSY, bit 1 DONE, bit 2 ERR, bit 3 zero, bits 7:4 CAUSE,
bits 31:8 zero. -/
def statusWord (st : Status) : Word :=
  bitAt st.busy 0 ||| bitAt st.done 1 ||| bitAt st.err 2 ||| BitVec.ofNat 32 (st.cause.toNat * 16)

/-- 60_exceptions.md R240: the value STATUS.CAUSE takes for each fault. -/
def causeCode : FaultKind → BitVec 4
  | .truncatedData => 1#4
  | .sizeMismatch => 2#4
  | .rowOverrun => 3#4
  | .badParam => 4#4
  | .illegalCommand => 5#4
  | .busError => 6#4

/-- 10_state.md R25: FLAGS bit 0, `doubleBits`. -/
def flagDbl (flags : Word) : Bool := flags.getLsbD 0

/-- R25: FLAGS bit 1, the layout of CHUNKY's source. -/
def flagIlv (flags : Word) : Bool := flags.getLsbD 1

/-- R25: FLAGS bits 31:2, which must be 0. -/
def flagsReserved (flags : Word) : Nat := flags.toNat / 4

end Sys2Proof.Machine
end

