-- ==== Sys2Proof/Machine/Ops.lean ====
section
/-! DEFINITION. The named operations: buffer memory, loops over it, issue, completion, raising a fault, reset. -/

namespace Sys2Proof.Machine

/-! ### Buffer memory (10_state.md R33, 20_memory.md R60 to R69) -/

/-- The byte listed for address `a`, if any. -/
def cellsLookup : List Host.Cell → Nat → Option Byte
  | [], _ => none
  | (k, v) :: rest, a => if a = k then some v else cellsLookup rest a

/-- Stores `b` at address `a`, keeping the addresses strictly rising. -/
def cellsStore : List Host.Cell → Nat → Byte → List Host.Cell
  | [], a, b => [(a, b)]
  | (k, v) :: rest, a, b =>
    if a < k then (a, b) :: (k, v) :: rest
    else if a = k then (a, b) :: rest
    else (k, v) :: cellsStore rest a b

/-- Addresses strictly rising, every one at least `lo` and below `hi`. -/
def cellsSorted (lo hi : Nat) : List Host.Cell → Bool
  | [] => true
  | (k, _) :: rest => decide (lo ≤ k) && decide (k < hi) && cellsSorted (k + 1) hi rest

/-- The canonical form: MEMSIZE in its range (R15), the listed addresses strictly rising and inside M. An unlisted
address holds no value, so no listed entry can equal it. -/
def Memory.wf (m : Memory) : Bool :=
  decide (0 < m.size) && decide (m.size ≤ Config.maxMemSize) && cellsSorted 0 m.size m.cells

/-- What an unlisted address holds: no value the spec gives (R35); reading it draws the free value (log 4). -/
def Memory.unlisted (m : Memory) (a : Nat) : Byte := Config.unwrittenByte m.epoch a

/-- The byte at address `a` of M. -/
def Memory.byteAt (m : Memory) (a : Nat) : Byte := (cellsLookup m.cells a).getD (m.unlisted a)

/-- The read of `M[a]`: `none` is the BusError of 20_memory.md R66, at `a` of MEMSIZE or more. A read changes nothing
(R68). -/
def Memory.read (m : Memory) (a : Nat) : Option Byte := if a < m.size then some (m.byteAt a) else none

/-- M with byte `b` at address `a`. -/
def Memory.set (m : Memory) (a : Nat) (b : Byte) : Memory := { m with cells := cellsStore m.cells a b }

/-- Free values (log 10) at the `n` addresses from `a` on. -/
def drawBytes (draw a : Nat) : Nat → Memory → Memory
  | 0, m => m
  | n + 1, m => drawBytes draw a n (m.set (a + n) (Config.openByte draw (a + n)))

/-- 60_exceptions.md R244, 93_implementation_defined.md U6: M with the part of `[a, a+n)` that lies inside it
unspecified: each of its bytes takes a free value, fresh at every use (log 10). -/
def Memory.leaveOpen (m : Memory) (a n : Nat) : Memory :=
  drawBytes m.draws a (min n (m.size - a)) { m with draws := m.draws + 1 }

/-- How a run of accesses ends: `ok` with what it reached, or `bus` at the first access outside M (R66), with what it
had reached. -/
inductive Run (σ : Type) where
  | ok (s : σ)
  | bus (s : σ)
  deriving DecidableEq, Repr

/-- Goes on after accesses that all lay inside M. -/
def Run.andThen {σ : Type} (r : Run σ) (k : σ → Run σ) : Run σ :=
  match r with
  | .ok s => k s
  | .bus s => .bus s

/-- The write `M[a] <- b`. -/
def put (a : Nat) (b : Byte) (m : Memory) : Run Memory := if a < m.size then .ok (m.set a b) else .bus m

/-- The assignment `M[a] <- v` of a value that was read before it (log 18); a read outside M stops it. -/
def store (a : Nat) (v : Option Byte) (m : Memory) : Run Memory :=
  match v with
  | none => .bus m
  | some b => put a b m

/-- `MemRead(a, n)` of 00_scope.md R17: n bytes, lowest address first. For n = 0 it succeeds at every `a` (DESIGN CHOICE,
log 20: the spec leaves n = 0 with `a > MEMSIZE` open). -/
def memRead (m : Memory) (a : Nat) : Nat → Option (List Byte)
  | 0 => some []
  | n + 1 =>
    match m.read a with
    | none => none
    | some b =>
      match memRead m (a + 1) n with
      | none => none
      | some bs => some (b :: bs)

/-- `MemWrite(a, n, v)` of R17: the bytes of v, lowest address first. For an empty v it succeeds at every `a` (DESIGN
CHOICE, log 20). -/
def memWrite (a : Nat) : List Byte → Memory → Run Memory
  | [], m => .ok m
  | b :: bs, m => (put a b m).andThen (memWrite (a + 1) bs)

/-- `for i in start .. start + n - 1: body i`, stopping at the first access outside M. -/
def loopFrom {σ : Type} (body : Nat → σ → Run σ) : (n start : Nat) → σ → Run σ
  | 0, _, s => .ok s
  | n + 1, i, s => (body i s).andThen (loopFrom body n (i + 1))

/-- `for i in 0 .. n - 1: body i`. -/
def loop {σ : Type} (n : Nat) (body : Nat → σ → Run σ) (s : σ) : Run σ := loopFrom body n 0 s

/-- A count as a result register holds it; a count of 2^32 or more does not fit and leaves a free value (log 12). -/
def countWord (n : Nat) : Word := if n < 4294967296 then BitVec.ofNat 32 n else Config.wideResult n

/-! ### Completion and faults (10_state.md R28, 60_exceptions.md R245) -/

/-- R28: the last lines of every command: BUSY cleared, DONE set; the sequencer is again at the start of a command. -/
def complete (s : State) : State :=
  { s with status := { s.status with busy := false, done := true }, seq := .command }

/-- R245, R24: the ERR and CAUSE part of raising `f`: CAUSE keeps the first fault recorded since reset. -/
def recordFault (f : FaultKind) (st : Status) : Status :=
  { st with err := true, cause := if st.err then st.cause else causeCode f }

/-- R245: RAISING A FAULT, the one operation for every fault of the block. The command stops here, ERR and CAUSE are
set, BUSY is cleared and DONE set. Nothing else is saved and control goes nowhere: there is no handler. There is no
return from it either (R251); `assertReset` is the only thing that clears ERR. -/
def raise (f : FaultKind) (s : State) : State :=
  complete { s with status := recordFault f s.status }

/-- 10_state.md R35, 70_reset_and_hazards.md R270: the reset input. The registers and indices take their reset values
and M holds no value again (a new epoch of free values, log 4); that `pc` and `q` are 0 is the model's (log 22). MEMSIZE,
the draw counter, the host's moves still to come and what the host last read are no part of the block's state and
stay. -/
def assertReset (s : State) : State :=
  { State.reset with
    mem := { size := s.mem.size, epoch := s.mem.epoch + 1, draws := s.mem.draws, cells := [] }
    inputs := s.inputs
    hostData := s.hostData }

/-! ### Issue (10_state.md R27) -/

/-- R27: the effect of a host write of `c` to CMD that is not refused. `pc` and q are 0 at each issue (R35). -/
def issue (c : Word) (s : State) : State :=
  { s with
    cmd := c
    latch := s.regs
    produced := 0#32
    consumed := 0#32
    result := 0#32
    pc := 0
    q := 0
    seq := .command
    status := { s.status with busy := true, done := false } }

/-- R27: a host write of `c` to CMD: refused while BUSY or ERR is 1. -/
def writeCmd (c : Word) (s : State) : State :=
  if s.status.busy || s.status.err then s else issue c s

end Sys2Proof.Machine
end

