-- ==== Sys2Proof/Machine/Operands.lean ====
section
/-! DEFINITION. Every operand form: the register file (10_state.md R22, R23), the buffer layouts and extents
(20_memory.md R60 to R81) and the operand checks at issue (60_exceptions.md R243). -/

namespace Sys2Proof.Machine

/-! ### Registers -/

/-- R22: a register's number, an index in the table of R22. -/
def Reg.number : Reg → Nat
  | .cmd => 0 | .status => 1 | .src => 2 | .srclen => 3 | .dst => 4 | .len => 5 | .width => 6 | .height => 7
  | .nplanes => 8 | .flags => 9 | .srb => 10 | .colw => 11 | .rows => 12 | .cols => 13 | .drb => 14
  | .ncolors => 15 | .filelen => 16 | .pixlen => 17 | .produced => 18 | .consumed => 19 | .result => 20

/-- R22: the value of a register as the host reads it. -/
def readReg (r : Reg) (s : State) : Word :=
  match r with
  | .cmd => s.cmd
  | .status => statusWord s.status
  | .src => s.regs.src
  | .srclen => s.regs.srclen
  | .dst => s.regs.dst
  | .len => s.regs.len
  | .width => s.regs.width
  | .height => s.regs.height
  | .nplanes => s.regs.nplanes
  | .flags => s.regs.flags
  | .srb => s.regs.srb
  | .colw => s.regs.colw
  | .rows => s.regs.rows
  | .cols => s.regs.cols
  | .drb => s.regs.drb
  | .ncolors => s.regs.ncolors
  | .filelen => s.regs.filelen
  | .pixlen => s.regs.pixlen
  | .produced => s.produced
  | .consumed => s.consumed
  | .result => s.result

/-- R22, R23, R27: a host write of a register. CMD may issue a command; an operand register takes the value, also
while BUSY = 1; a write to a read-only register is ignored. -/
def writeReg (r : Reg) (v : Word) (s : State) : State :=
  match r with
  | .cmd => writeCmd v s
  | .status => s
  | .src => { s with regs := { s.regs with src := v } }
  | .srclen => { s with regs := { s.regs with srclen := v } }
  | .dst => { s with regs := { s.regs with dst := v } }
  | .len => { s with regs := { s.regs with len := v } }
  | .width => { s with regs := { s.regs with width := v } }
  | .height => { s with regs := { s.regs with height := v } }
  | .nplanes => { s with regs := { s.regs with nplanes := v } }
  | .flags => { s with regs := { s.regs with flags := v } }
  | .srb => { s with regs := { s.regs with srb := v } }
  | .colw => { s with regs := { s.regs with colw := v } }
  | .rows => { s with regs := { s.regs with rows := v } }
  | .cols => { s with regs := { s.regs with cols := v } }
  | .drb => { s with regs := { s.regs with drb := v } }
  | .ncolors => { s with regs := { s.regs with ncolors := v } }
  | .filelen => { s with regs := { s.regs with filelen := v } }
  | .pixlen => { s with regs := { s.regs with pixlen := v } }
  | .produced => s
  | .consumed => s
  | .result => s

/-- R76: the result registers, on which the host must not rely while BUSY = 1. -/
def isResultReg (r : Reg) : Bool := r == .produced || r == .consumed || r == .result

/-! ### Layouts -/

/-- 20_memory.md R70: `rowBytes(w) = ceil(w/16) * 2`. -/
def rowBytes (w : Nat) : Nat := (w + 15) / 16 * 2

/-- The two layouts of a PlaneBuffer. -/
inductive Layout where
  | interleaved | nonInterleaved
  deriving DecidableEq, Repr

/-- R71: offset of byte k of plane p of row y in an interleaved PlaneBuffer. -/
def ilvOff (rb np y p k : Nat) : Nat := (y * np + p) * rb + k

/-- R72: the same byte's offset in a non-interleaved PlaneBuffer. -/
def nilOff (rb h y p k : Nat) : Nat := (p * h + y) * rb + k

/-- R170: the geometry operands of DEINT, INTLV and CHUNKY, as naturals (R16: no wrap-around). -/
structure Geometry where
  src : Nat
  dst : Nat
  w : Nat
  h : Nat
  np : Nat
  sb : Nat
  deriving DecidableEq, Repr

/-- R170: the geometry of the latched operands. -/
def geometry (o : Operands) : Geometry :=
  { src := o.src.toNat, dst := o.dst.toNat, w := o.width.toNat, h := o.height.toNat, np := o.nplanes.toNat,
    sb := o.srb.toNat }

/-- R170: `RB = rowBytes(W)`, computed by the block. -/
def Geometry.rb (g : Geometry) : Nat := rowBytes g.w

/-- R71, R72: the offset in a buffer of the geometry's planes whose rows have `rb` bytes. -/
def Geometry.off (g : Geometry) (l : Layout) (rb y p k : Nat) : Nat :=
  match l with
  | .interleaved => ilvOff rb g.np y p k
  | .nonInterleaved => nilOff rb g.h y p k

/-- R81: `RowRead(layout, y, p, k)`: the source row is SRB bytes long and zero-extended. -/
def rowRead (g : Geometry) (l : Layout) (y p k : Nat) (m : Memory) : Option Byte :=
  if k < g.sb then m.read (g.src + g.off l g.sb y p k) else some 0#8

/-- R67, R17: `be16(hi, lo)`. -/
def be16 (hi lo : Byte) : BitVec 16 := BitVec.ofNat 16 (hi.toNat * 256 + lo.toNat)

/-- R67: bits 15:8 of a colour word, the byte at the lower address. -/
def highByte (w : BitVec 16) : Byte := BitVec.ofNat 8 (w.toNat / 256)

/-- R67: bits 7:0 of a colour word, the byte at the next address. -/
def lowByte (w : BitVec 16) : Byte := BitVec.ofNat 8 (w.toNat % 256)

/-! ### Extents (20_memory.md R78) -/

/-- R243: `[a, a+m)` and `[b, b+n)` are both non-empty and intersect. -/
def extentsMeet (a m b n : Nat) : Bool :=
  decide (0 < m) && decide (0 < n) && decide (a < b + n) && decide (b < a + m)

/-- R154, R78: the size bound of PBENC's output, the destination extent of PBENC. -/
def pbencBound (n : Nat) : Nat := n + n / 128 + 1

/-- R78: bytes of the source extent, by command; 0 for one that has none. -/
def srcExtent (i : Instr) (o : Operands) : Nat :=
  match i with
  | .lit _ => 0
  | .nop => 0
  | .rep _ => 0
  | .pbdec => o.srclen.toNat
  | .pbenc => o.srclen.toNat
  | .deint => o.nplanes.toNat * o.srb.toNat * o.height.toNat
  | .intlv => o.nplanes.toNat * o.srb.toNat * o.height.toNat
  | .transp => o.cols.toNat * o.rows.toNat * o.colw.toNat
  | .chunky => o.nplanes.toNat * o.srb.toNat * o.height.toNat
  | .paldn => o.ncolors.toNat * 3
  | .palup => o.ncolors.toNat * 2
  | .paldef => 0
  | .paldet => 0

/-- R78: bytes of the destination extent, by command; 0 for one that has none. -/
def dstExtent (i : Instr) (o : Operands) : Nat :=
  match i with
  | .lit _ => 0
  | .nop => 0
  | .rep _ => 0
  | .pbdec => o.len.toNat
  | .pbenc => pbencBound o.srclen.toNat
  | .deint => o.nplanes.toNat * rowBytes o.width.toNat * o.height.toNat
  | .intlv => o.nplanes.toNat * rowBytes o.width.toNat * o.height.toNat
  | .transp => o.rows.toNat * o.drb.toNat
  | .chunky => o.width.toNat * o.height.toNat
  | .paldn => o.ncolors.toNat * 2
  | .palup => o.ncolors.toNat * 3
  | .paldef => o.ncolors.toNat * 2
  | .paldet => 0

/-- R78, R243: the command's source and destination extents intersect. -/
def overlap (i : Instr) (o : Operands) : Bool :=
  extentsMeet o.src.toNat (srcExtent i o) o.dst.toNat (dstExtent i o)

/-! ### Operand checks at issue (60_exceptions.md R243): true is legal -/

/-- R171: the operand values DEINT, INTLV and CHUNKY share. -/
def geometryOk (o : Operands) : Bool :=
  decide (1 ≤ o.width.toNat) && decide (1 ≤ o.height.toNat) && decide (1 ≤ o.nplanes.toNat) &&
    decide (o.nplanes.toNat ≤ Config.maxPlanes) && decide (1 ≤ o.srb.toNat) &&
    decide (o.srb.toNat ≤ rowBytes o.width.toNat)

/-- R210, R231: NCOLORS at most 256. -/
def colorsOk (o : Operands) : Bool := decide (o.ncolors.toNat ≤ Config.maxColors)

/-- R243: no condition of the command's row holds. A stream instruction has no row. -/
def paramsOk (i : Instr) (o : Operands) : Bool :=
  match i with
  | .lit _ => true
  | .nop => true
  | .rep _ => true
  | .pbdec => !overlap .pbdec o
  | .pbenc => !overlap .pbenc o
  | .deint => geometryOk o && !overlap .deint o
  | .intlv => geometryOk o && !overlap .intlv o
  | .transp => decide (o.cols.toNat * o.colw.toNat ≤ o.drb.toNat) && !overlap .transp o
  | .chunky => geometryOk o && (flagsReserved o.flags == 0) && !overlap .chunky o
  | .paldn => colorsOk o && !overlap .paldn o
  | .palup => colorsOk o && !overlap .palup o
  | .paldef => colorsOk o
  | .paldet => colorsOk o

/-! ### The end of a command -/

/-- BusError inside the command `i` (R66, R244, R245): PRODUCED and CONSUMED stand as the caller wrote them, the whole
destination extent is left open (log 10), and no other byte of M changes. -/
def busFault (i : Instr) (s : State) : State :=
  raise .busError { s with mem := s.mem.leaveOpen s.latch.dst.toNat (dstExtent i s.latch) }

/-- The end of a command that writes buffer memory and whose only fault is BusError: with no BusError its counts go to
PRODUCED and CONSUMED and it completes; after one the two registers are 0 (R244). -/
def finish (i : Instr) (s : State) (r : Run Memory) (produced consumed : Nat) : State :=
  match r with
  | .ok m => complete { s with mem := m, produced := countWord produced, consumed := countWord consumed }
  | .bus m => busFault i { s with mem := m, produced := 0#32, consumed := 0#32 }

end Sys2Proof.Machine
end

