-- ==== Sys2Proof/Machine/PackBits.lean ====
section
/-! DEFINITION. The PackBits unit: the stream instructions LIT, REP, NOP and the command PBDEC
(40_packbits_decode.md), and the command PBENC (41_packbits_encode.md). -/

namespace Sys2Proof.Machine

/-! ### Stream instructions (R120 to R124) -/

/-- R120: the two running counters and the memory, as a group's execution moves them. -/
structure Cursor where
  pc : Nat
  q : Nat
  mem : Memory
  deriving DecidableEq, Repr

/-- The state with the counters and the memory of `c`. -/
def State.withCursor (s : State) (c : Cursor) : State := { s with pc := c.pc, q := c.q, mem := c.mem }

/-- R129: PRODUCED and CONSUMED written with the q and pc reached. -/
def writeCounts (s : State) : State := { s with produced := countWord s.q, consumed := countWord s.pc }

/-- A fault inside PBDEC: PRODUCED and CONSUMED hold the q and pc reached (R129, R246, R247). -/
def streamFault (f : FaultKind) (s : State) : State := raise f (writeCounts s)

/-- BusError inside PBDEC: PRODUCED and CONSUMED hold the q and pc reached, and the row is left open (R244). -/
def streamBusFault (s : State) : State := busFault .pbdec (writeCounts s)

/-- R129, R130: the end of PBDEC's loop: the counts are written, and a row still short is TruncatedData. -/
def endStream (s : State) : State :=
  if s.q < s.latch.len.toNat then streamFault .truncatedData s else complete (writeCounts s)

/-- R122: one pass of LIT's loop: `M[D + q] <- M[S + pc]`, q and pc up by one. -/
def copyByte (src dst : Nat) (c : Cursor) : Run Cursor :=
  match c.mem.read (src + c.pc) with
  | none => .bus c
  | some b =>
    match put (dst + c.q) b c.mem with
    | .ok m => .ok { pc := c.pc + 1, q := c.q + 1, mem := m }
    | .bus _ => .bus c

/-- R122: LIT's loop over `k` bytes; at `pc = N` the source is exhausted and the bytes copied so far stay. -/
def copyLiteral (src n dst : Nat) : Nat → Cursor → Run Cursor
  | 0, c => .ok c
  | k + 1, c => if c.pc = n then .ok c else (copyByte src dst c).andThen (copyLiteral src n dst k)

/-- R123: REP's loop: `M[D + q] <- v`, q up by one, `k` times. -/
def fillRun (dst : Nat) (v : Byte) : Nat → Cursor → Run Cursor
  | 0, c => .ok c
  | k + 1, c =>
    match put (dst + c.q) v c.mem with
    | .ok m => fillRun dst v k { pc := c.pc, q := c.q + 1, mem := m }
    | .bus _ => .bus c

/-- The state after a group's accesses: the cursor they reached, or BusError with the q and pc reached. -/
def afterGroup (s : State) (r : Run Cursor) : State :=
  match r with
  | .ok c => s.withCursor c
  | .bus c => streamBusFault (s.withCursor c)

/-- R122: LIT. RowOverrun is tested from the control byte alone, before anything is copied (R126). -/
def litGroup (n : BitVec 7) (s : State) : State :=
  if s.latch.len.toNat < s.q + litCount n then streamFault .rowOverrun s
  else
    afterGroup s (copyLiteral s.latch.src.toNat s.latch.srclen.toNat s.latch.dst.toNat (litCount n)
      { pc := s.pc + 1, q := s.q, mem := s.mem })

/-- R123: REP. With its value byte missing it consumes the control byte and produces nothing. -/
def repGroup (m : BitVec 7) (s : State) : State :=
  if s.latch.len.toNat < s.q + repCount m then streamFault .rowOverrun s
  else if s.pc + 1 = s.latch.srclen.toNat then { s with pc := s.pc + 1 }
  else
    match s.mem.read (s.latch.src.toNat + s.pc + 1) with
    | none => streamBusFault s
    | some v =>
      match fillRun s.latch.dst.toNat v (repCount m) { pc := s.pc, q := s.q, mem := s.mem } with
      | .ok c => s.withCursor { pc := s.pc + 2, q := c.q, mem := c.mem }
      | .bus c => streamBusFault (s.withCursor c)

/-- R124: NOP. -/
def nopGroup (s : State) : State := { s with pc := s.pc + 1 }

/-- 40_packbits_decode.md R122: the meaning of LIT. -/
def execLit (n : BitVec 7) (s : State) : Host.Outcome State Fault Refusal := .next (litGroup n s)

/-- 40_packbits_decode.md R123: the meaning of REP. -/
def execRep (m : BitVec 7) (s : State) : Host.Outcome State Fault Refusal := .next (repGroup m s)

/-- 40_packbits_decode.md R124: the meaning of NOP. -/
def execNop (s : State) : Host.Outcome State Fault Refusal := .next (nopGroup s)

/-! ### PBDEC (R129) -/

/-- R129: the three branches of PBDEC's loop body. -/
def runGroup (c : Byte) (s : State) : State :=
  if c.toNat ≤ 0x7F then litGroup (controlField c) s
  else if c.toNat = 0x80 then nopGroup s
  else repGroup (controlField c) s

/-- R129: `pc <- 0; q <- 0`, and the sequencer stands at the first group boundary. -/
def beginStream (s : State) : State := { s with pc := 0, q := 0, seq := .stream }

/-- R121, R129: the test of PBDEC's loop, under which a group is fetched. -/
def moreGroups (s : State) : Bool := decide (s.q < s.latch.len.toNat) && decide (s.pc < s.latch.srclen.toNat)

/-- R121, R129: one pass of PBDEC's loop, or its end. -/
def streamTurn (s : State) : State :=
  if moreGroups s then
    match s.mem.read (s.latch.src.toNat + s.pc) with
    | none => streamBusFault s
    | some c => runGroup c s
  else endStream s

/-- R129: PBDEC's loop, at most `fuel` turns; a fault or the end leaves it. -/
def streamLoop : Nat → State → State
  | 0, s => s
  | fuel + 1, s => if s.seq = .stream then streamLoop fuel (streamTurn s) else s

/-- R132, R129: PBDEC's operand check; on BadParam PRODUCED and CONSUMED are 0. -/
def pbdecRefuse (s : State) : State := raise .badParam { s with produced := 0#32, consumed := 0#32 }

/-- 40_packbits_decode.md R129: the meaning of PBDEC, the whole command. Each pass consumes a source byte, so N passes
and the end are N + 1 turns. -/
def execPbdec (s : State) : Host.Outcome State Fault Refusal :=
  .next (if paramsOk .pbdec s.latch then streamLoop (s.latch.srclen.toNat + 1) (beginStream s) else pbdecRefuse s)

/-- PBDEC begun and left at its first group boundary, to go on group by group (R21; log 5). -/
def beginPbdec (s : State) : State := if paramsOk .pbdec s.latch then beginStream s else pbdecRefuse s

/-! ### PBENC (R150 to R153) -/

/-- R150: `src[j]`. -/
def srcByte (src : Nat) (m : Memory) (j : Nat) : Option Byte := m.read (src + j)

/-- R151: how many of the bytes from `j` on, at most `limit`, equal `v`; `none` where a read lies outside M. -/
def countEqual (src : Nat) (m : Memory) (v : Byte) : (limit j : Nat) → Option Nat
  | 0, _ => some 0
  | limit + 1, j =>
    match srcByte src m j with
    | none => none
    | some b =>
      if b = v then
        match countEqual src m v limit (j + 1) with
        | none => none
        | some k => some (k + 1)
      else some 0

/-- R151: `run(j)` for `0 ≤ j < N`, the run of identical bytes from `j`, capped at 128 and at the row's end. -/
def runLength (src n : Nat) (m : Memory) (j : Nat) : Option Nat :=
  match srcByte src m j with
  | none => none
  | some v =>
    match countEqual src m v (min Config.maxRun (n - j) - 1) (j + 1) with
    | none => none
    | some k => some (k + 1)

/-- R152: the inner loop of the literal branch, `room` bytes below the cap of 128: the first `j` at the row's end, at
the cap, or where a run of 3 or more begins. -/
def literalEnd (src n : Nat) (m : Memory) : (room j : Nat) → Option Nat
  | 0, j => some j
  | room + 1, j =>
    if j < n then
      match runLength src n m j with
      | none => none
      | some r => if r < Config.minRep then literalEnd src n m room (j + 1) else some j
    else some j

/-- R152: the encoder's two indices (not architectural, R32) and the memory. -/
structure Enc where
  i : Nat
  o : Nat
  mem : Memory
  deriving DecidableEq, Repr

/-- What PBENC has reached after accesses to memory: its indices move only when all of them lay inside M. -/
def Enc.after (e : Enc) (r : Run Memory) (i o : Nat) : Run Enc :=
  match r with
  | .ok m => .ok { i := i, o := o, mem := m }
  | .bus m => .bus { e with mem := m }

/-- R152: the repeat branch, for a run of `r`: the control byte, then the value. -/
def encodeRepeat (src dst r : Nat) (e : Enc) : Run Enc :=
  e.after
    ((put (dst + e.o) (repeatControl r) e.mem).andThen fun m => store (dst + e.o + 1) (srcByte src m e.i) m)
    (e.i + r) (e.o + 2)

/-- R152: the literal branch, up to `j`: the control byte, then the bytes. -/
def encodeLiteral (src dst j : Nat) (e : Enc) : Run Enc :=
  e.after
    ((put (dst + e.o) (literalControl (j - e.i)) e.mem).andThen
      (loop (j - e.i) fun t m => store (dst + e.o + 1 + t) (srcByte src m (e.i + t)) m))
    j (e.o + 1 + (j - e.i))

/-- R152: one pass of PBENC's outer loop. -/
def encodeGroup (src n dst : Nat) (e : Enc) : Run Enc :=
  match runLength src n e.mem e.i with
  | none => .bus e
  | some r =>
    if Config.minRep ≤ r then encodeRepeat src dst r e
    else
      match literalEnd src n e.mem Config.maxRun e.i with
      | none => .bus e
      | some j => encodeLiteral src dst j e

/-- R152: PBENC's outer loop; `i` grows at each pass, so N passes are enough. -/
def encodeLoop (src n dst : Nat) : Nat → Enc → Run Enc
  | 0, e => .ok e
  | fuel + 1, e => if e.i < n then (encodeGroup src n dst e).andThen (encodeLoop src n dst fuel) else .ok e

/-- R152: the end of PBENC: PRODUCED is the output's length, CONSUMED the scan index (N). -/
def finishEncode (s : State) (r : Run Enc) : State :=
  match r with
  | .ok e => finish .pbenc s (.ok e.mem) e.o e.i
  | .bus e => finish .pbenc s (.bus e.mem) 0 0

/-- 41_packbits_encode.md R152: the meaning of PBENC. -/
def execPbenc (s : State) : Host.Outcome State Fault Refusal :=
  .next
    (if paramsOk .pbenc s.latch then
      finishEncode s (encodeLoop s.latch.src.toNat s.latch.srclen.toNat s.latch.dst.toNat s.latch.srclen.toNat
        { i := 0, o := 0, mem := s.mem })
    else raise .badParam s)

end Sys2Proof.Machine
end

