-- ==== Sys2Proof/Machine/Palette.lean ====
section
/-! DEFINITION. The palette unit: PALDN, PALUP, PALDEF, PALDET (43_palette.md). -/

namespace Sys2Proof.Machine

/-! ### The scalar functions (R211, R212, R225) -/

/-- 30_encoding.md R92: packing of three 4-bit channels, `(r << 8) | (g << 4) | b`, bits 15:12 zero. -/
def packColor (r g b : BitVec 16) : BitVec 16 := (r <<< 8) ||| (g <<< 4) ||| b

/-- R211: `scaleDown(r, g, b)`: each channel's top four bits. -/
def scaleDown (r g b : Byte) : BitVec 16 :=
  packColor (BitVec.ofNat 16 (r.toNat / 16)) (BitVec.ofNat 16 (g.toNat / 16)) (BitVec.ofNat 16 (b.toNat / 16))

/-- R212: a 4-bit channel expanded, `n * 17`. -/
def expandNibble (n : Nat) : Byte := BitVec.ofNat 8 (n * 17)

/-- R92: the channels of a colour word; bits 15:12 are ignored (R107). -/
def redOf (w : BitVec 16) : Nat := w.toNat / 256 % 16

/-- R92: bits 7:4. -/
def greenOf (w : BitVec 16) : Nat := w.toNat / 16 % 16

/-- R92: bits 3:0. -/
def blueOf (w : BitVec 16) : Nat := w.toNat % 16

/-- R212: `scaleUp(w)`. -/
def scaleUp (w : BitVec 16) : Byte × Byte × Byte :=
  (expandNibble (redOf w), expandNibble (greenOf w), expandNibble (blueOf w))

/-- R225: entry `i` of the default palette as a colour word: black, then white. -/
def defaultColor (i : Nat) : BitVec 16 := if i = 0 then 0x0000#16 else 0x0FFF#16

/-! ### Array commands -/

/-- R67: a colour word written at `a`, the high byte first. -/
def putWord (a : Nat) (w : BitVec 16) (m : Memory) : Run Memory :=
  (put a (highByte w) m).andThen (put (a + 1) (lowByte w))

/-- R220: the three channels written at rising addresses. -/
def putTriplet (a : Nat) (c : Byte × Byte × Byte) (m : Memory) : Run Memory :=
  ((put a c.1 m).andThen (put (a + 1) c.2.1)).andThen (put (a + 2) c.2.2)

/-- R214: entry `i` of PALDN: the triplet at `S + 3i` to the word at `D + 2i`. -/
def paldnEntry (src dst i : Nat) (m : Memory) : Run Memory :=
  match m.read (src + 3 * i), m.read (src + 3 * i + 1), m.read (src + 3 * i + 2) with
  | some r, some g, some b => putWord (dst + 2 * i) (scaleDown r g b) m
  | _, _, _ => .bus m

/-- R220: entry `i` of PALUP: the word at `S + 2i` to the triplet at `D + 3i`. -/
def palupEntry (src dst i : Nat) (m : Memory) : Run Memory :=
  match m.read (src + 2 * i), m.read (src + 2 * i + 1) with
  | some hi, some lo => putTriplet (dst + 3 * i) (scaleUp (be16 hi lo)) m
  | _, _ => .bus m

/-- R226: entry `i` of PALDEF. -/
def paldefEntry (dst i : Nat) (m : Memory) : Run Memory := putWord (dst + 2 * i) (defaultColor i) m

/-- 43_palette.md R214: the meaning of PALDN. -/
def execPaldn (s : State) : Host.Outcome State Fault Refusal :=
  .next
    (if paramsOk .paldn s.latch then
      finish .paldn s (loop s.latch.ncolors.toNat (paldnEntry s.latch.src.toNat s.latch.dst.toNat) s.mem)
        (2 * s.latch.ncolors.toNat) (3 * s.latch.ncolors.toNat)
    else raise .badParam s)

/-- 43_palette.md R220: the meaning of PALUP. -/
def execPalup (s : State) : Host.Outcome State Fault Refusal :=
  .next
    (if paramsOk .palup s.latch then
      finish .palup s (loop s.latch.ncolors.toNat (palupEntry s.latch.src.toNat s.latch.dst.toNat) s.mem)
        (3 * s.latch.ncolors.toNat) (2 * s.latch.ncolors.toNat)
    else raise .badParam s)

/-- 43_palette.md R226: the meaning of PALDEF. CONSUMED is 0. -/
def execPaldef (s : State) : Host.Outcome State Fault Refusal :=
  .next
    (if paramsOk .paldef s.latch then
      finish .paldef s (loop s.latch.ncolors.toNat (paldefEntry s.latch.dst.toNat) s.mem) (2 * s.latch.ncolors.toNat) 0
    else raise .badParam s)

/-! ### Trailing palette detection (R230 to R232) -/

/-- R230: the three outcomes of `detect`. -/
inductive Verdict where
  | present | absent | sizeMismatch
  deriving DecidableEq, Repr

/-- R230: `detect(fileLen, pixelDataLen, numColors)` on naturals, in the source's order of tests. -/
def detect (fileLen pixLen nc : Nat) : Verdict :=
  if fileLen = pixLen + nc * 2 then .present
  else if fileLen = pixLen then .absent
  else .sizeMismatch

/-- R231, R232: PALDET after its operand check; RESULT is 1 for PRESENT and 0 for ABSENT, and stays as it is on a size
mismatch. -/
def paldetCommand (s : State) : State :=
  match detect s.latch.filelen.toNat s.latch.pixlen.toNat s.latch.ncolors.toNat with
  | .present => complete { s with result := 1#32 }
  | .absent => complete { s with result := 0#32 }
  | .sizeMismatch => raise .sizeMismatch s

/-- 43_palette.md R231: the meaning of PALDET. -/
def execPaldet (s : State) : Host.Outcome State Fault Refusal :=
  .next (if paramsOk .paldet s.latch then paldetCommand s else raise .badParam s)

end Sys2Proof.Machine
end

