-- ==== Sys2Proof/Machine/PlaneLayout.lean ====
section
/-! DEFINITION. The plane layout unit: DEINT, INTLV, TRANSP, CHUNKY (42_plane_layout.md). -/

namespace Sys2Proof.Machine

/-! ### Re-blocking (R175, R181) -/

/-- R175, R181: the three loops of a re-blocking from layout `l` to layout `l'`. -/
def reblock (g : Geometry) (l l' : Layout) (m : Memory) : Run Memory :=
  loop g.h (fun y => loop g.np (fun p => loop g.rb (fun k m =>
    store (g.dst + g.off l' g.rb y p k) (rowRead g l y p k m) m))) m

/-- R175, R181: what the re-blocking command `i` does after its operand check. -/
def reblockCommand (i : Instr) (l l' : Layout) (s : State) : State :=
  let g := geometry s.latch
  finish i s (reblock g l l' s.mem) (g.np * g.rb * g.h) (g.np * g.sb * g.h)

/-- 42_plane_layout.md R175: the meaning of DEINT. -/
def execDeint (s : State) : Host.Outcome State Fault Refusal :=
  .next (if paramsOk .deint s.latch then reblockCommand .deint .interleaved .nonInterleaved s else raise .badParam s)

/-- 42_plane_layout.md R181: the meaning of INTLV. -/
def execIntlv (s : State) : Host.Outcome State Fault Refusal :=
  .next (if paramsOk .intlv s.latch then reblockCommand .intlv .nonInterleaved .interleaved s else raise .badParam s)

/-! ### Column transpose (R187) -/

/-- R187: the operands of TRANSP, as naturals. -/
structure Columns where
  src : Nat
  dst : Nat
  cw : Nat
  rows : Nat
  cols : Nat
  db : Nat
  deriving DecidableEq, Repr

/-- R187: TRANSP's operands in the latched registers. -/
def columns (o : Operands) : Columns :=
  { src := o.src.toNat, dst := o.dst.toNat, cw := o.colw.toNat, rows := o.rows.toNat, cols := o.cols.toNat,
    db := o.drb.toNat }

/-- R187: one output row: the entries of every column block, then the right padding. -/
def transposeRow (t : Columns) (y : Nat) (m : Memory) : Run Memory :=
  (loop t.cols (fun c => loop t.cw (fun k m =>
    store (t.dst + y * t.db + c * t.cw + k) (m.read (t.src + (c * t.rows + y) * t.cw + k)) m)) m).andThen
    (loopFrom (fun k => put (t.dst + y * t.db + k) 0#8) (t.db - t.cols * t.cw) (t.cols * t.cw))

/-- R187: what TRANSP does after its operand check. -/
def transposeCommand (s : State) : State :=
  let t := columns s.latch
  finish .transp s (loop t.rows (transposeRow t) s.mem) (t.rows * t.db) (t.cols * t.rows * t.cw)

/-- 42_plane_layout.md R187: the meaning of TRANSP. -/
def execTransp (s : State) : Host.Outcome State Fault Refusal :=
  .next (if paramsOk .transp s.latch then transposeCommand s else raise .badParam s)

/-! ### Planar to chunky (R194 to R196) -/

/-- R195, 20_memory.md R62: the bit of column `x` in the plane byte that holds it, as 0 or 1. -/
def columnBit (b : Byte) (x : Nat) : Byte := (b >>> (7 - x % 8)) &&& 1#8

/-- R195: `pixel(x, y)` over the first `np` planes: the OR of each plane's bit shifted to its place. -/
def pixel (g : Geometry) (l : Layout) (x y : Nat) (m : Memory) : (np : Nat) → Option Byte
  | 0 => some 0#8
  | p + 1 =>
    match pixel g l x y m p, rowRead g l y p (x / 8) m with
    | some v, some b => some (v ||| (columnBit b x <<< p))
    | _, _ => none

/-- R196: `double4(v)`: bit b of the low four replicated into bits 2b and 2b+1. -/
def double4 (v : Byte) : Byte :=
  ((v &&& 1#8) * 0x03#8) ||| (((v >>> 1) &&& 1#8) * 0x0C#8) ||| (((v >>> 2) &&& 1#8) * 0x30#8) |||
    (((v >>> 3) &&& 1#8) * 0xC0#8)

/-- R194: the value CHUNKY stores for a pixel value. -/
def chunkyByte (dbl : Bool) (v : Byte) : Byte := if dbl then double4 v else v

/-- R25, R194: the layout of CHUNKY's source. -/
def chunkyLayout (flags : Word) : Layout := if flagIlv flags then .interleaved else .nonInterleaved

/-- R194: the two loops of CHUNKY. -/
def chunkyLoop (g : Geometry) (l : Layout) (dbl : Bool) (m : Memory) : Run Memory :=
  loop g.h (fun y => loop g.w (fun x m =>
    store (g.dst + (y * g.w + x)) ((pixel g l x y m g.np).map (chunkyByte dbl)) m)) m

/-- R194: what CHUNKY does after its operand check. -/
def chunkyCommand (s : State) : State :=
  let g := geometry s.latch
  finish .chunky s (chunkyLoop g (chunkyLayout s.latch.flags) (flagDbl s.latch.flags) s.mem) (g.w * g.h) (g.np * g.sb * g.h)

/-- 42_plane_layout.md R194: the meaning of CHUNKY. -/
def execChunky (s : State) : Host.Outcome State Fault Refusal :=
  .next (if paramsOk .chunky s.latch then chunkyCommand s else raise .badParam s)

end Sys2Proof.Machine
end

