-- ==== Sys2Proof/Machine/Dispatch.lean ====
section
/-! DEFINITION. One arm per instruction. -/

namespace Sys2Proof.Machine

def exec (i : Instr) (s : State) : Host.Outcome State Fault Refusal :=
  match i with
  | .lit n => Sys2Proof.Machine.execLit n s
  | .nop => Sys2Proof.Machine.execNop s
  | .rep m => Sys2Proof.Machine.execRep m s
  | .pbdec => Sys2Proof.Machine.execPbdec s
  | .pbenc => Sys2Proof.Machine.execPbenc s
  | .deint => Sys2Proof.Machine.execDeint s
  | .intlv => Sys2Proof.Machine.execIntlv s
  | .transp => Sys2Proof.Machine.execTransp s
  | .chunky => Sys2Proof.Machine.execChunky s
  | .paldn => Sys2Proof.Machine.execPaldn s
  | .palup => Sys2Proof.Machine.execPalup s
  | .paldef => Sys2Proof.Machine.execPaldef s
  | .paldet => Sys2Proof.Machine.execPaldet s

end Sys2Proof.Machine
end

