-- ==== Sys2Proof/Machine/HostPort.lean ====
section
/-! DEFINITION. The host's moves on the block's registers and buffer memory (10_state.md R20 to R23, 20_memory.md R76,
R77). -/

namespace Sys2Proof.Machine

/-- A host write of a byte of M: forbidden while BUSY = 1 (R76; log 8); an address of MEMSIZE or more does not exist
(R33; log 9). R76 forbids it until the host has read STATUS with DONE = 1 and leaves its effect open; once BUSY is 0 the
model makes the write, whether or not the host has read STATUS (DESIGN CHOICE, log 21). -/
def hostWriteMem (a : Nat) (b : Byte) (s : State) : Host.Outcome State Fault Refusal :=
  if s.status.busy then .fault .hostAccessWhileBusy
  else if a < s.mem.size then .next { s with mem := s.mem.set a b }
  else .fault .hostAddressAbsent

/-- A host read of a byte of M, returned in `hostData`; a read changes nothing else (R68). Once BUSY is 0 it returns the
byte, whether or not the host has read STATUS with DONE = 1, as R76 asks of it (DESIGN CHOICE, log 21). -/
def hostReadMem (a : Nat) (s : State) : Host.Outcome State Fault Refusal :=
  if s.status.busy then .fault .hostAccessWhileBusy
  else if a < s.mem.size then .next { s with hostData := BitVec.ofNat 32 (s.mem.byteAt a).toNat }
  else .fault .hostAddressAbsent

/-- A host read of a register, returned in `hostData`. While BUSY = 1 a result register may not be read (R76; log 8);
STATUS may (R21), and CMD and the operand registers hold what was last written (R23; log 15). Once BUSY is 0 a result register
is read whether or not the host has read STATUS with DONE = 1, as R76 asks of it (DESIGN CHOICE, log 21). -/
def hostReadReg (r : Reg) (s : State) : Host.Outcome State Fault Refusal :=
  if s.status.busy && isResultReg r then .fault .hostAccessWhileBusy
  else .next { s with hostData := readReg r s }

end Sys2Proof.Machine
end

