-- ==== Sys2Proof/Machine/Sequencer.lean ====
section
/-! DEFINITION. The sequencer's turn, the host's turn, and how the sequencer comes to run a given code. -/

namespace Sys2Proof.Machine

/-- The sequencer at the start of the command in CMD: a code that names no command is IllegalCommand (30_encoding.md
R105, 60_exceptions.md R242); any other runs to completion (10_state.md R21). -/
def commandTurn (s : State) : Host.Outcome State Fault Refusal :=
  match decodeCommand s.cmd with
  | .ok i => exec i s
  | .error _ => .next (raise .illegalCommand s)

/-- The sequencer at a group boundary inside PBDEC (40_packbits_decode.md R121, R129): under the loop's test the control
byte is fetched, decoded and executed; else the command ends. -/
def groupTurn (s : State) : Host.Outcome State Fault Refusal :=
  if moreGroups s then
    match s.mem.read (s.latch.src.toNat + s.pc) with
    | none => .next (streamBusFault s)
    | some c => exec (decodeControl c) s
  else .next (endStream s)

/-- The sequencer's turn. With BUSY = 0 the block is idle and nothing happens (70_reset_and_hazards.md R270). -/
def sequencerTurn (s : State) : Host.Outcome State Fault Refusal :=
  if s.status.busy then
    match s.seq with
    | .command => commandTurn s
    | .stream => groupTurn s
  else .next s

/-- The sequencer's turn, a PBDEC at its start being begun and left at its first group boundary (R21; log 5). -/
def groupwiseTurn (s : State) : Host.Outcome State Fault Refusal :=
  if s.status.busy && (s.seq == .command) && (s.cmd == 0x01#32) then .next (beginPbdec s)
  else sequencerTurn s

/-- One turn, the move at the head of `inputs` having been taken off. -/
def turn (i : Input) (s : State) : Host.Outcome State Fault Refusal :=
  match i with
  | .writeReg r v => .next (writeReg r v s)
  | .readReg r => hostReadReg r s
  | .writeMem a b => hostWriteMem a b s
  | .readMem a => hostReadMem a s
  | .reset => .next (assertReset s)
  | .run => sequencerTurn s
  | .runGroups => groupwiseTurn s

/-- M with the bytes of `bs` at the addresses from `a` on. -/
def setBytes (m : Memory) (a : Nat) : List Byte → Memory
  | [] => m
  | b :: bs => setBytes (m.set a b) (a + 1) bs

/-- The longest group, a LIT of 128 bytes (R90). -/
def longestGroup : Nat := 129

/-- A PBDEC in progress whose next group is the control byte `c` with zero bytes after it (log 14): the stream is the
longest group's 129 bytes at address 0, the row its 128 bytes at address 129, nothing produced yet. -/
def withControlByte (s : State) (c : Byte) : State :=
  { s with
    cmd := 0x01#32
    status := { s.status with busy := true, done := false }
    latch :=
      { s.latch with
        src := 0#32
        srclen := BitVec.ofNat 32 longestGroup
        dst := BitVec.ofNat 32 longestGroup
        len := BitVec.ofNat 32 Config.maxRun }
    produced := 0#32
    consumed := 0#32
    result := 0#32
    pc := 0
    q := 0
    seq := .stream
    mem := setBytes s.mem 0 (c :: List.replicate Config.maxRun 0#8)
    inputs := [] }

/-- The command `w` issued (10_state.md R27) and no host move before the sequencer's turn (log 14). -/
def withCommand (s : State) (w : Word) : State := { issue w s with inputs := [] }

/-- The state in which the sequencer's very next step runs the code of `nbits` bits `w`. -/
def placeCode (s : State) (nbits w : Nat) : State :=
  if nbits = 8 then withControlByte s (BitVec.ofNat 8 w) else withCommand s (BitVec.ofNat 32 w)

end Sys2Proof.Machine
end

