-- ==== Sys2Proof/Machine/Step.lean ====
section
/-! DEFINITION. One step: the host's next move if one waits, else the sequencer's turn. -/

namespace Sys2Proof.Machine

/-- 10_state.md R20: the two agents; `inputs` says which moves next (log 6). -/
def step (s : State) : Host.Outcome State Fault Refusal :=
  match s.inputs with
  | [] => sequencerTurn s
  | i :: rest => turn i { s with inputs := rest }

/-- `s` with the code `w` of `nbits` bits placed where the sequencer takes its next instruction from: for a command the
CMD register at issue, for a stream instruction the decode cursor of a PBDEC in progress (log 14). -/
def State.withFetchWord (s : State) (nbits w : Nat) : State := placeCode s nbits w

end Sys2Proof.Machine
end

