-- ==== Sys2Proof/Safety.lean ====
section
/-! DEFINITION. What a legal state is (`BlockInv`) and what a run with no fault is (`NoFault`), in the terms claims use. -/

namespace Sys2Proof.Machine

/-- 10_state.md R24: the four legal combinations of BUSY, DONE, ERR and CAUSE. -/
def Status.legal (st : Status) : Prop :=
  (st.busy = true → st.done = false ∧ st.err = false) ∧
  (st.err = true → st.done = true ∧ 1 ≤ st.cause.toNat ∧ st.cause.toNat ≤ 6) ∧
  (st.err = false → st.cause = 0#4)

/-- No fault has been recorded since reset (R24). -/
def NoFault (s : State) : Prop := s.status.err = false

/-- A PBDEC stands at a group boundary (40_packbits_decode.md R120, R132): it is the command in CMD, it is running, its
extents do not intersect, `pc ≤ SRCLEN` and `q ≤ LEN`. -/
def StreamInv (s : State) : Prop :=
  s.status.busy = true ∧ s.cmd = 0x01#32 ∧ overlap .pbdec s.latch = false ∧
  s.pc ≤ s.latch.srclen.toNat ∧ s.q ≤ s.latch.len.toNat

/-- The invariant of the block: M in canonical form with MEMSIZE in its range (R15, R33); STATUS a legal combination
(R24); RESULT 0 or 1 (43_palette.md R232); the result registers 0 from issue until completion (R27, R28); the group
boundary invariant of PBDEC (R120); and nothing issued yet while DONE and BUSY are both 0 (R24, R35). -/
structure BlockInv (s : State) : Prop where
  memory : s.mem.wf = true
  status : s.status.legal
  verdict : s.result.toNat ≤ 1
  cleared : s.status.busy = true → s.produced = 0#32 ∧ s.consumed = 0#32 ∧ s.result = 0#32
  stream : s.seq = .stream → StreamInv s
  unissued : s.status.busy = false → s.status.done = false →
    s.cmd = 0#32 ∧ s.produced = 0#32 ∧ s.consumed = 0#32 ∧ s.result = 0#32

end Sys2Proof.Machine
end

