-- ==== Sys2Proof/Certificates/Slice0/Obligations.lean ====
section
/-! DEFINITION. The statements for the provers. Helper predicates stand in `Sys2Proof.Claim`, written from the spec and
not from the model's meanings; `complete`, `raise` and `issue` are pinned by statements of their own. -/

open Sys2Proof Sys2Proof.Machine

namespace Sys2Proof.Claim

/-! ### Vocabulary -/

/-- `n` bytes from address `a` on lie inside M (no byte at all does so trivially). -/
def InMem (m : Memory) (a n : Nat) : Prop := n = 0 ∨ a + n ≤ m.size

/-- The extents `[a, a+m)` and `[b, b+n)` do not intersect (60_exceptions.md R243). -/
def Apart (a m b n : Nat) : Prop := m = 0 ∨ n = 0 ∨ a + m ≤ b ∨ b + n ≤ a

/-- M keeps its size, and every byte outside `[a, a+n)` reads as before. -/
def SameOutside (m m' : Memory) (a n : Nat) : Prop :=
  m'.size = m.size ∧ ∀ x, ¬ (a ≤ x ∧ x < a + n) → m'.read x = m.read x

/-- The bytes of `X` stand in M from address `a` on. -/
def Holds (m : Memory) (a : Nat) (X : List Byte) : Prop := ∀ j b, X[j]? = some b → m.read (a + j) = some b

/-- Executing `i` raises BadParam and does nothing else: no byte of M is read or written. -/
def BadParams (i : Instr) (s : State) : Prop := exec i s = .next (raise .badParam s)

/-- Executing `i` ends in BusError: PRODUCED and CONSUMED are 0, and no byte outside `[a, a+n)` has changed. What the
bytes inside hold is left open (93_implementation_defined.md U6). -/
def BusErrors (i : Instr) (s : State) (a n : Nat) : Prop :=
  ∃ m', exec i s = .next (raise .busError { s with mem := m', produced := 0#32, consumed := 0#32 }) ∧
    SameOutside s.mem m' a n

/-- PBDEC ends in BusError having reached the cursor `pc` and `q` bytes produced: PRODUCED and CONSUMED hold them, and
no byte outside the row has changed. What the row's bytes hold is left open (U6). -/
def PbdecBusErrors (s : State) (pc q : Nat) : Prop :=
  ∃ m', exec .pbdec s = .next (raise .busError
      { s with pc := pc, q := q, mem := m', produced := BitVec.ofNat 32 q, consumed := BitVec.ofNat 32 pc }) ∧
    SameOutside s.mem m' s.latch.dst.toNat s.latch.len.toNat

/-- 20_memory.md R70. -/
def rowBytesOf (w : Nat) : Nat := (w + 15) / 16 * 2

/-! ### PackBits -/

/-- Before each group of `gs` fewer than `L` bytes have been produced, so PBDEC fetches every one of them (R121). -/
def FetchesAll (gs : List Group) (L : Nat) : Prop := ∀ i, i < gs.length → (outputAll (gs.take i)).length < L

/-- The end of a source that runs out (40_packbits_decode.md R122, R123, R130): the bytes of the cut group that are
there, the bytes it still produces, and the count its control byte announces. -/
inductive CutGroup : List Byte → List Byte → Nat → Prop where
  /-- The source ends between two groups. -/
  | between : CutGroup [] [] 0
  /-- A LIT of `c` bytes of which fewer are there; those are copied. -/
  | literal (c : Nat) (bytes : List Byte) : c ≤ 128 → bytes.length < c →
      CutGroup (BitVec.ofNat 8 (c - 1) :: bytes) bytes c
  /-- A REP of `r` bytes without its value byte; nothing is produced. -/
  | repeated (r : Nat) : 2 ≤ r → r ≤ 128 → CutGroup [BitVec.ofNat 8 (257 - r)] [] r

/-- 41_packbits_encode.md R151: the run of identical bytes at the head of a row, capped at 128. -/
def runOf : List Byte → Nat
  | [] => 0
  | v :: rest => min 128 (1 + (rest.takeWhile (· == v)).length)

/-- R152: how many bytes the literal branch takes, at most `room`: up to the row's end or a run of 3 or more. -/
def literalOf : Nat → List Byte → Nat
  | 0, _ => 0
  | _ + 1, [] => 0
  | room + 1, v :: rest => if runOf (v :: rest) < 3 then 1 + literalOf room rest else 0

/-- R152: the groups PBENC emits for a row, each pass taking at least one byte. -/
def groupsOf : Nat → List Byte → List Group
  | 0, _ => []
  | _ + 1, [] => []
  | fuel + 1, v :: rest =>
    if 3 ≤ runOf (v :: rest) then
      .rep (runOf (v :: rest)) v :: groupsOf fuel ((v :: rest).drop (runOf (v :: rest)))
    else
      .lit ((v :: rest).take (literalOf 128 (v :: rest))) ::
        groupsOf fuel ((v :: rest).drop (literalOf 128 (v :: rest)))

/-- R152: the bytes PBENC writes for a row. -/
def encodedRow (X : List Byte) : List Byte := assembleAll (groupsOf X.length X)

/-- R156: a group PBENC may emit: no NOP, no repeat of 2, nothing empty or longer than 128. -/
def Emittable : Group → Prop
  | .lit bytes => 1 ≤ bytes.length ∧ bytes.length ≤ 128
  | .rep count _ => 3 ≤ count ∧ count ≤ 128
  | .nop => False

/-! ### Planes and palettes -/

/-- 42_plane_layout.md R171: the operands DEINT, INTLV and CHUNKY share are legal, but for the extents. -/
def GeometryLegal (o : Operands) : Prop :=
  1 ≤ o.width.toNat ∧ 1 ≤ o.height.toNat ∧ 1 ≤ o.nplanes.toNat ∧ o.nplanes.toNat ≤ 8 ∧ 1 ≤ o.srb.toNat ∧
    o.srb.toNat ≤ rowBytesOf o.width.toNat

/-- Bytes of the source PlaneBuffer, `NP * SB * H` (20_memory.md R78, R81). -/
def planesIn (o : Operands) : Nat := o.nplanes.toNat * o.srb.toNat * o.height.toNat

/-- Bytes of a padded PlaneBuffer, `NP * RB * H` (R78). -/
def planesOut (o : Operands) : Nat := o.nplanes.toNat * rowBytesOf o.width.toNat * o.height.toNat

/-- R171: the operands of DEINT and INTLV are legal. -/
def ReblockLegal (o : Operands) : Prop :=
  GeometryLegal o ∧ Apart o.src.toNat (planesIn o) o.dst.toNat (planesOut o)

/-- R194: the operands of CHUNKY are legal. -/
def ChunkyLegal (o : Operands) : Prop :=
  GeometryLegal o ∧ o.flags.toNat < 4 ∧
    Apart o.src.toNat (planesIn o) o.dst.toNat (o.width.toNat * o.height.toNat)

/-- R187: the operands of TRANSP are legal. -/
def TransposeLegal (o : Operands) : Prop :=
  o.cols.toNat * o.colw.toNat ≤ o.drb.toNat ∧
    Apart o.src.toNat (o.cols.toNat * o.rows.toNat * o.colw.toNat) o.dst.toNat (o.rows.toNat * o.drb.toNat)

/-- R71, R72, R81: the address of byte `k` of plane `p` of row `y` of the source, interleaved or not. -/
def planeByteAddress (o : Operands) (interleaved : Bool) (y p k : Nat) : Nat :=
  o.src.toNat +
    (if interleaved then (y * o.nplanes.toNat + p) * o.srb.toNat + k
     else (p * o.height.toNat + y) * o.srb.toNat + k)

/-- R195, R62, R81: bit p of the pixel in column `x` of row `y`: the bit of the source at byte `x div 8`, bit
`7 - (x mod 8)`; 0 in the zero extension. -/
def planeBit (o : Operands) (m : Memory) (interleaved : Bool) (p x y : Nat) : Bool :=
  decide (x / 8 < o.srb.toNat) && (m.byteAt (planeByteAddress o interleaved y p (x / 8))).getLsbD (7 - x % 8)

/-- R195: bit `j` of the pixel value. -/
def pixelBit (o : Operands) (m : Memory) (interleaved : Bool) (j x y : Nat) : Bool :=
  decide (j < o.nplanes.toNat) && planeBit o m interleaved j x y

/-- The last source byte CHUNKY reads: the last plane row's byte of the last column that lies below SRB. -/
def chunkyLastRead (o : Operands) : Nat :=
  o.src.toNat + (o.nplanes.toNat * o.height.toNat - 1) * o.srb.toNat +
    min ((o.width.toNat - 1) / 8) (o.srb.toNat - 1)

/-- 60_exceptions.md R243: the row of the table for the command, as the condition that raises BadParam. -/
def BadParamRow (i : Instr) (o : Operands) : Prop :=
  match i with
  | .lit _ => False
  | .nop => False
  | .rep _ => False
  | .pbdec => ¬ Apart o.src.toNat o.srclen.toNat o.dst.toNat o.len.toNat
  | .pbenc => ¬ Apart o.src.toNat o.srclen.toNat o.dst.toNat (o.srclen.toNat + o.srclen.toNat / 128 + 1)
  | .deint => ¬ ReblockLegal o
  | .intlv => ¬ ReblockLegal o
  | .transp => ¬ TransposeLegal o
  | .chunky => ¬ ChunkyLegal o
  | .paldn => 256 < o.ncolors.toNat ∨ ¬ Apart o.src.toNat (3 * o.ncolors.toNat) o.dst.toNat (2 * o.ncolors.toNat)
  | .palup => 256 < o.ncolors.toNat ∨ ¬ Apart o.src.toNat (2 * o.ncolors.toNat) o.dst.toNat (3 * o.ncolors.toNat)
  | .paldef => 256 < o.ncolors.toNat
  | .paldet => 256 < o.ncolors.toNat

/-- 30_encoding.md R104: `o` and `o'` hold the same values in the operand registers the command reads. A stream
instruction reads those of PBDEC (40_packbits_decode.md R120). -/
def AgreeOnRow (i : Instr) (o o' : Operands) : Prop :=
  match i with
  | .lit _ => o.src = o'.src ∧ o.srclen = o'.srclen ∧ o.dst = o'.dst ∧ o.len = o'.len
  | .nop => True
  | .rep _ => o.src = o'.src ∧ o.srclen = o'.srclen ∧ o.dst = o'.dst ∧ o.len = o'.len
  | .pbdec => o.src = o'.src ∧ o.srclen = o'.srclen ∧ o.dst = o'.dst ∧ o.len = o'.len
  | .pbenc => o.src = o'.src ∧ o.srclen = o'.srclen ∧ o.dst = o'.dst
  | .deint => o.src = o'.src ∧ o.dst = o'.dst ∧ o.width = o'.width ∧ o.height = o'.height ∧
      o.nplanes = o'.nplanes ∧ o.srb = o'.srb
  | .intlv => o.src = o'.src ∧ o.dst = o'.dst ∧ o.width = o'.width ∧ o.height = o'.height ∧
      o.nplanes = o'.nplanes ∧ o.srb = o'.srb
  | .transp => o.src = o'.src ∧ o.dst = o'.dst ∧ o.colw = o'.colw ∧ o.rows = o'.rows ∧ o.cols = o'.cols ∧
      o.drb = o'.drb
  | .chunky => o.src = o'.src ∧ o.dst = o'.dst ∧ o.width = o'.width ∧ o.height = o'.height ∧
      o.nplanes = o'.nplanes ∧ o.flags = o'.flags ∧ o.srb = o'.srb
  | .paldn => o.src = o'.src ∧ o.dst = o'.dst ∧ o.ncolors = o'.ncolors
  | .palup => o.src = o'.src ∧ o.dst = o'.dst ∧ o.ncolors = o'.ncolors
  | .paldef => o.dst = o'.dst ∧ o.ncolors = o'.ncolors
  | .paldet => o.filelen = o'.filelen ∧ o.pixlen = o'.pixlen ∧ o.ncolors = o'.ncolors

/-- 10_state.md R22: the operand registers, numbers 2 to 17. -/
def IsOperand (r : Reg) : Prop := 2 ≤ r.number ∧ r.number ≤ 17

/-- 20_memory.md R78: bytes of the command's destination extent; 0 where it has none. -/
def destinationBytes (i : Instr) (o : Operands) : Nat :=
  match i with
  | .lit _ => 0
  | .nop => 0
  | .rep _ => 0
  | .pbdec => o.len.toNat
  | .pbenc => o.srclen.toNat + o.srclen.toNat / 128 + 1
  | .deint => planesOut o
  | .intlv => planesOut o
  | .transp => o.rows.toNat * o.drb.toNat
  | .chunky => o.width.toNat * o.height.toNat
  | .paldn => 2 * o.ncolors.toNat
  | .palup => 3 * o.ncolors.toNat
  | .paldef => 2 * o.ncolors.toNat
  | .paldet => 0

/-- R78: bytes of the command's source extent; 0 where it has none. -/
def sourceBytes (i : Instr) (o : Operands) : Nat :=
  match i with
  | .lit _ => 0
  | .nop => 0
  | .rep _ => 0
  | .pbdec => o.srclen.toNat
  | .pbenc => o.srclen.toNat
  | .deint => planesIn o
  | .intlv => planesIn o
  | .transp => o.cols.toNat * o.rows.toNat * o.colw.toNat
  | .chunky => planesIn o
  | .paldn => 3 * o.ncolors.toNat
  | .palup => 2 * o.ncolors.toNat
  | .paldef => 0
  | .paldet => 0

/-- 60_exceptions.md R240: the value CAUSE takes. -/
def codeOf : FaultKind → Nat
  | .truncatedData => 1
  | .sizeMismatch => 2
  | .rowOverrun => 3
  | .badParam => 4
  | .illegalCommand => 5
  | .busError => 6

end Sys2Proof.Claim

open Sys2Proof.Claim

/-! ### Reset, registers, issue, completion, faults -/

/-- The reset input leaves CMD, STATUS and the result registers 0, no byte of M with a value, and the block idle: with
no host move waiting the next step changes nothing. (The values of the operand registers after reset are the model's
choice, log 1, and are not stated.) -/
def Obligations.ResetInputClearsTheBlock : Prop :=
  ∀ (s : State) (rest : List Input), s.inputs = .reset :: rest →
    ∃ t, step s = .next t ∧ readReg .cmd t = 0#32 ∧ readReg .status t = 0#32 ∧ readReg .produced t = 0#32 ∧
      readReg .consumed t = 0#32 ∧ readReg .result t = 0#32 ∧ (∀ a, cellsLookup t.mem.cells a = none) ∧
      t.mem.size = s.mem.size ∧ t.inputs = rest ∧ (rest = [] → step t = .next t)

/-- The reset state meets the invariant. -/
def Obligations.ResetStateMeetsTheInvariant : Prop := BlockInv State.reset

/-- Every step, from every state that meets the invariant, keeps it: M canonical, STATUS a legal combination, RESULT 0
or 1, the result registers 0 while BUSY, and `pc ≤ SRCLEN`, `q ≤ LEN` at every group boundary of PBDEC. -/
def Obligations.StepKeepsTheInvariant : Prop := ∀ s t, BlockInv s → step s = .next t → BlockInv t

/-- No step changes MEMSIZE. -/
def Obligations.StepKeepsMemsize : Prop := ∀ s t, step s = .next t → t.mem.size = s.mem.size

/-- The sequencer at the start of a command runs the instruction the code in CMD decodes to. -/
def Obligations.StepRunsTheDecodedCommand : Prop :=
  ∀ (s : State) (i : Instr), s.inputs = [] → s.status.busy = true → s.seq = .command →
    decode (.command s.cmd) = .ok i → step s = exec i s

/-- The sequencer at a group boundary of PBDEC runs the stream instruction the byte at the cursor decodes to, under the
loop's test; a control byte outside M is a BusError with the counts reached (R121, R66, R244), the row's bytes left open;
when the test fails it writes the counts and completes, with TruncatedData if the row is short. -/
def Obligations.StepRunsTheDecodedGroup : Prop :=
  ∀ (s : State), s.inputs = [] → s.status.busy = true → s.seq = .stream →
    (∀ c i, s.q < s.latch.len.toNat → s.pc < s.latch.srclen.toNat →
      s.mem.read (s.latch.src.toNat + s.pc) = some c → decode (.control c) = .ok i → step s = exec i s) ∧
    (s.q < s.latch.len.toNat → s.pc < s.latch.srclen.toNat → s.mem.size ≤ s.latch.src.toNat + s.pc →
      ∃ m', step s = .next (raise .busError
          { s with mem := m', produced := BitVec.ofNat 32 s.q, consumed := BitVec.ofNat 32 s.pc }) ∧
        SameOutside s.mem m' s.latch.dst.toNat s.latch.len.toNat) ∧
    (s.q = s.latch.len.toNat → s.pc ≤ s.latch.srclen.toNat →
      step s = .next (complete { s with produced := BitVec.ofNat 32 s.q, consumed := BitVec.ofNat 32 s.pc })) ∧
    (s.q < s.latch.len.toNat → s.pc = s.latch.srclen.toNat →
      step s = .next (raise .truncatedData
        { s with produced := BitVec.ofNat 32 s.q, consumed := BitVec.ofNat 32 s.pc }))

/-- An idle block with no host move waiting does nothing: before the first command, after a command, with or without a
fault. -/
def Obligations.IdleBlockDoesNothing : Prop :=
  ∀ s : State, s.inputs = [] → s.status.busy = false → step s = .next s

/-- A code placed by `withFetchWord` is the very next thing the machine runs. -/
def Obligations.PlacedCodeIsRunNext : Prop :=
  ∀ (s : State) (nbits w : Nat) (i : Instr), 0 < s.mem.size → decodeTableWord nbits w = some i →
    step (s.withFetchWord nbits w) = exec i (s.withFetchWord nbits w)

/-- No instruction of the block ends in a stop of the model. -/
def Obligations.EveryInstructionHasANextState : Prop := ∀ i s, ∃ t, exec i s = .next t

/-- A host write to CMD issues the command, or is refused while BUSY or ERR is 1. -/
def Obligations.CmdWriteIssuesOrIsRefused : Prop :=
  ∀ (c : Word) (s : State),
    ((s.status.busy = true ∨ s.status.err = true) → turn (.writeReg .cmd c) s = .next s) ∧
    (s.status.busy = false → s.status.err = false →
      turn (.writeReg .cmd c) s = .next
        { s with
          cmd := c
          latch := s.regs
          produced := 0#32
          consumed := 0#32
          result := 0#32
          pc := 0
          q := 0
          seq := .command
          status := { s.status with busy := true, done := false } })

/-- A host write to an operand register changes that register and nothing else, whatever STATUS is; a write to STATUS,
PRODUCED, CONSUMED or RESULT is ignored. -/
def Obligations.RegisterWritesReachOneRegister : Prop :=
  ∀ (r : Reg) (v : Word) (s : State),
    (IsOperand r → ∃ t, turn (.writeReg r v) s = .next t ∧ readReg r t = v ∧
      (∀ r', r' ≠ r → readReg r' t = readReg r' s) ∧ t = { s with regs := t.regs }) ∧
    (r = .status ∨ r = .produced ∨ r = .consumed ∨ r = .result → turn (.writeReg r v) s = .next s)

/-- A host read returns the register's value and changes nothing else. MODEL'S CHOICE: where the value goes (log 7); a
read of PRODUCED, CONSUMED or RESULT while BUSY = 1 stops (log 8), and once BUSY is 0 it returns the value whether or not
the host has read STATUS with DONE = 1, which R76 leaves undefined where it has not (log 21); one of CMD or an operand
register while BUSY = 1 returns its value (log 15). -/
def Obligations.HostReadsReturnTheRegister : Prop :=
  ∀ (r : Reg) (s : State),
    (s.status.busy = false ∨ r ≠ .produced ∧ r ≠ .consumed ∧ r ≠ .result →
      turn (.readReg r) s = .next { s with hostData := readReg r s }) ∧
    (s.status.busy = true → r = .produced ∨ r = .consumed ∨ r = .result →
      turn (.readReg r) s = .fault .hostAccessWhileBusy)

/-- A host write to an operand register while a command runs does not change what the command does: every instruction
does the same with the register written before it or after it. -/
def Obligations.OperandWritesDoNotReachTheRunningCommand : Prop :=
  ∀ (i : Instr) (r : Reg) (v : Word) (s t : State), IsOperand r → exec i s = .next t →
    exec i (writeReg r v s) = .next (writeReg r v t)

/-- The block never writes an operand register, its latched copy, CMD, or anything of the host's side. -/
def Obligations.InstructionsLeaveOperandsAlone : Prop :=
  ∀ (i : Instr) (s t : State), exec i s = .next t →
    t.regs = s.regs ∧ t.latch = s.latch ∧ t.cmd = s.cmd ∧ t.inputs = s.inputs ∧ t.hostData = s.hostData ∧
    t.mem.size = s.mem.size

/-- The bits of STATUS. -/
def Obligations.StatusWordHasTheFieldsOfR24 : Prop :=
  ∀ (st : Status) (k : Nat),
    (statusWord st).getLsbD k =
      if k = 0 then st.busy else if k = 1 then st.done else if k = 2 then st.err
      else if 4 ≤ k ∧ k ≤ 7 then st.cause.getLsbD (k - 4) else false

/-- Raising a fault sets ERR, records the first fault's code, clears BUSY, sets DONE, and changes nothing else but the
sequencer's place. -/
def Obligations.RaiseRecordsTheFirstFault : Prop :=
  ∀ (f : FaultKind) (s : State),
    raise f s =
      { s with
        status :=
          { busy := false, done := true, err := true,
            cause := if s.status.err = true then s.status.cause else BitVec.ofNat 4 (codeOf f) }
        seq := .command }

/-- Every command, whatever its operands and memory, completes in one execution: BUSY 0, DONE 1; without a fault ERR and
CAUSE are as before. -/
def Obligations.EveryCommandCompletes : Prop :=
  ∀ (i : Instr) (s : State), i.isStream = false →
    ∃ t, exec i s = .next t ∧ t.status.busy = false ∧ t.status.done = true ∧ t.seq = .command ∧
      (s.status.err = true → t.status.err = true ∧ t.status.cause = s.status.cause) ∧
      (t.status.err = false → t.status.cause = s.status.cause)

/-- After a fault nothing but reset makes the block do anything: over any run with no reset among the host's moves,
STATUS, CMD and the result registers keep their values, and every byte of M that the host does not itself write keeps
its value. -/
def Obligations.FaultStopsTheBlockUntilReset : Prop :=
  ∀ (k : Nat) (s t : State), s.status.busy = false → s.status.err = true → Input.reset ∉ s.inputs →
    Host.Core.run Sys2Proof.core k s = .next t →
      t.status = s.status ∧ t.cmd = s.cmd ∧ t.produced = s.produced ∧ t.consumed = s.consumed ∧
      t.result = s.result ∧ (∀ a, (∀ b, Input.writeMem a b ∉ s.inputs) → t.mem.read a = s.mem.read a) ∧
      ((∀ a b, Input.writeMem a b ∉ s.inputs) → t.mem = s.mem)

/-- A host write to CMD, while BUSY = 0 and ERR = 0, of a code that names no command: the write issues it, and at its
turn it completes at once with IllegalCommand, M untouched and the result registers as issue cleared them. -/
def Obligations.UnassignedCodeIsIllegalCommand : Prop :=
  ∀ (s : State) (c : Word), s.inputs = [.writeReg .cmd c] → s.status.busy = false → s.status.err = false →
    c.toNat ∉ [0x01, 0x02, 0x10, 0x11, 0x12, 0x13, 0x20, 0x21, 0x22, 0x23] →
      ∃ u, step s = .next u ∧
        step u = .next (raise .illegalCommand
          { s with
            cmd := c
            latch := s.regs
            produced := 0#32
            consumed := 0#32
            result := 0#32
            pc := 0
            q := 0
            seq := .command
            status := { s.status with busy := true, done := false }
            inputs := [] })

/-- Every issued code, whether or not it names a command, is done after the write and one turn of the sequencer. -/
def Obligations.IssuedCodeIsDoneAfterOneTurn : Prop :=
  ∀ (s : State) (c : Word), s.inputs = [.writeReg .cmd c] → s.status.busy = false → s.status.err = false →
    ∃ t, Host.Core.run Sys2Proof.core 2 s = .next t ∧ t.status.busy = false ∧ t.status.done = true ∧ t.cmd = c

/-- The host's moves on M: while BUSY = 0 a write changes the byte and no other, a read returns it, and a read of any byte,
one a command wrote among them (20_memory.md R77), returns that byte and changes nothing else; an address of MEMSIZE or
more does not exist; while BUSY = 1 the model stops. MODEL'S CHOICE: where the value goes (log 7), the two stops (logs 8
and 9), and that an access once BUSY is 0 takes effect whether or not the host has read STATUS with DONE = 1, which R76
leaves undefined where it has not (log 21). -/
def Obligations.HostReachesMemoryOnlyWhileIdle : Prop :=
  ∀ (s : State) (a : Nat) (b : Byte),
    (s.status.busy = true → turn (.writeMem a b) s = .fault .hostAccessWhileBusy ∧
      turn (.readMem a) s = .fault .hostAccessWhileBusy) ∧
    (s.status.busy = false → a < s.mem.size → ∃ m', turn (.writeMem a b) s = .next { s with mem := m' } ∧
      m'.read a = some b ∧ SameOutside s.mem m' a 1 ∧
      turn (.readMem a) { s with mem := m' } =
        .next { s with mem := m', hostData := BitVec.ofNat 32 b.toNat }) ∧
    (s.status.busy = false → s.mem.read a = some b →
      turn (.readMem a) s = .next { s with hostData := BitVec.ofNat 32 b.toNat }) ∧
    (s.status.busy = false → s.mem.size ≤ a → turn (.writeMem a b) s = .fault .hostAddressAbsent ∧
      turn (.readMem a) s = .fault .hostAddressAbsent)

/-! ### Encoding -/

/-- Words written out from the encodings of R99 and R104 decode to the instructions they stand for. -/
def Obligations.WrittenOutCodesDecode : Prop :=
  decodeTableWord 8 0b00000010 = some (.lit 2#7) ∧ decodeTableWord 8 0b01111111 = some (.lit 127#7) ∧
  decodeTableWord 8 0b10000000 = some .nop ∧ decodeTableWord 8 0b10000001 = some (.rep 1#7) ∧
  decodeTableWord 8 0b11111110 = some (.rep 126#7) ∧ decodeTableWord 32 0x00000001 = some .pbdec ∧
  decodeTableWord 32 0x00000010 = some .deint ∧ decodeTableWord 32 0x00000023 = some .paldet ∧
  decodeTableWord 32 0x00000003 = none ∧ decodeTableWord 32 0x00000101 = none

/-- Decoding the code of a well-formed instruction gives the instruction back, and a code that decodes is the code of
what it decodes to: every control byte and every command code has one meaning. -/
def Obligations.DecodeAndEncodeAgree : Prop :=
  (∀ i : Instr, i.wf = true → decode (encode i) = .ok i) ∧
  (∀ (c : Code) (i : Instr), decode c = .ok i → i.wf = true ∧ encode i = c)

/-- R91, R96: every control byte is exactly one of LIT, NOP, REP, with the count of R96 in both its forms. -/
def Obligations.ControlBytesPartition : Prop :=
  ∀ c : Byte,
    (0 ≤ sext8 c ∨ sext8 c = -128 ∨ (-127 ≤ sext8 c ∧ sext8 c ≤ -1)) ∧
    (0 ≤ sext8 c → ∃ n, decode (.control c) = .ok (.lit n) ∧ (litCount n : Int) = sext8 c + 1 ∧
      litCount n = c.toNat + 1 ∧ 1 ≤ litCount n ∧ litCount n ≤ 128) ∧
    (sext8 c = -128 → decode (.control c) = .ok .nop) ∧
    (-127 ≤ sext8 c → sext8 c ≤ -1 → ∃ m, decode (.control c) = .ok (.rep m) ∧ (repCount m : Int) = -sext8 c + 1 ∧
      repCount m = 257 - c.toNat ∧ 2 ≤ repCount m ∧ repCount m ≤ 128)

/-- A well-formed group laid out as bytes reads back as the same group, whatever bytes follow, and its control byte
decodes to the instruction the group is. -/
def Obligations.GroupBytesReadBack : Prop :=
  ∀ (g : Group) (rest : List Byte), g.wf = true →
    Group.parse (g.assemble ++ rest) = some (g, rest) ∧
    ∃ c operands, g.assemble = c :: operands ∧ decode (.control c) = .ok g.instr ∧ g.instr.wf = true

/-! ### LIT, REP, NOP -/

/-- LIT, at a group boundary (`pc < SRCLEN`, `q ≤ LEN`). A count that passes the row's end raises RowOverrun before
anything is copied. Otherwise the bytes that are there are copied one by one: all of them, or those up to the source's
end. BusError at the first access outside M stops with the counters reached; what the row's bytes then hold is left open
(93_implementation_defined.md U6). -/
def Obligations.LitCopiesItsLiteralBytes : Prop :=
  ∀ (n : BitVec 7) (s : State),
    let k := n.toNat + 1
    let from_ := s.latch.src.toNat + s.pc + 1
    let to_ := s.latch.dst.toNat + s.q
    let avail := min k (s.latch.srclen.toNat - (s.pc + 1))
    s.pc < s.latch.srclen.toNat → s.q ≤ s.latch.len.toNat →
      (s.latch.len.toNat < s.q + k →
        exec (.lit n) s = .next (raise .rowOverrun
          { s with produced := BitVec.ofNat 32 s.q, consumed := BitVec.ofNat 32 s.pc })) ∧
      (s.q + k ≤ s.latch.len.toNat → Apart from_ avail to_ avail → InMem s.mem from_ avail → InMem s.mem to_ avail →
        ∃ m', exec (.lit n) s = .next { s with pc := s.pc + 1 + avail, q := s.q + avail, mem := m' } ∧
          (∀ j, j < avail → m'.read (to_ + j) = s.mem.read (from_ + j)) ∧ SameOutside s.mem m' to_ avail) ∧
      (∀ j, s.q + k ≤ s.latch.len.toNat → j < avail → Apart from_ j to_ j → InMem s.mem from_ j → InMem s.mem to_ j →
        (s.mem.size ≤ from_ + j ∨ s.mem.size ≤ to_ + j) →
        ∃ m', exec (.lit n) s = .next (raise .busError
            { s with pc := s.pc + 1 + j, q := s.q + j, mem := m', produced := BitVec.ofNat 32 (s.q + j),
                     consumed := BitVec.ofNat 32 (s.pc + 1 + j) }) ∧
          SameOutside s.mem m' s.latch.dst.toNat s.latch.len.toNat)

/-- REP, at a group boundary. RowOverrun first; with the value byte missing only the control byte is consumed; else the
value is written `129 - m` times, or BusError at the first access outside M, the row's bytes then left open (U6). -/
def Obligations.RepRepeatsItsValueByte : Prop :=
  ∀ (m : BitVec 7) (s : State),
    let k := 129 - m.toNat
    let from_ := s.latch.src.toNat + s.pc + 1
    let to_ := s.latch.dst.toNat + s.q
    s.pc < s.latch.srclen.toNat → s.q ≤ s.latch.len.toNat →
      (s.latch.len.toNat < s.q + k →
        exec (.rep m) s = .next (raise .rowOverrun
          { s with produced := BitVec.ofNat 32 s.q, consumed := BitVec.ofNat 32 s.pc })) ∧
      (s.q + k ≤ s.latch.len.toNat → s.pc + 1 = s.latch.srclen.toNat →
        exec (.rep m) s = .next { s with pc := s.pc + 1 }) ∧
      (s.q + k ≤ s.latch.len.toNat → s.pc + 1 < s.latch.srclen.toNat → from_ < s.mem.size → InMem s.mem to_ k →
        ∃ m', exec (.rep m) s = .next { s with pc := s.pc + 2, q := s.q + k, mem := m' } ∧
          (∀ j, j < k → m'.read (to_ + j) = s.mem.read from_) ∧ SameOutside s.mem m' to_ k) ∧
      (s.q + k ≤ s.latch.len.toNat → s.pc + 1 < s.latch.srclen.toNat → s.mem.size ≤ from_ →
        ∃ m', exec (.rep m) s = .next (raise .busError
            { s with mem := m', produced := BitVec.ofNat 32 s.q, consumed := BitVec.ofNat 32 s.pc }) ∧
          SameOutside s.mem m' s.latch.dst.toNat s.latch.len.toNat) ∧
      (∀ j, s.q + k ≤ s.latch.len.toNat → s.pc + 1 < s.latch.srclen.toNat → from_ < s.mem.size → j < k →
        InMem s.mem to_ j → s.mem.size ≤ to_ + j →
        ∃ m', exec (.rep m) s = .next (raise .busError
            { s with q := s.q + j, mem := m', produced := BitVec.ofNat 32 (s.q + j),
                     consumed := BitVec.ofNat 32 s.pc }) ∧
          SameOutside s.mem m' s.latch.dst.toNat s.latch.len.toNat)

/-- NOP consumes its byte and does nothing else. -/
def Obligations.NopConsumesOneByte : Prop := ∀ s : State, exec .nop s = .next { s with pc := s.pc + 1 }

/-! ### PBDEC -/

/-- PBDEC on a stream that begins with whole groups whose outputs make up exactly the row: the row is written, PRODUCED
is LEN, CONSUMED the sum of the groups' lengths, whatever bytes follow the groups. -/
def Obligations.PbdecDecodesTheGroupsOfARow : Prop :=
  ∀ (s : State) (gs : List Group), (∀ g ∈ gs, g.wf = true) → FetchesAll gs s.latch.len.toNat →
    (outputAll gs).length = s.latch.len.toNat → (assembleAll gs).length ≤ s.latch.srclen.toNat →
    Apart s.latch.src.toNat s.latch.srclen.toNat s.latch.dst.toNat s.latch.len.toNat →
    Holds s.mem s.latch.src.toNat (assembleAll gs) → InMem s.mem s.latch.dst.toNat s.latch.len.toNat →
      ∃ m', exec .pbdec s = .next (complete
          { s with pc := (assembleAll gs).length, q := s.latch.len.toNat, mem := m', produced := s.latch.len,
                   consumed := BitVec.ofNat 32 (assembleAll gs).length }) ∧
        Holds m' s.latch.dst.toNat (outputAll gs) ∧
        SameOutside s.mem m' s.latch.dst.toNat s.latch.len.toNat

/-- PBDEC on a source that runs out before the row is full, between two groups or inside one: the bytes there are
written and TruncatedData is raised; the rest of the row is not written. -/
def Obligations.PbdecRaisesTruncatedData : Prop :=
  ∀ (s : State) (gs : List Group) (tail extra : List Byte) (count : Nat), (∀ g ∈ gs, g.wf = true) →
    CutGroup tail extra count → (outputAll gs).length + count ≤ s.latch.len.toNat →
    (outputAll gs ++ extra).length < s.latch.len.toNat →
    (assembleAll gs ++ tail).length = s.latch.srclen.toNat →
    Apart s.latch.src.toNat s.latch.srclen.toNat s.latch.dst.toNat s.latch.len.toNat →
    Holds s.mem s.latch.src.toNat (assembleAll gs ++ tail) →
    InMem s.mem s.latch.dst.toNat (outputAll gs ++ extra).length →
      ∃ m', exec .pbdec s = .next (raise .truncatedData
          { s with pc := s.latch.srclen.toNat, q := (outputAll gs ++ extra).length, mem := m',
                   produced := BitVec.ofNat 32 (outputAll gs ++ extra).length, consumed := s.latch.srclen }) ∧
        Holds m' s.latch.dst.toNat (outputAll gs ++ extra) ∧
        SameOutside s.mem m' s.latch.dst.toNat (outputAll gs ++ extra).length

/-- PBDEC on a group whose count would pass the row's end: RowOverrun, with exactly the bytes of the earlier groups
written, PRODUCED their number and CONSUMED the offset of the offending control byte; also where the source is too short
for that group. -/
def Obligations.PbdecRaisesRowOverrun : Prop :=
  ∀ (s : State) (gs : List Group) (g : Group) (c : Byte), (∀ g' ∈ gs, g'.wf = true) → g.wf = true →
    g.assemble.head? = some c → (outputAll gs).length < s.latch.len.toNat →
    s.latch.len.toNat < (outputAll gs ++ g.output).length → (assembleAll gs).length < s.latch.srclen.toNat →
    Apart s.latch.src.toNat s.latch.srclen.toNat s.latch.dst.toNat s.latch.len.toNat →
    Holds s.mem s.latch.src.toNat (assembleAll gs ++ [c]) → InMem s.mem s.latch.dst.toNat (outputAll gs).length →
      ∃ m', exec .pbdec s = .next (raise .rowOverrun
          { s with pc := (assembleAll gs).length, q := (outputAll gs).length, mem := m',
                   produced := BitVec.ofNat 32 (outputAll gs).length,
                   consumed := BitVec.ofNat 32 (assembleAll gs).length }) ∧
        Holds m' s.latch.dst.toNat (outputAll gs) ∧
        SameOutside s.mem m' s.latch.dst.toNat (outputAll gs).length

/-- PBDEC whose first access outside M comes after the whole groups `gs`: BusError, with PRODUCED and CONSUMED the q and pc
reached, whether that access is the fetch of a control byte, access number `j` of a LIT, the value byte of a REP, or
write number `j` of a REP. -/
def Obligations.PbdecRaisesBusError : Prop :=
  ∀ (s : State) (gs : List Group), (∀ g ∈ gs, g.wf = true) → (outputAll gs).length < s.latch.len.toNat →
    (assembleAll gs).length < s.latch.srclen.toNat →
    Apart s.latch.src.toNat s.latch.srclen.toNat s.latch.dst.toNat s.latch.len.toNat →
    Holds s.mem s.latch.src.toNat (assembleAll gs) → InMem s.mem s.latch.dst.toNat (outputAll gs).length →
      let pc := (assembleAll gs).length
      let q := (outputAll gs).length
      let from_ := s.latch.src.toNat + pc
      let to_ := s.latch.dst.toNat + q
      (s.mem.size ≤ from_ → PbdecBusErrors s pc q) ∧
      (∀ (c : Byte) (n : BitVec 7) (j : Nat), s.mem.read from_ = some c → decode (.control c) = .ok (.lit n) →
        q + (n.toNat + 1) ≤ s.latch.len.toNat → j < n.toNat + 1 → pc + 1 + j < s.latch.srclen.toNat →
        InMem s.mem (from_ + 1) j → InMem s.mem to_ j → (s.mem.size ≤ from_ + 1 + j ∨ s.mem.size ≤ to_ + j) →
          PbdecBusErrors s (pc + 1 + j) (q + j)) ∧
      (∀ (c : Byte) (m : BitVec 7), s.mem.read from_ = some c → decode (.control c) = .ok (.rep m) →
        q + (129 - m.toNat) ≤ s.latch.len.toNat → pc + 1 < s.latch.srclen.toNat →
          (s.mem.size ≤ from_ + 1 → PbdecBusErrors s pc q) ∧
          (∀ j, from_ + 1 < s.mem.size → j < 129 - m.toNat → InMem s.mem to_ j → s.mem.size ≤ to_ + j →
            PbdecBusErrors s pc (q + j)))

/-- However PBDEC ends, PRODUCED and CONSUMED hold the q and pc it reached, 0 and 0 on BadParam; without a fault it has
produced exactly LEN bytes. -/
def Obligations.PbdecReportsWhatItReached : Prop :=
  ∀ s t : State, exec .pbdec s = .next t →
    (BadParamRow .pbdec s.latch → t = raise .badParam { s with produced := 0#32, consumed := 0#32 }) ∧
    (¬ BadParamRow .pbdec s.latch → t.produced.toNat = t.q ∧ t.consumed.toNat = t.pc ∧
      t.q ≤ s.latch.len.toNat ∧ t.pc ≤ s.latch.srclen.toNat ∧ (t.status.err = false → t.produced = s.latch.len))

/-- PBDEC taken group by group, each LIT, REP and NOP a step of its own, reaches the very state that the whole command
reaches in one step. -/
def Obligations.PbdecGroupByGroupIsTheWholeCommand : Prop :=
  ∀ s : State, s.inputs = [] → s.status.busy = true → s.seq = .command → s.cmd = 0x01#32 →
    ∃ k, Host.Core.run Sys2Proof.core k ({ s with inputs := [.runGroups] } : State) = step s

/-! ### PBENC -/

/-- PBENC writes the encoded row of R152; BadParam where its extents intersect (R153). -/
def Obligations.PbencWritesTheEncodedRow : Prop :=
  ∀ (s : State), s.mem.size ≤ 4294967296 →
    (BadParamRow .pbenc s.latch → BadParams .pbenc s) ∧
    (∀ X : List Byte, X.length = s.latch.srclen.toNat → Holds s.mem s.latch.src.toNat X →
      Apart s.latch.src.toNat X.length s.latch.dst.toNat (X.length + X.length / 128 + 1) →
      InMem s.mem s.latch.dst.toNat (encodedRow X).length →
        ∃ m', exec .pbenc s = .next (complete
            { s with mem := m', produced := BitVec.ofNat 32 (encodedRow X).length, consumed := s.latch.srclen }) ∧
          Holds m' s.latch.dst.toNat (encodedRow X) ∧
          SameOutside s.mem m' s.latch.dst.toNat (encodedRow X).length)

/-- What PBENC writes is a sequence of whole groups, none of them one that R156 rules out, whose outputs are the row,
and no longer than the bound of R154. -/
def Obligations.PbencEmitsGroupsOfTheRow : Prop :=
  ∀ (s t : State) (X : List Byte), s.mem.size ≤ 4294967296 → X.length = s.latch.srclen.toNat →
    Holds s.mem s.latch.src.toNat X → exec .pbenc s = .next t → t.status.err = false →
      ∃ gs : List Group, (∀ g ∈ gs, Emittable g) ∧ outputAll gs = X ∧
        Holds t.mem s.latch.dst.toNat (assembleAll gs) ∧ t.produced.toNat = (assembleAll gs).length ∧
        t.produced.toNat ≤ X.length + X.length / 128 + 1

/-- PBENC ends in BusError where its row does not lie inside M, and where its output does not. -/
def Obligations.PbencRaisesBusError : Prop :=
  ∀ s : State, Apart s.latch.src.toNat s.latch.srclen.toNat s.latch.dst.toNat
      (s.latch.srclen.toNat + s.latch.srclen.toNat / 128 + 1) →
    (¬ InMem s.mem s.latch.src.toNat s.latch.srclen.toNat →
      BusErrors .pbenc s s.latch.dst.toNat (s.latch.srclen.toNat + s.latch.srclen.toNat / 128 + 1)) ∧
    (∀ X : List Byte, X.length = s.latch.srclen.toNat → Holds s.mem s.latch.src.toNat X →
      ¬ InMem s.mem s.latch.dst.toNat (encodedRow X).length →
      BusErrors .pbenc s s.latch.dst.toNat (s.latch.srclen.toNat + s.latch.srclen.toNat / 128 + 1))

/-- PBDEC undoes PBENC: given PBENC's output as its source and the row's length as LEN, it writes the row again, with
PRODUCED the row's length and CONSUMED the output's, and no fault. -/
def Obligations.PbdecUndoesPbenc : Prop :=
  ∀ s t u : State, s.mem.size ≤ 4294967296 → exec .pbenc s = .next t → t.status.err = false →
    u.mem = t.mem → u.latch.src = s.latch.dst → u.latch.srclen = t.produced → u.latch.len = s.latch.srclen →
    Apart u.latch.src.toNat u.latch.srclen.toNat u.latch.dst.toNat u.latch.len.toNat →
    InMem u.mem u.latch.dst.toNat u.latch.len.toNat →
      ∃ m', exec .pbdec u = .next (complete
          { u with pc := t.produced.toNat, q := s.latch.srclen.toNat, mem := m', produced := s.latch.srclen,
                   consumed := t.produced }) ∧
        (∀ j, j < s.latch.srclen.toNat →
          m'.read (u.latch.dst.toNat + j) = s.mem.read (s.latch.src.toNat + j)) ∧
        SameOutside u.mem m' u.latch.dst.toNat u.latch.len.toNat

/-! ### Plane layout -/

/-- DEINT. -/
def Obligations.DeintReblocksToPlaneMajor : Prop :=
  ∀ s : State, s.mem.size ≤ 4294967296 →
    let o := s.latch
    let rb := rowBytesOf o.width.toNat
    (¬ ReblockLegal o → BadParams .deint s) ∧
    (ReblockLegal o → o.src.toNat + planesIn o ≤ s.mem.size → o.dst.toNat + planesOut o ≤ s.mem.size →
      ∃ m', exec .deint s = .next (complete
          { s with mem := m', produced := BitVec.ofNat 32 (planesOut o), consumed := BitVec.ofNat 32 (planesIn o) }) ∧
        (∀ y p k, y < o.height.toNat → p < o.nplanes.toNat → k < rb →
          m'.read (o.dst.toNat + ((p * o.height.toNat + y) * rb + k)) =
            if k < o.srb.toNat then s.mem.read (o.src.toNat + ((y * o.nplanes.toNat + p) * o.srb.toNat + k))
            else some 0#8) ∧
        SameOutside s.mem m' o.dst.toNat (planesOut o)) ∧
    (ReblockLegal o → (s.mem.size < o.src.toNat + planesIn o ∨ s.mem.size < o.dst.toNat + planesOut o) →
      BusErrors .deint s o.dst.toNat (planesOut o))

/-- INTLV. -/
def Obligations.IntlvReblocksToInterleaved : Prop :=
  ∀ s : State, s.mem.size ≤ 4294967296 →
    let o := s.latch
    let rb := rowBytesOf o.width.toNat
    (¬ ReblockLegal o → BadParams .intlv s) ∧
    (ReblockLegal o → o.src.toNat + planesIn o ≤ s.mem.size → o.dst.toNat + planesOut o ≤ s.mem.size →
      ∃ m', exec .intlv s = .next (complete
          { s with mem := m', produced := BitVec.ofNat 32 (planesOut o), consumed := BitVec.ofNat 32 (planesIn o) }) ∧
        (∀ y p k, y < o.height.toNat → p < o.nplanes.toNat → k < rb →
          m'.read (o.dst.toNat + ((y * o.nplanes.toNat + p) * rb + k)) =
            if k < o.srb.toNat then s.mem.read (o.src.toNat + ((p * o.height.toNat + y) * o.srb.toNat + k))
            else some 0#8) ∧
        SameOutside s.mem m' o.dst.toNat (planesOut o)) ∧
    (ReblockLegal o → (s.mem.size < o.src.toNat + planesIn o ∨ s.mem.size < o.dst.toNat + planesOut o) →
      BusErrors .intlv s o.dst.toNat (planesOut o))

/-- TRANSP. A count of output bytes of 2^32 does not fit PRODUCED and is left open (log 12). -/
def Obligations.TranspTransposesByteColumns : Prop :=
  ∀ s : State, s.mem.size ≤ 4294967296 →
    let o := s.latch
    let cw := o.colw.toNat
    let r := o.rows.toNat
    let c := o.cols.toNat
    let db := o.drb.toNat
    (¬ TransposeLegal o → BadParams .transp s) ∧
    (TransposeLegal o → InMem s.mem o.src.toNat (c * r * cw) → InMem s.mem o.dst.toNat (r * db) →
      ∃ m' p, exec .transp s = .next (complete
          { s with mem := m', produced := p, consumed := BitVec.ofNat 32 (c * r * cw) }) ∧
        (r * db < 4294967296 → p = BitVec.ofNat 32 (r * db)) ∧
        (∀ y i k, y < r → i < c → k < cw →
          m'.read (o.dst.toNat + (y * db + i * cw + k)) = s.mem.read (o.src.toNat + ((i * r + y) * cw + k))) ∧
        (∀ y k, y < r → c * cw ≤ k → k < db → m'.read (o.dst.toNat + (y * db + k)) = some 0#8) ∧
        SameOutside s.mem m' o.dst.toNat (r * db)) ∧
    (TransposeLegal o → (¬ InMem s.mem o.src.toNat (c * r * cw) ∨ ¬ InMem s.mem o.dst.toNat (r * db)) →
      BusErrors .transp s o.dst.toNat (r * db))

/-- CHUNKY: every bit of every surface byte, with and without bit doubling, from either layout. -/
def Obligations.ChunkyGathersThePixels : Prop :=
  ∀ s : State, s.mem.size ≤ 4294967296 →
    let o := s.latch
    let ilv := o.flags.getLsbD 1
    let dbl := o.flags.getLsbD 0
    (¬ ChunkyLegal o → BadParams .chunky s) ∧
    (ChunkyLegal o → chunkyLastRead o < s.mem.size → o.dst.toNat + o.width.toNat * o.height.toNat ≤ s.mem.size →
      ∃ m', exec .chunky s = .next (complete
          { s with mem := m', produced := BitVec.ofNat 32 (o.width.toNat * o.height.toNat),
                   consumed := BitVec.ofNat 32 (planesIn o) }) ∧
        (∀ x y, x < o.width.toNat → y < o.height.toNat →
          ∃ v : Byte, m'.read (o.dst.toNat + (y * o.width.toNat + x)) = some v ∧
            ∀ j, j < 8 → v.getLsbD j = if dbl then pixelBit o s.mem ilv (j / 2) x y else pixelBit o s.mem ilv j x y) ∧
        SameOutside s.mem m' o.dst.toNat (o.width.toNat * o.height.toNat)) ∧
    (ChunkyLegal o →
      (s.mem.size ≤ chunkyLastRead o ∨ s.mem.size < o.dst.toNat + o.width.toNat * o.height.toNat) →
      BusErrors .chunky s o.dst.toNat (o.width.toNat * o.height.toNat))

/-- INTLV after DEINT, and DEINT after INTLV, on a padded intermediate buffer, give the first source again with its rows
zero-extended to rowBytes: byte for byte the same buffer where SRB is rowBytes. -/
def Obligations.IntlvAndDeintUndoEachOther : Prop :=
  ∀ (i i' : Instr) (s t u : State), (i = .deint ∧ i' = .intlv) ∨ (i = .intlv ∧ i' = .deint) →
    s.mem.size ≤ 4294967296 → exec i s = .next t → t.status.err = false →
    u.mem = t.mem → u.latch.src = s.latch.dst → u.latch.width = s.latch.width → u.latch.height = s.latch.height →
    u.latch.nplanes = s.latch.nplanes → u.latch.srb.toNat = rowBytesOf s.latch.width.toNat →
    Apart u.latch.src.toNat (planesIn u.latch) u.latch.dst.toNat (planesOut u.latch) →
    u.latch.dst.toNat + planesOut u.latch ≤ u.mem.size →
      ∃ m', exec i' u = .next (complete
          { u with mem := m', produced := BitVec.ofNat 32 (planesOut s.latch),
                   consumed := BitVec.ofNat 32 (planesOut s.latch) }) ∧
        ∀ row k, row < s.latch.nplanes.toNat * s.latch.height.toNat → k < rowBytesOf s.latch.width.toNat →
          m'.read (u.latch.dst.toNat + (row * rowBytesOf s.latch.width.toNat + k)) =
            if k < s.latch.srb.toNat then s.mem.read (s.latch.src.toNat + (row * s.latch.srb.toNat + k))
            else some 0#8

/-- TRANSP with no padding, then TRANSP on its output with ROWS and COLS exchanged, gives the first source again. -/
def Obligations.TranspIsSelfInverse : Prop :=
  ∀ s t u : State, s.mem.size ≤ 4294967296 → s.latch.drb.toNat = s.latch.cols.toNat * s.latch.colw.toNat →
    exec .transp s = .next t → t.status.err = false →
    u.mem = t.mem → u.latch.src = s.latch.dst → u.latch.colw = s.latch.colw → u.latch.rows = s.latch.cols →
    u.latch.cols = s.latch.rows → u.latch.drb.toNat = s.latch.rows.toNat * s.latch.colw.toNat →
    Apart u.latch.src.toNat (s.latch.cols.toNat * s.latch.rows.toNat * s.latch.colw.toNat) u.latch.dst.toNat
      (s.latch.cols.toNat * s.latch.rows.toNat * s.latch.colw.toNat) →
    InMem u.mem u.latch.dst.toNat (s.latch.cols.toNat * s.latch.rows.toNat * s.latch.colw.toNat) →
      ∃ v, exec .transp u = .next v ∧ v.status.err = u.status.err ∧
        ∀ j, j < s.latch.cols.toNat * s.latch.rows.toNat * s.latch.colw.toNat →
          v.mem.read (u.latch.dst.toNat + j) = s.mem.read (s.latch.src.toNat + j)

/-- CHUNKY on an interleaved buffer and CHUNKY on its DEINT image (ILV = 0, padded rows) write the same surface. -/
def Obligations.ChunkySurfaceIsLayoutIndependent : Prop :=
  ∀ s t c d u : State, s.mem.size ≤ 4294967296 →
    -- DEINT of the planes at SRC
    exec .deint s = .next t → t.status.err = false →
    -- CHUNKY of the same planes, interleaved
    c.mem = s.mem → c.latch.src = s.latch.src → c.latch.width = s.latch.width → c.latch.height = s.latch.height →
    c.latch.nplanes = s.latch.nplanes → c.latch.srb = s.latch.srb → c.latch.flags.getLsbD 1 = true →
    exec .chunky c = .next d → d.status.err = false →
    -- CHUNKY of DEINT's output, non-interleaved, with the same DBL
    u.mem = t.mem → u.latch.src = s.latch.dst → u.latch.width = s.latch.width → u.latch.height = s.latch.height →
    u.latch.nplanes = s.latch.nplanes → u.latch.srb.toNat = rowBytesOf s.latch.width.toNat →
    u.latch.flags.toNat < 4 → u.latch.flags.getLsbD 1 = false →
    u.latch.flags.getLsbD 0 = c.latch.flags.getLsbD 0 →
    Apart u.latch.src.toNat (planesIn u.latch) u.latch.dst.toNat (s.latch.width.toNat * s.latch.height.toNat) →
    u.latch.dst.toNat + s.latch.width.toNat * s.latch.height.toNat ≤ u.mem.size →
      ∃ v, exec .chunky u = .next v ∧ v.status.err = u.status.err ∧
        ∀ j, j < s.latch.width.toNat * s.latch.height.toNat →
          v.mem.read (u.latch.dst.toNat + j) = d.mem.read (c.latch.dst.toNat + j)

/-! ### Palettes -/

/-- PALDN. -/
def Obligations.PaldnScalesTripletsDown : Prop :=
  ∀ s : State,
    let o := s.latch
    let nc := o.ncolors.toNat
    (BadParamRow .paldn o → BadParams .paldn s) ∧
    (¬ BadParamRow .paldn o → InMem s.mem o.src.toNat (3 * nc) → InMem s.mem o.dst.toNat (2 * nc) →
      ∃ m', exec .paldn s = .next (complete
          { s with mem := m', produced := BitVec.ofNat 32 (2 * nc), consumed := BitVec.ofNat 32 (3 * nc) }) ∧
        (∀ i r g b, i < nc → s.mem.read (o.src.toNat + 3 * i) = some r → s.mem.read (o.src.toNat + 3 * i + 1) = some g →
          s.mem.read (o.src.toNat + 3 * i + 2) = some b →
          m'.read (o.dst.toNat + 2 * i) = some (BitVec.ofNat 8 (r.toNat / 16)) ∧
          m'.read (o.dst.toNat + 2 * i + 1) = some (BitVec.ofNat 8 (g.toNat / 16 * 16 + b.toNat / 16))) ∧
        SameOutside s.mem m' o.dst.toNat (2 * nc)) ∧
    (¬ BadParamRow .paldn o → (¬ InMem s.mem o.src.toNat (3 * nc) ∨ ¬ InMem s.mem o.dst.toNat (2 * nc)) →
      BusErrors .paldn s o.dst.toNat (2 * nc))

/-- PALUP; bits 15:12 of a word are ignored. -/
def Obligations.PalupExpandsColourWords : Prop :=
  ∀ s : State,
    let o := s.latch
    let nc := o.ncolors.toNat
    (BadParamRow .palup o → BadParams .palup s) ∧
    (¬ BadParamRow .palup o → InMem s.mem o.src.toNat (2 * nc) → InMem s.mem o.dst.toNat (3 * nc) →
      ∃ m', exec .palup s = .next (complete
          { s with mem := m', produced := BitVec.ofNat 32 (3 * nc), consumed := BitVec.ofNat 32 (2 * nc) }) ∧
        (∀ i hi lo, i < nc → s.mem.read (o.src.toNat + 2 * i) = some hi → s.mem.read (o.src.toNat + 2 * i + 1) = some lo →
          m'.read (o.dst.toNat + 3 * i) = some (BitVec.ofNat 8 (hi.toNat % 16 * 17)) ∧
          m'.read (o.dst.toNat + 3 * i + 1) = some (BitVec.ofNat 8 (lo.toNat / 16 * 17)) ∧
          m'.read (o.dst.toNat + 3 * i + 2) = some (BitVec.ofNat 8 (lo.toNat % 16 * 17))) ∧
        SameOutside s.mem m' o.dst.toNat (3 * nc)) ∧
    (¬ BadParamRow .palup o → (¬ InMem s.mem o.src.toNat (2 * nc) ∨ ¬ InMem s.mem o.dst.toNat (3 * nc)) →
      BusErrors .palup s o.dst.toNat (3 * nc))

/-- PALDEF: entry 0 black, every other entry white. -/
def Obligations.PaldefWritesTheDefaultPalette : Prop :=
  ∀ s : State,
    let o := s.latch
    let nc := o.ncolors.toNat
    (256 < nc → BadParams .paldef s) ∧
    (nc ≤ 256 → InMem s.mem o.dst.toNat (2 * nc) →
      ∃ m', exec .paldef s = .next (complete
          { s with mem := m', produced := BitVec.ofNat 32 (2 * nc), consumed := 0#32 }) ∧
        (∀ i, i < nc →
          m'.read (o.dst.toNat + 2 * i) = some (if i = 0 then 0x00#8 else 0x0F#8) ∧
          m'.read (o.dst.toNat + 2 * i + 1) = some (if i = 0 then 0x00#8 else 0xFF#8)) ∧
        SameOutside s.mem m' o.dst.toNat (2 * nc)) ∧
    (nc ≤ 256 → ¬ InMem s.mem o.dst.toNat (2 * nc) → BusErrors .paldef s o.dst.toNat (2 * nc))

/-- PALDET: the three verdicts, in the source's order, and BadParam; M is not accessed. -/
def Obligations.PaldetDetectsATrailingPalette : Prop :=
  ∀ s : State,
    let f := s.latch.filelen.toNat
    let p := s.latch.pixlen.toNat
    let nc := s.latch.ncolors.toNat
    (256 < nc → BadParams .paldet s) ∧
    (nc ≤ 256 → f = p + nc * 2 → exec .paldet s = .next (complete { s with result := 1#32 })) ∧
    (nc ≤ 256 → f ≠ p + nc * 2 → f = p → exec .paldet s = .next (complete { s with result := 0#32 })) ∧
    (nc ≤ 256 → f ≠ p + nc * 2 → f ≠ p → exec .paldet s = .next (raise .sizeMismatch s))

/-- The bucket law on one colour, the values it leaves as they are, and the word that comes back. -/
def Obligations.ScalingKeepsTheBucket : Prop :=
  (∀ r g b : Byte, scaleUp (scaleDown r g b) =
    (BitVec.ofNat 8 (17 * (r.toNat / 16)), BitVec.ofNat 8 (17 * (g.toNat / 16)), BitVec.ofNat 8 (17 * (b.toNat / 16)))) ∧
  (∀ r g b : Byte, scaleUp (scaleDown r g b) = (r, g, b) ↔ r.toNat % 17 = 0 ∧ g.toNat % 17 = 0 ∧ b.toNat % 17 = 0) ∧
  (∀ w : BitVec 16, scaleDown (scaleUp w).1 (scaleUp w).2.1 (scaleUp w).2.2 = w &&& 0x0FFF#16)

/-- PALUP on PALDN's output: every channel byte comes back as 17 times its top four bits. -/
def Obligations.PalupAfterPaldnGivesTheBuckets : Prop :=
  ∀ s t u : State, exec .paldn s = .next t → t.status.err = false →
    u.mem = t.mem → u.latch.src = s.latch.dst → u.latch.ncolors = s.latch.ncolors →
    Apart u.latch.src.toNat (2 * s.latch.ncolors.toNat) u.latch.dst.toNat (3 * s.latch.ncolors.toNat) →
    InMem u.mem u.latch.dst.toNat (3 * s.latch.ncolors.toNat) →
      ∃ v, exec .palup u = .next v ∧ v.status.err = u.status.err ∧
        ∀ j c, j < 3 * s.latch.ncolors.toNat → s.mem.read (s.latch.src.toNat + j) = some c →
          v.mem.read (u.latch.dst.toNat + j) = some (BitVec.ofNat 8 (17 * (c.toNat / 16)))

/-! ### Rules over all commands -/

/-- Every command writes only inside its destination extent, however it ends. -/
def Obligations.CommandsWriteOnlyTheirDestination : Prop :=
  ∀ (i : Instr) (s t : State), i.isStream = false → exec i s = .next t →
    SameOutside s.mem t.mem s.latch.dst.toNat (destinationBytes i s.latch)

/-- No command changes a byte of its own source extent. -/
def Obligations.CommandsNeverModifyTheirSource : Prop :=
  ∀ (i : Instr) (s t : State), i.isStream = false → exec i s = .next t →
    ∀ a, s.latch.src.toNat ≤ a → a < s.latch.src.toNat + sourceBytes i s.latch → t.mem.read a = s.mem.read a

/-- A command reads no operand register outside its row: with the others changed it does exactly the same. -/
def Obligations.CommandsReadOnlyTheirOperandRow : Prop :=
  ∀ (i : Instr) (s t : State) (o : Operands), AgreeOnRow i s.latch o → exec i s = .next t →
    exec i { s with latch := o } = .next { t with latch := o }

/-- BadParam is raised exactly under the conditions of the table of R243, and then nothing is read or written. -/
def Obligations.BadParamExactlyByTheTable : Prop :=
  ∀ (i : Instr) (s : State), s.status.err = false →
    ∃ t, exec i s = .next t ∧
      (t.status.err = true ∧ t.status.cause = 4#4 ↔ BadParamRow i s.latch) ∧
      (BadParamRow i s.latch → t.mem = s.mem)

/-- What a command does depends on its operands and its source bytes only: from a state that differs in other bytes of M
alone it ends the same way, with the same counts and cursors; and, unless BusError left the destination open (the draw
counter moved, log 10), every byte is the same as in the first run's end or untouched in both. In particular a command
issued again on its own result does the same again. -/
def Obligations.CommandsDependOnlyOnOperandsAndSource : Prop :=
  ∀ (i : Instr) (s t : State) (m : Memory), i.isStream = false → exec i s = .next t → m.size = s.mem.size →
    (∀ a, s.latch.src.toNat ≤ a → a < s.latch.src.toNat + sourceBytes i s.latch → m.read a = s.mem.read a) →
      ∃ m', exec i { s with mem := m } = .next { t with mem := m' } ∧
        (t.mem.draws = s.mem.draws → m'.draws = m.draws ∧
          ∀ a, m'.read a = t.mem.read a ∨ (t.mem.read a = s.mem.read a ∧ m'.read a = m.read a)) ∧
        (t.mem.draws ≠ s.mem.draws → t.status.err = true ∧ (s.status.err = false → t.status.cause = 6#4))
end

