-- ==== Sys2Proof/Laws/State.lean ====
section
/-! SUPPORT. One lemma per field of State per named update, true by rfl, so that no later proof unfolds an update. -/

namespace Sys2Proof.Machine

@[simp] theorem complete_cmd (s : State) : (complete s).cmd = s.cmd := rfl
@[simp] theorem complete_status (s : State) : (complete s).status = { s.status with busy := false, done := true } := rfl
@[simp] theorem complete_regs (s : State) : (complete s).regs = s.regs := rfl
@[simp] theorem complete_produced (s : State) : (complete s).produced = s.produced := rfl
@[simp] theorem complete_consumed (s : State) : (complete s).consumed = s.consumed := rfl
@[simp] theorem complete_result (s : State) : (complete s).result = s.result := rfl
@[simp] theorem complete_latch (s : State) : (complete s).latch = s.latch := rfl
@[simp] theorem complete_pc (s : State) : (complete s).pc = s.pc := rfl
@[simp] theorem complete_q (s : State) : (complete s).q = s.q := rfl
@[simp] theorem complete_seq (s : State) : (complete s).seq = .command := rfl
@[simp] theorem complete_mem (s : State) : (complete s).mem = s.mem := rfl
@[simp] theorem complete_inputs (s : State) : (complete s).inputs = s.inputs := rfl
@[simp] theorem complete_hostData (s : State) : (complete s).hostData = s.hostData := rfl

@[simp] theorem raise_cmd (f : FaultKind) (s : State) : (raise f s).cmd = s.cmd := rfl
@[simp] theorem raise_status (f : FaultKind) (s : State) : (raise f s).status = { recordFault f s.status with busy := false, done := true } := rfl
@[simp] theorem raise_regs (f : FaultKind) (s : State) : (raise f s).regs = s.regs := rfl
@[simp] theorem raise_produced (f : FaultKind) (s : State) : (raise f s).produced = s.produced := rfl
@[simp] theorem raise_consumed (f : FaultKind) (s : State) : (raise f s).consumed = s.consumed := rfl
@[simp] theorem raise_result (f : FaultKind) (s : State) : (raise f s).result = s.result := rfl
@[simp] theorem raise_latch (f : FaultKind) (s : State) : (raise f s).latch = s.latch := rfl
@[simp] theorem raise_pc (f : FaultKind) (s : State) : (raise f s).pc = s.pc := rfl
@[simp] theorem raise_q (f : FaultKind) (s : State) : (raise f s).q = s.q := rfl
@[simp] theorem raise_seq (f : FaultKind) (s : State) : (raise f s).seq = .command := rfl
@[simp] theorem raise_mem (f : FaultKind) (s : State) : (raise f s).mem = s.mem := rfl
@[simp] theorem raise_inputs (f : FaultKind) (s : State) : (raise f s).inputs = s.inputs := rfl
@[simp] theorem raise_hostData (f : FaultKind) (s : State) : (raise f s).hostData = s.hostData := rfl

@[simp] theorem issue_cmd (c : Word) (s : State) : (issue c s).cmd = c := rfl
@[simp] theorem issue_status (c : Word) (s : State) : (issue c s).status = { s.status with busy := true, done := false } := rfl
@[simp] theorem issue_regs (c : Word) (s : State) : (issue c s).regs = s.regs := rfl
@[simp] theorem issue_produced (c : Word) (s : State) : (issue c s).produced = 0#32 := rfl
@[simp] theorem issue_consumed (c : Word) (s : State) : (issue c s).consumed = 0#32 := rfl
@[simp] theorem issue_result (c : Word) (s : State) : (issue c s).result = 0#32 := rfl
@[simp] theorem issue_latch (c : Word) (s : State) : (issue c s).latch = s.regs := rfl
@[simp] theorem issue_pc (c : Word) (s : State) : (issue c s).pc = 0 := rfl
@[simp] theorem issue_q (c : Word) (s : State) : (issue c s).q = 0 := rfl
@[simp] theorem issue_seq (c : Word) (s : State) : (issue c s).seq = .command := rfl
@[simp] theorem issue_mem (c : Word) (s : State) : (issue c s).mem = s.mem := rfl
@[simp] theorem issue_inputs (c : Word) (s : State) : (issue c s).inputs = s.inputs := rfl
@[simp] theorem issue_hostData (c : Word) (s : State) : (issue c s).hostData = s.hostData := rfl

@[simp] theorem assertReset_cmd (s : State) : (assertReset s).cmd = 0#32 := rfl
@[simp] theorem assertReset_status (s : State) : (assertReset s).status = State.reset.status := rfl
@[simp] theorem assertReset_regs (s : State) : (assertReset s).regs = Operands.zero := rfl
@[simp] theorem assertReset_produced (s : State) : (assertReset s).produced = 0#32 := rfl
@[simp] theorem assertReset_consumed (s : State) : (assertReset s).consumed = 0#32 := rfl
@[simp] theorem assertReset_result (s : State) : (assertReset s).result = 0#32 := rfl
@[simp] theorem assertReset_latch (s : State) : (assertReset s).latch = Operands.zero := rfl
@[simp] theorem assertReset_pc (s : State) : (assertReset s).pc = 0 := rfl
@[simp] theorem assertReset_q (s : State) : (assertReset s).q = 0 := rfl
@[simp] theorem assertReset_seq (s : State) : (assertReset s).seq = .command := rfl
@[simp] theorem assertReset_mem (s : State) : (assertReset s).mem = { size := s.mem.size, epoch := s.mem.epoch + 1, draws := s.mem.draws, cells := [] } := rfl
@[simp] theorem assertReset_inputs (s : State) : (assertReset s).inputs = s.inputs := rfl
@[simp] theorem assertReset_hostData (s : State) : (assertReset s).hostData = s.hostData := rfl

@[simp] theorem State.withCursor_cmd (s : State) (c : Cursor) : (s.withCursor c).cmd = s.cmd := rfl
@[simp] theorem State.withCursor_status (s : State) (c : Cursor) : (s.withCursor c).status = s.status := rfl
@[simp] theorem State.withCursor_regs (s : State) (c : Cursor) : (s.withCursor c).regs = s.regs := rfl
@[simp] theorem State.withCursor_produced (s : State) (c : Cursor) : (s.withCursor c).produced = s.produced := rfl
@[simp] theorem State.withCursor_consumed (s : State) (c : Cursor) : (s.withCursor c).consumed = s.consumed := rfl
@[simp] theorem State.withCursor_result (s : State) (c : Cursor) : (s.withCursor c).result = s.result := rfl
@[simp] theorem State.withCursor_latch (s : State) (c : Cursor) : (s.withCursor c).latch = s.latch := rfl
@[simp] theorem State.withCursor_pc (s : State) (c : Cursor) : (s.withCursor c).pc = c.pc := rfl
@[simp] theorem State.withCursor_q (s : State) (c : Cursor) : (s.withCursor c).q = c.q := rfl
@[simp] theorem State.withCursor_seq (s : State) (c : Cursor) : (s.withCursor c).seq = s.seq := rfl
@[simp] theorem State.withCursor_mem (s : State) (c : Cursor) : (s.withCursor c).mem = c.mem := rfl
@[simp] theorem State.withCursor_inputs (s : State) (c : Cursor) : (s.withCursor c).inputs = s.inputs := rfl
@[simp] theorem State.withCursor_hostData (s : State) (c : Cursor) : (s.withCursor c).hostData = s.hostData := rfl

@[simp] theorem writeCounts_cmd (s : State) : (writeCounts s).cmd = s.cmd := rfl
@[simp] theorem writeCounts_status (s : State) : (writeCounts s).status = s.status := rfl
@[simp] theorem writeCounts_regs (s : State) : (writeCounts s).regs = s.regs := rfl
@[simp] theorem writeCounts_produced (s : State) : (writeCounts s).produced = countWord s.q := rfl
@[simp] theorem writeCounts_consumed (s : State) : (writeCounts s).consumed = countWord s.pc := rfl
@[simp] theorem writeCounts_result (s : State) : (writeCounts s).result = s.result := rfl
@[simp] theorem writeCounts_latch (s : State) : (writeCounts s).latch = s.latch := rfl
@[simp] theorem writeCounts_pc (s : State) : (writeCounts s).pc = s.pc := rfl
@[simp] theorem writeCounts_q (s : State) : (writeCounts s).q = s.q := rfl
@[simp] theorem writeCounts_seq (s : State) : (writeCounts s).seq = s.seq := rfl
@[simp] theorem writeCounts_mem (s : State) : (writeCounts s).mem = s.mem := rfl
@[simp] theorem writeCounts_inputs (s : State) : (writeCounts s).inputs = s.inputs := rfl
@[simp] theorem writeCounts_hostData (s : State) : (writeCounts s).hostData = s.hostData := rfl

@[simp] theorem streamFault_cmd (f : FaultKind) (s : State) : (streamFault f s).cmd = s.cmd := rfl
@[simp] theorem streamFault_status (f : FaultKind) (s : State) : (streamFault f s).status = { recordFault f s.status with busy := false, done := true } := rfl
@[simp] theorem streamFault_regs (f : FaultKind) (s : State) : (streamFault f s).regs = s.regs := rfl
@[simp] theorem streamFault_produced (f : FaultKind) (s : State) : (streamFault f s).produced = countWord s.q := rfl
@[simp] theorem streamFault_consumed (f : FaultKind) (s : State) : (streamFault f s).consumed = countWord s.pc := rfl
@[simp] theorem streamFault_result (f : FaultKind) (s : State) : (streamFault f s).result = s.result := rfl
@[simp] theorem streamFault_latch (f : FaultKind) (s : State) : (streamFault f s).latch = s.latch := rfl
@[simp] theorem streamFault_pc (f : FaultKind) (s : State) : (streamFault f s).pc = s.pc := rfl
@[simp] theorem streamFault_q (f : FaultKind) (s : State) : (streamFault f s).q = s.q := rfl
@[simp] theorem streamFault_seq (f : FaultKind) (s : State) : (streamFault f s).seq = .command := rfl
@[simp] theorem streamFault_mem (f : FaultKind) (s : State) : (streamFault f s).mem = s.mem := rfl
@[simp] theorem streamFault_inputs (f : FaultKind) (s : State) : (streamFault f s).inputs = s.inputs := rfl
@[simp] theorem streamFault_hostData (f : FaultKind) (s : State) : (streamFault f s).hostData = s.hostData := rfl

@[simp] theorem busFault_cmd (i : Instr) (s : State) : (busFault i s).cmd = s.cmd := rfl
@[simp] theorem busFault_status (i : Instr) (s : State) : (busFault i s).status = { recordFault .busError s.status with busy := false, done := true } := rfl
@[simp] theorem busFault_regs (i : Instr) (s : State) : (busFault i s).regs = s.regs := rfl
@[simp] theorem busFault_produced (i : Instr) (s : State) : (busFault i s).produced = s.produced := rfl
@[simp] theorem busFault_consumed (i : Instr) (s : State) : (busFault i s).consumed = s.consumed := rfl
@[simp] theorem busFault_result (i : Instr) (s : State) : (busFault i s).result = s.result := rfl
@[simp] theorem busFault_latch (i : Instr) (s : State) : (busFault i s).latch = s.latch := rfl
@[simp] theorem busFault_pc (i : Instr) (s : State) : (busFault i s).pc = s.pc := rfl
@[simp] theorem busFault_q (i : Instr) (s : State) : (busFault i s).q = s.q := rfl
@[simp] theorem busFault_seq (i : Instr) (s : State) : (busFault i s).seq = .command := rfl
@[simp] theorem busFault_mem (i : Instr) (s : State) : (busFault i s).mem = s.mem.leaveOpen s.latch.dst.toNat (dstExtent i s.latch) := rfl
@[simp] theorem busFault_inputs (i : Instr) (s : State) : (busFault i s).inputs = s.inputs := rfl
@[simp] theorem busFault_hostData (i : Instr) (s : State) : (busFault i s).hostData = s.hostData := rfl

@[simp] theorem streamBusFault_cmd (s : State) : (streamBusFault s).cmd = s.cmd := rfl
@[simp] theorem streamBusFault_status (s : State) : (streamBusFault s).status = { recordFault .busError s.status with busy := false, done := true } := rfl
@[simp] theorem streamBusFault_regs (s : State) : (streamBusFault s).regs = s.regs := rfl
@[simp] theorem streamBusFault_produced (s : State) : (streamBusFault s).produced = countWord s.q := rfl
@[simp] theorem streamBusFault_consumed (s : State) : (streamBusFault s).consumed = countWord s.pc := rfl
@[simp] theorem streamBusFault_result (s : State) : (streamBusFault s).result = s.result := rfl
@[simp] theorem streamBusFault_latch (s : State) : (streamBusFault s).latch = s.latch := rfl
@[simp] theorem streamBusFault_pc (s : State) : (streamBusFault s).pc = s.pc := rfl
@[simp] theorem streamBusFault_q (s : State) : (streamBusFault s).q = s.q := rfl
@[simp] theorem streamBusFault_seq (s : State) : (streamBusFault s).seq = .command := rfl
@[simp] theorem streamBusFault_mem (s : State) : (streamBusFault s).mem = s.mem.leaveOpen s.latch.dst.toNat s.latch.len.toNat := rfl
@[simp] theorem streamBusFault_inputs (s : State) : (streamBusFault s).inputs = s.inputs := rfl
@[simp] theorem streamBusFault_hostData (s : State) : (streamBusFault s).hostData = s.hostData := rfl

@[simp] theorem beginStream_cmd (s : State) : (beginStream s).cmd = s.cmd := rfl
@[simp] theorem beginStream_status (s : State) : (beginStream s).status = s.status := rfl
@[simp] theorem beginStream_regs (s : State) : (beginStream s).regs = s.regs := rfl
@[simp] theorem beginStream_produced (s : State) : (beginStream s).produced = s.produced := rfl
@[simp] theorem beginStream_consumed (s : State) : (beginStream s).consumed = s.consumed := rfl
@[simp] theorem beginStream_result (s : State) : (beginStream s).result = s.result := rfl
@[simp] theorem beginStream_latch (s : State) : (beginStream s).latch = s.latch := rfl
@[simp] theorem beginStream_pc (s : State) : (beginStream s).pc = 0 := rfl
@[simp] theorem beginStream_q (s : State) : (beginStream s).q = 0 := rfl
@[simp] theorem beginStream_seq (s : State) : (beginStream s).seq = .stream := rfl
@[simp] theorem beginStream_mem (s : State) : (beginStream s).mem = s.mem := rfl
@[simp] theorem beginStream_inputs (s : State) : (beginStream s).inputs = s.inputs := rfl
@[simp] theorem beginStream_hostData (s : State) : (beginStream s).hostData = s.hostData := rfl

@[simp] theorem nopGroup_cmd (s : State) : (nopGroup s).cmd = s.cmd := rfl
@[simp] theorem nopGroup_status (s : State) : (nopGroup s).status = s.status := rfl
@[simp] theorem nopGroup_regs (s : State) : (nopGroup s).regs = s.regs := rfl
@[simp] theorem nopGroup_produced (s : State) : (nopGroup s).produced = s.produced := rfl
@[simp] theorem nopGroup_consumed (s : State) : (nopGroup s).consumed = s.consumed := rfl
@[simp] theorem nopGroup_result (s : State) : (nopGroup s).result = s.result := rfl
@[simp] theorem nopGroup_latch (s : State) : (nopGroup s).latch = s.latch := rfl
@[simp] theorem nopGroup_pc (s : State) : (nopGroup s).pc = s.pc + 1 := rfl
@[simp] theorem nopGroup_q (s : State) : (nopGroup s).q = s.q := rfl
@[simp] theorem nopGroup_seq (s : State) : (nopGroup s).seq = s.seq := rfl
@[simp] theorem nopGroup_mem (s : State) : (nopGroup s).mem = s.mem := rfl
@[simp] theorem nopGroup_inputs (s : State) : (nopGroup s).inputs = s.inputs := rfl
@[simp] theorem nopGroup_hostData (s : State) : (nopGroup s).hostData = s.hostData := rfl


/-- R245: raising a fault sets ERR. -/
@[simp] theorem recordFault_err (f : FaultKind) (st : Status) : (recordFault f st).err = true := rfl
/-- R245: CAUSE keeps the first fault recorded. -/
@[simp] theorem recordFault_cause (f : FaultKind) (st : Status) :
    (recordFault f st).cause = if st.err then st.cause else causeCode f := rfl

end Sys2Proof.Machine
end

