-- ==== Sys2Proof/Laws/Memory.lean ====
section
/-! SUPPORT. The laws of buffer memory: read after write, the canonical form, and one lemma for each operation. -/

namespace Sys2Proof.Machine

/-! ### Cells -/

theorem cellsLookup_store (cs : List Host.Cell) (a : Nat) (b : Byte) (x : Nat) :
    cellsLookup (cellsStore cs a b) x = if x = a then some b else cellsLookup cs x := by
  induction cs with
  | nil => simp [cellsStore, cellsLookup]
  | cons c rest ih =>
    obtain ⟨k, v⟩ := c
    by_cases hlt : a < k
    · simp [cellsStore, cellsLookup, hlt]
    · by_cases heq : a = k
      · subst heq
        by_cases hx : x = a <;> simp [cellsStore, cellsLookup, hx]
      · by_cases hx : x = a
        · subst hx; simp [cellsStore, cellsLookup, hlt, heq, ih]
        · simp [cellsStore, cellsLookup, hlt, heq, ih, hx]

theorem cellsSorted_mono {lo lo' hi : Nat} {cs : List Host.Cell} (h : lo' ≤ lo)
    (hs : cellsSorted lo hi cs = true) : cellsSorted lo' hi cs = true := by
  cases cs with
  | nil => rfl
  | cons c rest =>
    simp only [cellsSorted, Bool.and_eq_true, decide_eq_true_eq] at hs ⊢
    exact ⟨⟨by omega, hs.1.2⟩, hs.2⟩

theorem cellsSorted_store {lo hi a : Nat} {b : Byte} {cs : List Host.Cell} (hlo : lo ≤ a) (hhi : a < hi)
    (hs : cellsSorted lo hi cs = true) : cellsSorted lo hi (cellsStore cs a b) = true := by
  induction cs generalizing lo with
  | nil => simp [cellsStore, cellsSorted, hlo, hhi]
  | cons c rest ih =>
    obtain ⟨k, v⟩ := c
    simp only [cellsSorted, Bool.and_eq_true, decide_eq_true_eq] at hs
    unfold cellsStore
    split
    · simp only [cellsSorted, Bool.and_eq_true, decide_eq_true_eq]
      exact ⟨⟨hlo, hhi⟩, ⟨by omega, hs.1.2⟩, hs.2⟩
    · split
      · subst_vars
        simp only [cellsSorted, Bool.and_eq_true, decide_eq_true_eq]
        exact hs
      · simp only [cellsSorted, Bool.and_eq_true, decide_eq_true_eq]
        exact ⟨hs.1, ih (by omega) hs.2⟩

theorem cellsLookup_of_sorted_below {lo hi x : Nat} {cs : List Host.Cell} (hs : cellsSorted lo hi cs = true)
    (hx : x < lo) : cellsLookup cs x = none := by
  induction cs generalizing lo with
  | nil => rfl
  | cons c rest ih =>
    simp only [cellsSorted, Bool.and_eq_true, decide_eq_true_eq] at hs
    have hne : x ≠ c.1 := by omega
    simp only [cellsLookup, hne, if_false]
    exact ih hs.2 (by omega)

/-- In canonical form, lists with the same lookups are the same list. -/
theorem cells_ext {lo hi : Nat} {cs ds : List Host.Cell} (hc : cellsSorted lo hi cs = true)
    (hd : cellsSorted lo hi ds = true) (h : ∀ x, cellsLookup cs x = cellsLookup ds x) : cs = ds := by
  induction cs generalizing lo ds with
  | nil =>
    cases ds with
    | nil => rfl
    | cons d _ => have := h d.1; simp [cellsLookup] at this
  | cons c cs ih =>
    obtain ⟨k, v⟩ := c
    cases ds with
    | nil => have := h k; simp [cellsLookup] at this
    | cons d ds =>
      obtain ⟨k', v'⟩ := d
      simp only [cellsSorted, Bool.and_eq_true, decide_eq_true_eq] at hc hd
      have hk : k = k' := by
        rcases Nat.lt_trichotomy k k' with hlt | heq | hgt
        · have := h k
          have hb : cellsLookup ds k = none := cellsLookup_of_sorted_below hd.2 (by omega)
          simp [cellsLookup, Nat.ne_of_lt hlt, hb] at this
        · exact heq
        · have := h k'
          have hb : cellsLookup cs k' = none := cellsLookup_of_sorted_below hc.2 (by omega)
          simp [cellsLookup, Nat.ne_of_lt hgt, hb] at this
      subst hk
      have hv : v = v' := by have := h k; simpa [cellsLookup] using this
      subst hv
      refine congrArg _ (ih hc.2 hd.2 fun x => ?_)
      by_cases hx : x = k
      · subst hx
        rw [cellsLookup_of_sorted_below hc.2 (by omega), cellsLookup_of_sorted_below hd.2 (by omega)]
      · have := h x; simpa [cellsLookup, hx] using this

/-! ### Memory -/

@[simp] theorem Memory.set_size (m : Memory) (a : Nat) (b : Byte) : (m.set a b).size = m.size := rfl
@[simp] theorem Memory.set_epoch (m : Memory) (a : Nat) (b : Byte) : (m.set a b).epoch = m.epoch := rfl
@[simp] theorem Memory.set_draws (m : Memory) (a : Nat) (b : Byte) : (m.set a b).draws = m.draws := rfl

theorem Memory.byteAt_set (m : Memory) (a : Nat) (b : Byte) (x : Nat) :
    (m.set a b).byteAt x = if x = a then b else m.byteAt x := by
  simp only [Memory.byteAt, Memory.set, cellsLookup_store, Memory.unlisted]
  split <;> simp

@[simp] theorem Memory.byteAt_set_self (m : Memory) (a : Nat) (b : Byte) : (m.set a b).byteAt a = b := by
  simp [Memory.byteAt_set]

theorem Memory.byteAt_set_ne (m : Memory) {a x : Nat} (b : Byte) (h : x ≠ a) :
    (m.set a b).byteAt x = m.byteAt x := by
  simp [Memory.byteAt_set, h]

/-- 20_memory.md R66: a read inside M gives the byte, outside it is a BusError. -/
theorem Memory.read_eq (m : Memory) (a : Nat) : m.read a = if a < m.size then some (m.byteAt a) else none := rfl

theorem Memory.read_of_lt {m : Memory} {a : Nat} (h : a < m.size) : m.read a = some (m.byteAt a) := by
  simp [Memory.read, h]

theorem Memory.read_eq_none_iff {m : Memory} {a : Nat} : m.read a = none ↔ m.size ≤ a := by
  simp [Memory.read]

theorem Memory.read_eq_some_iff {m : Memory} {a : Nat} {b : Byte} :
    m.read a = some b ↔ a < m.size ∧ m.byteAt a = b := by
  simp only [Memory.read]; split <;> simp_all

theorem Memory.read_congr {m m' : Memory} {a : Nat} (hs : m'.size = m.size) (hb : m'.byteAt a = m.byteAt a) :
    m'.read a = m.read a := by
  simp [Memory.read, hs, hb]

/-- The canonical form is kept by a write inside M. -/
theorem Memory.wf_set {m : Memory} {a : Nat} (b : Byte) (h : m.wf = true) (ha : a < m.size) :
    (m.set a b).wf = true := by
  simp only [Memory.wf, Bool.and_eq_true, decide_eq_true_eq] at h ⊢
  exact ⟨h.1, cellsSorted_store (Nat.zero_le _) ha h.2⟩

/-- Canonical memories of one size, epoch and draw counter that list the same bytes are the same data. -/
theorem Memory.ext_of_wf {m m' : Memory} (h : m.wf = true) (h' : m'.wf = true) (hs : m.size = m'.size)
    (he : m.epoch = m'.epoch) (hd : m.draws = m'.draws)
    (hl : ∀ x, cellsLookup m.cells x = cellsLookup m'.cells x) : m = m' := by
  obtain ⟨size, epoch, draws, cells⟩ := m
  obtain ⟨size', epoch', draws', cells'⟩ := m'
  simp only at hs he hd hl
  subst hs he hd
  simp only [Memory.wf, Bool.and_eq_true, decide_eq_true_eq] at h h'
  simp [cells_ext h.2 h'.2 hl]

/-- The memory of the reset state is in canonical form. -/
theorem reset_memory_wf : State.reset.mem.wf = true := by decide

/-! ### What an access can change -/

/-- `m'` is `m` after accesses: at most the bytes of `[lo, hi)` changed, MEMSIZE, the epoch and the draw counter the
same, and the canonical form kept. -/
structure Memory.Within (lo hi : Nat) (m m' : Memory) : Prop where
  size : m'.size = m.size
  epoch : m'.epoch = m.epoch
  draws : m'.draws = m.draws
  byteAt : ∀ a, ¬ (lo ≤ a ∧ a < hi) → m'.byteAt a = m.byteAt a
  wf : m.wf = true → m'.wf = true

theorem Memory.Within.refl (lo hi : Nat) (m : Memory) : Memory.Within lo hi m m :=
  ⟨rfl, rfl, rfl, fun _ _ => rfl, id⟩

theorem Memory.Within.trans {lo hi : Nat} {m m' m'' : Memory} (h : Memory.Within lo hi m m')
    (h' : Memory.Within lo hi m' m'') : Memory.Within lo hi m m'' :=
  ⟨h'.size.trans h.size, h'.epoch.trans h.epoch, h'.draws.trans h.draws, fun a ha => (h'.byteAt a ha).trans (h.byteAt a ha),
    fun hw => h'.wf (h.wf hw)⟩

theorem Memory.Within.mono {lo hi lo' hi' : Nat} {m m' : Memory} (h : Memory.Within lo hi m m') (hlo : lo' ≤ lo)
    (hhi : hi ≤ hi') : Memory.Within lo' hi' m m' :=
  ⟨h.size, h.epoch, h.draws, fun a ha => h.byteAt a fun hc => ha ⟨by omega, by omega⟩, h.wf⟩

theorem Memory.Within.read {lo hi : Nat} {m m' : Memory} (h : Memory.Within lo hi m m') {a : Nat}
    (ha : ¬ (lo ≤ a ∧ a < hi)) : m'.read a = m.read a :=
  Memory.read_congr h.size (h.byteAt a ha)

/-- A write inside M changes one byte. -/
theorem Memory.within_set {lo hi : Nat} (m : Memory) {a : Nat} (b : Byte) (hm : a < m.size) (hlo : lo ≤ a)
    (hhi : a < hi) : Memory.Within lo hi m (m.set a b) :=
  ⟨rfl, rfl, rfl, fun x hx => Memory.byteAt_set_ne m b (fun he => hx (by omega)), fun hw => Memory.wf_set b hw hm⟩

/-- `m'` is `m` after a command: at most the bytes of `[lo, hi)` changed, MEMSIZE and the epoch the same, and the
canonical form kept; BusError may have left the bytes open. -/
structure Memory.Confined (lo hi : Nat) (m m' : Memory) : Prop where
  size : m'.size = m.size
  epoch : m'.epoch = m.epoch
  byteAt : ∀ a, ¬ (lo ≤ a ∧ a < hi) → m'.byteAt a = m.byteAt a
  wf : m.wf = true → m'.wf = true

theorem Memory.Within.confined {lo hi : Nat} {m m' : Memory} (h : Memory.Within lo hi m m') :
    Memory.Confined lo hi m m' :=
  ⟨h.size, h.epoch, h.byteAt, h.wf⟩

theorem Memory.Confined.read {lo hi : Nat} {m m' : Memory} (h : Memory.Confined lo hi m m') {a : Nat}
    (ha : ¬ (lo ≤ a ∧ a < hi)) : m'.read a = m.read a :=
  Memory.read_congr h.size (h.byteAt a ha)

/-! ### Leaving an extent open -/

theorem drawBytes_within {draw a n lo hi : Nat} {m : Memory} (hm : n = 0 ∨ a + n ≤ m.size) (hlo : lo ≤ a)
    (hhi : a + n ≤ hi) : Memory.Within lo hi m (drawBytes draw a n m) := by
  induction n generalizing m with
  | zero => exact .refl _ _ _
  | succ n ih =>
    exact (Memory.within_set m _ (by omega) (by omega) (by omega)).trans
      (ih (by simp only [Memory.set_size]; omega) (by omega))

theorem byteAt_drawBytes {draw a n : Nat} {m : Memory} {x : Nat} (ha : a ≤ x) (hx : x < a + n) :
    (drawBytes draw a n m).byteAt x = Config.openByte draw x := by
  induction n generalizing m with
  | zero => omega
  | succ n ih =>
    by_cases hxn : x < a + n
    · exact ih hxn
    · obtain rfl : x = a + n := by omega
      have hkeep : ∀ k, k ≤ n → ∀ m : Memory, (drawBytes draw a k m).byteAt (a + n) = m.byteAt (a + n) := by
        intro k hk
        induction k with
        | zero => exact fun _ => rfl
        | succ k ihk => exact fun m => (ihk (by omega) _).trans (Memory.byteAt_set_ne m _ (by omega))
      exact (hkeep n (Nat.le_refl _) _).trans (Memory.byteAt_set_self _ _ _)

/-- BusError's free values: every byte of the extent that lies inside M is open. -/
theorem Memory.byteAt_leaveOpen {m : Memory} {a n x : Nat} (ha : a ≤ x) (hx : x < a + n) (hm : x < m.size) :
    (m.leaveOpen a n).byteAt x = Config.openByte m.draws x :=
  byteAt_drawBytes ha (by omega)

/-- Leaving an extent open changes no byte outside it. -/
theorem Memory.confined_leaveOpen (m : Memory) (a n : Nat) : Memory.Confined a (a + n) m (m.leaveOpen a n) := by
  have h := drawBytes_within (draw := m.draws) (a := a) (n := min n (m.size - a)) (lo := a) (hi := a + n)
    (m := { m with draws := m.draws + 1 }) (by simp only; omega) (Nat.le_refl _) (by omega)
  exact ⟨h.size, h.epoch, h.byteAt, h.wf⟩

@[simp] theorem Memory.leaveOpen_draws (m : Memory) (a n : Nat) : (m.leaveOpen a n).draws = m.draws + 1 :=
  (drawBytes_within (lo := a) (hi := a + n) (m := { m with draws := m.draws + 1 }) (by simp only; omega)
    (Nat.le_refl _) (by omega)).draws

@[simp] theorem Memory.leaveOpen_size (m : Memory) (a n : Nat) : (m.leaveOpen a n).size = m.size :=
  (m.confined_leaveOpen a n).size

/-- Accesses inside an extent, then that extent left open. -/
theorem Memory.Within.leaveOpen {a n : Nat} {m m' : Memory} (h : Memory.Within a (a + n) m m') :
    Memory.Confined a (a + n) m (m'.leaveOpen a n) := by
  have h' := m'.confined_leaveOpen a n
  exact ⟨h'.size.trans h.size, h'.epoch.trans h.epoch, fun x hx => (h'.byteAt x hx).trans (h.byteAt x hx),
    fun hw => h'.wf (h.wf hw)⟩

/-- What `put` can do. -/
theorem put_cases (a : Nat) (b : Byte) (m : Memory) :
    (a < m.size ∧ put a b m = .ok (m.set a b)) ∨ (m.size ≤ a ∧ put a b m = .bus m) := by
  by_cases h : a < m.size
  · exact .inl ⟨h, by simp [put, h]⟩
  · exact .inr ⟨by omega, by simp [put, h]⟩

theorem put_of_lt {a : Nat} {m : Memory} (b : Byte) (h : a < m.size) : put a b m = .ok (m.set a b) := by
  simp [put, h]

theorem put_of_le {a : Nat} {m : Memory} (b : Byte) (h : m.size ≤ a) : put a b m = .bus m := by
  simp [put, Nat.not_lt.mpr h]

/-- What `store` can do. -/
theorem store_cases (a : Nat) (v : Option Byte) (m : Memory) :
    (∃ b, v = some b ∧ a < m.size ∧ store a v m = .ok (m.set a b)) ∨
      ((v = none ∨ m.size ≤ a) ∧ store a v m = .bus m) := by
  cases v with
  | none => exact .inr ⟨.inl rfl, rfl⟩
  | some b =>
    rcases put_cases a b m with ⟨h, he⟩ | ⟨h, he⟩
    · exact .inl ⟨b, rfl, h, he⟩
    · exact .inr ⟨.inr h, he⟩

/-- The memory a run of accesses reached, whether or not it ended in BusError. -/
def Run.reached {σ : Type} : Run σ → σ
  | .ok s => s
  | .bus s => s

@[simp] theorem Run.reached_ok {σ : Type} (s : σ) : (Run.ok s).reached = s := rfl
@[simp] theorem Run.reached_bus {σ : Type} (s : σ) : (Run.bus s).reached = s := rfl
@[simp] theorem Run.ok_andThen {σ : Type} (s : σ) (k : σ → Run σ) : (Run.ok s).andThen k = k s := rfl
@[simp] theorem Run.bus_andThen {σ : Type} (s : σ) (k : σ → Run σ) : (Run.bus s).andThen k = .bus s := rfl

/-- A relation that accesses keep is kept by two runs one after the other. -/
theorem Run.reached_andThen {σ : Type} {P : σ → Prop} {r : Run σ} {k : σ → Run σ} (hr : P r.reached)
    (hk : ∀ s, r = .ok s → P s → P (k s).reached) : P (r.andThen k).reached := by
  cases r with
  | ok s => exact hk s rfl hr
  | bus s => exact hr

theorem put_within {lo hi a : Nat} (b : Byte) (m : Memory) (hlo : lo ≤ a) (hhi : a < hi) :
    Memory.Within lo hi m (put a b m).reached := by
  rcases put_cases a b m with ⟨h, he⟩ | ⟨h, he⟩
  · rw [he]; exact Memory.within_set m b h hlo hhi
  · rw [he]; exact .refl lo hi m

theorem store_within {lo hi a : Nat} (v : Option Byte) (m : Memory) (hlo : lo ≤ a) (hhi : a < hi) :
    Memory.Within lo hi m (store a v m).reached := by
  cases v with
  | none => exact .refl lo hi m
  | some b => exact put_within b m hlo hhi

/-! ### Loops -/

/-- A loop's invariant, indexed by the pass: every pass that starts in it ends in it without BusError. -/
theorem loopFrom_ok {σ : Type} {body : Nat → σ → Run σ} (P : Nat → σ → Prop) {n start : Nat} {s : σ}
    (h0 : P start s)
    (hb : ∀ i s, start ≤ i → i < start + n → P i s → ∃ s', body i s = .ok s' ∧ P (i + 1) s') :
    ∃ s', loopFrom body n start s = .ok s' ∧ P (start + n) s' := by
  induction n generalizing start s with
  | zero => exact ⟨s, rfl, h0⟩
  | succ n ih =>
    obtain ⟨s1, he, h1⟩ := hb start s (Nat.le_refl _) (by omega) h0
    obtain ⟨s2, he2, h2⟩ := ih h1 fun i s hi hi' => hb i s (by omega) (by omega)
    exact ⟨s2, by simp [loopFrom, he, he2], by rwa [show start + (n + 1) = start + 1 + n by omega]⟩

theorem loop_ok {σ : Type} {body : Nat → σ → Run σ} (P : Nat → σ → Prop) {n : Nat} {s : σ} (h0 : P 0 s)
    (hb : ∀ i s, i < n → P i s → ∃ s', body i s = .ok s' ∧ P (i + 1) s') :
    ∃ s', loop n body s = .ok s' ∧ P n s' := by
  have := loopFrom_ok (n := n) (start := 0) P h0 fun i s _ hi => hb i s (by omega)
  simpa [loop] using this

/-- What every pass keeps, the loop keeps, however it ends. -/
theorem loopFrom_reached {σ : Type} {body : Nat → σ → Run σ} {P : σ → Prop} {n start : Nat} {s : σ} (h0 : P s)
    (hb : ∀ i s, start ≤ i → i < start + n → P s → P (body i s).reached) :
    P (loopFrom body n start s).reached := by
  induction n generalizing start s with
  | zero => exact h0
  | succ n ih =>
    refine Run.reached_andThen (hb start s (Nat.le_refl _) (by omega) h0) fun s' he hs' => ?_
    exact ih hs' fun i s hi hi' => hb i s (by omega) (by omega)

theorem loop_reached {σ : Type} {body : Nat → σ → Run σ} {P : σ → Prop} {n : Nat} {s : σ} (h0 : P s)
    (hb : ∀ i s, i < n → P s → P (body i s).reached) : P (loop n body s).reached :=
  loopFrom_reached h0 fun i s _ hi => hb i s (by omega)

/-- A loop one of whose passes ends in BusError ends in BusError. -/
theorem loopFrom_bus {σ : Type} {body : Nat → σ → Run σ} (P : σ → Prop) {n start j : Nat} {s : σ} (h0 : P s)
    (hb : ∀ i s s', P s → body i s = .ok s' → P s') (hj : start ≤ j) (hj' : j < start + n)
    (hbad : ∀ s, P s → ∃ s', body j s = .bus s') : ∃ s', loopFrom body n start s = .bus s' := by
  induction n generalizing start s with
  | zero => omega
  | succ n ih =>
    cases hbody : body start s with
    | bus s' => exact ⟨s', by simp [loopFrom, hbody]⟩
    | ok s1 =>
      by_cases hjs : j = start
      · subst hjs
        obtain ⟨s', he⟩ := hbad s h0
        rw [he] at hbody; cases hbody
      · obtain ⟨s', he⟩ := ih (start := start + 1) (hb start s s1 h0 hbody) (by omega) (by omega)
        exact ⟨s', by simp [loopFrom, hbody, he]⟩

theorem loop_bus {σ : Type} {body : Nat → σ → Run σ} (P : σ → Prop) {n j : Nat} {s : σ} (h0 : P s)
    (hb : ∀ i s s', P s → body i s = .ok s' → P s') (hj : j < n)
    (hbad : ∀ s, P s → ∃ s', body j s = .bus s') : ∃ s', loop n body s = .bus s' :=
  loopFrom_bus P h0 hb (Nat.zero_le _) (by omega) hbad

/-! ### Ends of commands -/

/-- The count of a register that fits 32 bits. -/
theorem countWord_of_lt {n : Nat} (h : n < 4294967296) : (countWord n).toNat = n := by
  simp [countWord, h]

end Sys2Proof.Machine
end

