-- ==== Sys2Proof/Laws/Operands.lean ====
section
/-! SUPPORT. The register file and the operand checks: what a read, a write and a check can be. -/

namespace Sys2Proof.Machine

/-! ### The register file -/

/-- 10_state.md R22: the numbers tell the registers apart. -/
theorem Reg.number_injective {r r' : Reg} (h : r.number = r'.number) : r = r' := by
  cases r <;> cases r' <;> first | rfl | cases h

/-- R23, R27: what a host write of a register can do. -/
theorem writeReg_cases (r : Reg) (v : Word) (s : State) :
    (r = .cmd ∧ writeReg r v s = writeCmd v s) ∨
      ((r = .status ∨ r = .produced ∨ r = .consumed ∨ r = .result) ∧ writeReg r v s = s) ∨
      (2 ≤ r.number ∧ r.number ≤ 17 ∧ ∃ o, writeReg r v s = { s with regs := o }) := by
  cases r <;> first
    | exact .inl ⟨rfl, rfl⟩
    | exact .inr (.inl ⟨by simp, rfl⟩)
    | exact .inr (.inr ⟨by decide, by decide, _, rfl⟩)

/-- R27: what a host write of CMD can do. -/
theorem writeCmd_cases (c : Word) (s : State) :
    ((s.status.busy = true ∨ s.status.err = true) ∧ writeCmd c s = s) ∨
      (s.status.busy = false ∧ s.status.err = false ∧ writeCmd c s = issue c s) := by
  cases hb : s.status.busy <;> cases he : s.status.err <;> simp [writeCmd, hb, he]

/-! ### Layouts -/

/-- 20_memory.md R81: what a zero-extending row read can be. -/
theorem rowRead_cases (g : Geometry) (l : Layout) (y p k : Nat) (m : Memory) :
    (k < g.sb ∧ rowRead g l y p k m = m.read (g.src + g.off l g.sb y p k)) ∨
      (g.sb ≤ k ∧ rowRead g l y p k m = some 0#8) := by
  by_cases h : k < g.sb
  · exact .inl ⟨h, by simp [rowRead, h]⟩
  · exact .inr ⟨by omega, by simp [rowRead, h]⟩

/-- R67: the two bytes of a colour word give it back. -/
theorem be16_highByte_lowByte (w : BitVec 16) : be16 (highByte w) (lowByte w) = w := by
  apply BitVec.eq_of_toNat_eq
  have := w.isLt
  simp only [be16, highByte, lowByte, BitVec.toNat_ofNat]
  omega

/-! ### Operand checks -/

/-- 60_exceptions.md R243: the extents do not intersect. -/
theorem overlap_eq_false_iff (i : Instr) (o : Operands) :
    overlap i o = false ↔ srcExtent i o = 0 ∨ dstExtent i o = 0 ∨ o.src.toNat + srcExtent i o ≤ o.dst.toNat ∨
      o.dst.toNat + dstExtent i o ≤ o.src.toNat := by
  simp only [overlap, extentsMeet, Bool.and_eq_false_iff, decide_eq_false_iff_not]
  omega

/-- R171: the operand values DEINT, INTLV and CHUNKY share. -/
theorem geometryOk_iff (o : Operands) :
    geometryOk o = true ↔ 1 ≤ o.width.toNat ∧ 1 ≤ o.height.toNat ∧ 1 ≤ o.nplanes.toNat ∧ o.nplanes.toNat ≤ 8 ∧
      1 ≤ o.srb.toNat ∧ o.srb.toNat ≤ rowBytes o.width.toNat := by
  simp only [geometryOk, Bool.and_eq_true, decide_eq_true_eq, and_assoc]
  rfl

/-! ### Ends of commands -/

/-- What the end of a memory-writing command can be. -/
theorem finish_cases (i : Instr) (s : State) (r : Run Memory) (p c : Nat) :
    (∃ m, r = .ok m ∧
        finish i s r p c = complete { s with mem := m, produced := countWord p, consumed := countWord c }) ∨
      (∃ m, r = .bus m ∧ finish i s r p c = busFault i { s with mem := m, produced := 0#32, consumed := 0#32 }) := by
  cases r with
  | ok m => exact .inl ⟨m, rfl, rfl⟩
  | bus m => exact .inr ⟨m, rfl, rfl⟩

/-- BusError after accesses inside the destination extent: no byte outside it is changed. -/
theorem busFault_confined {i : Instr} {s : State} {m : Memory}
    (h : Memory.Within s.latch.dst.toNat (s.latch.dst.toNat + dstExtent i s.latch) m s.mem) :
    Memory.Confined s.latch.dst.toNat (s.latch.dst.toNat + dstExtent i s.latch) m (busFault i s).mem :=
  h.leaveOpen

end Sys2Proof.Machine
end

