-- ==== Sys2Proof/Laws/Encode.lean ====
section
/-! SUPPORT. What PBENC's scan reads and what its groups write. -/

namespace Sys2Proof.Machine

/-! ### The scan -/

/-- 41_packbits_encode.md R151: how many of the bytes from `j` on equal `v`, at most `limit`. -/
theorem countEqual_some {src : Nat} {m : Memory} {v : Byte} {limit j k : Nat}
    (h : countEqual src m v limit j = some k) :
    k ≤ limit ∧ (∀ i, i < k → m.read (src + (j + i)) = some v) ∧
      (k = limit ∨ ∃ b, m.read (src + (j + k)) = some b ∧ b ≠ v) := by
  induction limit generalizing j k with
  | zero => simp only [countEqual, Option.some.injEq] at h; subst h; simp
  | succ limit ih =>
    simp only [countEqual, srcByte] at h
    split at h
    · cases h
    · rename_i b hb
      split at h
      · rename_i hbv
        subst hbv
        split at h
        · cases h
        · rename_i k' hk'
          simp only [Option.some.injEq] at h
          subst h
          obtain ⟨h1, h2, h3⟩ := ih hk'
          refine ⟨by omega, fun i hi => ?_, ?_⟩
          · cases i with
            | zero => exact hb
            | succ i => rw [show j + (i + 1) = j + 1 + i by omega]; exact h2 i (by omega)
          · rcases h3 with h3 | ⟨b', h3, h4⟩
            · exact .inl (by omega)
            · exact .inr ⟨b', by rw [show j + (k' + 1) = j + 1 + k' by omega]; exact h3, h4⟩
      · rename_i hbv
        simp only [Option.some.injEq] at h
        subst h
        exact ⟨Nat.zero_le _, fun i hi => absurd hi (Nat.not_lt_zero _), .inr ⟨b, hb, hbv⟩⟩

theorem countEqual_none {src : Nat} {m : Memory} {v : Byte} {limit j : Nat}
    (h : countEqual src m v limit j = none) : ∃ i, i < limit ∧ m.size ≤ src + (j + i) := by
  induction limit generalizing j with
  | zero => simp [countEqual] at h
  | succ limit ih =>
    simp only [countEqual, srcByte] at h
    split at h
    · rename_i hn
      exact ⟨0, by omega, Memory.read_eq_none_iff.mp hn⟩
    · split at h
      · split at h
        · rename_i hn
          obtain ⟨i, hi, hs⟩ := ih hn
          exact ⟨i + 1, by omega, by omega⟩
        · cases h
      · cases h

/-- R151: `run(j)` is a run of identical bytes, capped at 128 and at the row's end, and as long as it can be. -/
theorem runLength_some {src n : Nat} {m : Memory} {j r : Nat} (hj : j < n) (h : runLength src n m j = some r) :
    1 ≤ r ∧ r ≤ 128 ∧ j + r ≤ n ∧ ∃ v, (∀ i, i < r → m.read (src + (j + i)) = some v) ∧
      (r = 128 ∨ j + r = n ∨ ∃ b, m.read (src + (j + r)) = some b ∧ b ≠ v) := by
  simp only [runLength, srcByte] at h
  split at h
  · cases h
  · rename_i v hv
    split at h
    · cases h
    · rename_i k hk
      simp only [Option.some.injEq] at h
      subst h
      obtain ⟨h1, h2, h3⟩ := countEqual_some hk
      simp only [Config.maxRun] at h1 h3
      refine ⟨by omega, by omega, by omega, v, fun i hi => ?_, ?_⟩
      · cases i with
        | zero => exact hv
        | succ i => rw [show j + (i + 1) = j + 1 + i by omega]; exact h2 i (by omega)
      · rcases h3 with h3 | ⟨b, h3, h4⟩
        · omega
        · exact .inr (.inr ⟨b, by rw [show j + (k + 1) = j + 1 + k by omega]; exact h3, h4⟩)

/-- Where the scan meets a byte outside M, the row does not lie inside M. -/
theorem runLength_none {src n : Nat} {m : Memory} {j : Nat} (hj : j < n) (h : runLength src n m j = none) :
    m.size < src + n := by
  simp only [runLength, srcByte] at h
  split at h
  · rename_i hn
    have := Memory.read_eq_none_iff.mp hn
    omega
  · split at h
    · rename_i hn
      obtain ⟨i, hi, hs⟩ := countEqual_none hn
      simp only [Config.maxRun] at hi
      omega
    · cases h

/-- The scan reads only the row. -/
theorem runLength_congr {src n : Nat} {m m' : Memory} {j : Nat} (hj : j < n)
    (h : ∀ i, i < n → m'.read (src + i) = m.read (src + i)) : runLength src n m' j = runLength src n m j := by
  have hc : ∀ v limit j, j + limit ≤ n → countEqual src m' v limit j = countEqual src m v limit j := by
    intro v limit
    induction limit with
    | zero => intro j _; rfl
    | succ limit ih =>
      intro j hj
      simp only [countEqual, srcByte, h j (by omega), ih (j + 1) (by omega)]
  simp only [runLength, srcByte, h j hj]
  split
  · rfl
  · rw [hc _ _ _ (by omega)]

/-- R152: the end of a literal: at most `room` bytes on, inside the row, no run of 3 or more before it, and there the
row's end, the cap, or a run of 3 or more. -/
theorem literalEnd_some {src n : Nat} {m : Memory} {room j k : Nat} (hj : j ≤ n)
    (h : literalEnd src n m room j = some k) :
    j ≤ k ∧ k ≤ j + room ∧ k ≤ n ∧
      (∀ i, j ≤ i → i < k → ∃ r, runLength src n m i = some r ∧ r < 3) ∧
      (k = n ∨ k = j + room ∨ ∃ r, runLength src n m k = some r ∧ 3 ≤ r) := by
  induction room generalizing j with
  | zero =>
    simp only [literalEnd, Option.some.injEq] at h
    subst h
    exact ⟨Nat.le_refl _, by omega, hj, fun i _ _ => by omega, .inr (.inl rfl)⟩
  | succ room ih =>
    simp only [literalEnd] at h
    split at h
    · rename_i hlt
      split at h
      · cases h
      · rename_i r hr
        split at h
        · rename_i hr3
          simp only [Config.minRep] at hr3
          obtain ⟨h1, h2, h3, h4, h5⟩ := ih (by omega) h
          refine ⟨by omega, by omega, h3, fun i hi hik => ?_, ?_⟩
          · by_cases hij : i = j
            · subst hij; exact ⟨r, hr, hr3⟩
            · exact h4 i (by omega) hik
          · rcases h5 with h5 | h5 | h5
            · exact .inl h5
            · exact .inr (.inl (by omega))
            · exact .inr (.inr h5)
        · rename_i hr3
          simp only [Config.minRep] at hr3
          simp only [Option.some.injEq] at h
          subst h
          exact ⟨Nat.le_refl _, by omega, hj, fun i _ _ => by omega, .inr (.inr ⟨r, hr, by omega⟩)⟩
    · simp only [Option.some.injEq] at h
      subst h
      exact ⟨Nat.le_refl _, by omega, hj, fun i _ _ => by omega, .inl (by omega)⟩

theorem literalEnd_none {src n : Nat} {m : Memory} {room j : Nat} (h : literalEnd src n m room j = none) :
    m.size < src + n := by
  induction room generalizing j with
  | zero => simp [literalEnd] at h
  | succ room ih =>
    simp only [literalEnd] at h
    split at h
    · split at h
      · rename_i hlt _ hn
        exact runLength_none hlt hn
      · split at h
        · exact ih h
        · cases h
    · cases h

/-! ### The groups -/

@[simp] theorem Enc.after_reached_mem (e : Enc) (r : Run Memory) (i o : Nat) :
    (e.after r i o).reached.mem = r.reached := by cases r <;> rfl

theorem encodeRepeat_within (src dst r : Nat) (e : Enc) :
    Memory.Within (dst + e.o) (dst + (e.o + 2)) e.mem (encodeRepeat src dst r e).reached.mem := by
  simp only [encodeRepeat, Enc.after_reached_mem]
  refine Run.reached_andThen (P := Memory.Within _ _ e.mem) (put_within _ _ (Nat.le_refl _) (by omega)) fun m _ hm => ?_
  exact hm.trans (store_within _ _ (by omega) (by omega))

theorem encodeLiteral_within {src dst j : Nat} {e : Enc} :
    Memory.Within (dst + e.o) (dst + (e.o + 1 + (j - e.i))) e.mem (encodeLiteral src dst j e).reached.mem := by
  simp only [encodeLiteral, Enc.after_reached_mem]
  refine Run.reached_andThen (P := Memory.Within _ _ e.mem) (put_within _ _ (Nat.le_refl _) (by omega)) fun m _ hm => ?_
  refine loop_reached hm fun t m hlt hw => hw.trans (store_within _ _ (by omega) (by omega))

/-- R152: what one pass of PBENC's outer loop can be: stopped in the scan by a byte outside M, a repeat, or a literal. -/
theorem encodeGroup_cases {src n dst : Nat} {e : Enc} (hi : e.i < n) :
    (e.mem.size < src + n ∧ encodeGroup src n dst e = .bus e) ∨
      (∃ r, runLength src n e.mem e.i = some r ∧ 3 ≤ r ∧ encodeGroup src n dst e = encodeRepeat src dst r e) ∨
      (∃ j, e.i < j ∧ j ≤ e.i + 128 ∧ j ≤ n ∧
        (∀ i, e.i ≤ i → i < j → ∃ r, runLength src n e.mem i = some r ∧ r < 3) ∧
        (j = n ∨ j = e.i + 128 ∨ ∃ r, runLength src n e.mem j = some r ∧ 3 ≤ r) ∧
        encodeGroup src n dst e = encodeLiteral src dst j e) := by
  simp only [encodeGroup]
  split
  · rename_i hn
    exact .inl ⟨runLength_none hi hn, rfl⟩
  · rename_i r hr
    split
    · rename_i h3
      exact .inr (.inl ⟨r, hr, h3, rfl⟩)
    · rename_i h3
      simp only [Config.minRep] at h3
      split
      · rename_i hn
        exact .inl ⟨literalEnd_none hn, rfl⟩
      · rename_i j hj
        obtain ⟨h1, h2, h4, h5, h6⟩ := literalEnd_some (by omega) hj
        simp only [Config.maxRun] at h2 h6
        refine .inr (.inr ⟨j, ?_, h2, h4, h5, h6, rfl⟩)
        rcases h6 with h6 | h6 | ⟨r', h6, h7⟩
        · omega
        · omega
        · by_cases hji : j = e.i
          · subst hji; rw [hr] at h6; cases h6; omega
          · omega

/-- R154: the size bound, as the outer loop keeps it. After a literal that is not full (`open_`) a repeat or the row's
end follows, and one byte more may be out. -/
theorem encodeLoop_within {src n dst fuel : Nat} {e : Enc} {bound : Nat} (hb : bound = n + n / 128 + 1)
    (hn : e.i ≤ n)
    (ha : n = 0 ∨ src + n ≤ dst ∨ dst + bound ≤ src)
    (ho : e.o ≤ e.i + e.i / 128 ∨
      (e.o ≤ e.i + e.i / 128 + 1 ∧ (e.i = n ∨ ∃ r, runLength src n e.mem e.i = some r ∧ 3 ≤ r))) :
    Memory.Within (dst + e.o) (dst + bound) e.mem (encodeLoop src n dst fuel e).reached.mem ∧
      (encodeLoop src n dst fuel e).reached.o ≤ bound ∧ (encodeLoop src n dst fuel e).reached.i ≤ n := by
  induction fuel generalizing e with
  | zero => exact ⟨.refl _ _ _, by simp only [encodeLoop, Run.reached_ok]; omega, hn⟩
  | succ fuel ih =>
    simp only [encodeLoop]
    split
    · rename_i hi
      rcases encodeGroup_cases (src := src) (dst := dst) hi with ⟨_, he⟩ | ⟨r, hr, h3, he⟩ |
        ⟨j, hj1, hj2, hj3, hlow, hend, he⟩
      · rw [he]
        exact ⟨.refl _ _ _, by simp only [Run.bus_andThen, Run.reached_bus]; omega, by simpa using hn⟩
      · obtain ⟨_, _, hrn, _⟩ := runLength_some hi hr
        have hw := encodeRepeat_within src dst r e
        rw [he]
        cases hres : encodeRepeat src dst r e with
        | bus e' =>
          rw [hres] at hw
          have hio : e'.i = e.i ∧ e'.o = e.o := by
            simp only [encodeRepeat, Enc.after] at hres
            split at hres <;> cases hres
            exact ⟨rfl, rfl⟩
          exact ⟨hw.mono (Nat.le_refl _) (by omega), by simp only [Run.bus_andThen, Run.reached_bus]; omega,
            by simp only [Run.bus_andThen, Run.reached_bus]; omega⟩
        | ok e' =>
          rw [hres] at hw
          have hio : e'.i = e.i + r ∧ e'.o = e.o + 2 := by
            simp only [encodeRepeat, Enc.after] at hres
            split at hres <;> cases hres
            exact ⟨rfl, rfl⟩
          obtain ⟨h1, h2⟩ := ih (e := e') (by omega) (.inl (by omega))
          exact ⟨(hw.mono (Nat.le_refl _) (by omega)).trans (h1.mono (by omega) (Nat.le_refl _)), h2⟩
      · have hA : e.o ≤ e.i + e.i / 128 := by
          rcases ho with ho | ⟨_, ho | ⟨r, hr, h3⟩⟩
          · exact ho
          · omega
          · obtain ⟨r', hr', h3'⟩ := hlow e.i (Nat.le_refl _) hj1
            rw [hr] at hr'; cases hr'; omega
        have hw := encodeLiteral_within (src := src) (dst := dst) (j := j) (e := e)
        rw [he]
        cases hres : encodeLiteral src dst j e with
        | bus e' =>
          rw [hres] at hw
          have hio : e'.i = e.i ∧ e'.o = e.o := by
            simp only [encodeLiteral, Enc.after] at hres
            split at hres <;> cases hres
            exact ⟨rfl, rfl⟩
          exact ⟨hw.mono (Nat.le_refl _) (by omega), by simp only [Run.bus_andThen, Run.reached_bus]; omega,
            by simp only [Run.bus_andThen, Run.reached_bus]; omega⟩
        | ok e' =>
          rw [hres] at hw
          simp only [Run.reached_ok] at hw
          have hio : e'.i = j ∧ e'.o = e.o + 1 + (j - e.i) := by
            simp only [encodeLiteral, Enc.after] at hres
            split at hres <;> cases hres
            exact ⟨rfl, rfl⟩
          have hsame : ∀ i, i < n → e'.mem.read (src + i) = e.mem.read (src + i) := fun i hin => hw.read (by clear hend hlow ho; omega)
          obtain ⟨h1, h2⟩ := ih (e := e') (by omega) (by
            rcases hend with hend | hend | ⟨r, hr, h3⟩
            · exact .inr ⟨by omega, .inl (by omega)⟩
            · exact .inl (by omega)
            · by_cases hjn : j < n
              · exact .inr ⟨by omega, .inr ⟨r, by rw [hio.1, runLength_congr hjn hsame]; exact hr, h3⟩⟩
              · exact .inr ⟨by omega, .inl (by omega)⟩)
          exact ⟨(hw.mono (Nat.le_refl _) (by omega)).trans (h1.mono (by omega) (Nat.le_refl _)), h2⟩
    · exact ⟨.refl _ _ _, by simp only [Run.reached_ok]; omega, hn⟩

end Sys2Proof.Machine
end

