-- ==== Sys2Proof/Laws/PackBits.lean ====
section
/-! SUPPORT. What the loops of LIT and REP do, byte by byte, and what a group can do to a state. -/

namespace Sys2Proof.Machine

/-- The first `j` passes of LIT's loop, all inside M: the bytes are copied and the loop goes on from there. -/
theorem copyLiteral_pass {src n dst : Nat} {j k : Nat} {c : Cursor} (hk : j ≤ k) (hn : c.pc + j ≤ n)
    (hs : j = 0 ∨ src + c.pc + j ≤ c.mem.size) (hd : j = 0 ∨ dst + c.q + j ≤ c.mem.size)
    (ha : j = 0 ∨ src + c.pc + j ≤ dst + c.q ∨ dst + c.q + j ≤ src + c.pc) :
    ∃ m', copyLiteral src n dst k c = copyLiteral src n dst (k - j) { pc := c.pc + j, q := c.q + j, mem := m' } ∧
      (∀ i, i < j → m'.byteAt (dst + c.q + i) = c.mem.byteAt (src + c.pc + i)) ∧
      Memory.Within (dst + c.q) (dst + c.q + j) c.mem m' := by
  induction j generalizing k c with
  | zero => exact ⟨c.mem, rfl, fun i hi => absurd hi (Nat.not_lt_zero _), .refl _ _ _⟩
  | succ j ih =>
    obtain ⟨k, rfl⟩ : ∃ k', k = k' + 1 := ⟨k - 1, by omega⟩
    have hr : c.mem.read (src + c.pc) = some (c.mem.byteAt (src + c.pc)) := Memory.read_of_lt (by omega)
    have hw : dst + c.q < c.mem.size := by omega
    let c1 : Cursor :=
      { pc := c.pc + 1, q := c.q + 1, mem := c.mem.set (dst + c.q) (c.mem.byteAt (src + c.pc)) }
    have h1 : copyLiteral src n dst (k + 1) c = copyLiteral src n dst k c1 := by
      have : c.pc ≠ n := by omega
      simp [copyLiteral, this, copyByte, hr, put_of_lt _ hw, c1]
    obtain ⟨m', he, hc, hwi⟩ := ih (k := k) (c := c1) (by omega) (by simp only [c1]; omega)
      (by simp only [c1, Memory.set_size]; omega) (by simp only [c1, Memory.set_size]; omega)
      (by simp only [c1]; omega)
    refine ⟨m', ?_, fun i hi => ?_, ?_⟩
    · rw [h1, he]
      simp only [c1]
      rw [show k + 1 - (j + 1) = k - j by omega, show c.pc + 1 + j = c.pc + (j + 1) by omega,
        show c.q + 1 + j = c.q + (j + 1) by omega]
    · cases i with
      | zero =>
        rw [hwi.byteAt _ (by simp only [c1]; omega)]
        simp [c1]
      | succ i =>
        have hci := hc i (by omega)
        simp only [c1] at hci
        rw [show dst + c.q + (i + 1) = dst + (c.q + 1) + i by omega, hci,
          Memory.byteAt_set_ne _ _ (by omega), show src + (c.pc + 1) + i = src + c.pc + (i + 1) by omega]
    · simp only [c1] at hwi
      exact (Memory.within_set c.mem _ hw (Nat.le_refl _) (by omega)).trans (hwi.mono (by omega) (by omega))

/-- LIT's loop with every access inside M: it copies `min k (N - pc)` bytes. -/
theorem copyLiteral_ok {src n dst k t : Nat} {c : Cursor} (hn : c.pc ≤ n) (ht : t = min k (n - c.pc))
    (hs : t = 0 ∨ src + c.pc + t ≤ c.mem.size) (hd : t = 0 ∨ dst + c.q + t ≤ c.mem.size)
    (ha : t = 0 ∨ src + c.pc + t ≤ dst + c.q ∨ dst + c.q + t ≤ src + c.pc) :
    ∃ m', copyLiteral src n dst k c = .ok { pc := c.pc + t, q := c.q + t, mem := m' } ∧
      (∀ i, i < t → m'.byteAt (dst + c.q + i) = c.mem.byteAt (src + c.pc + i)) ∧
      Memory.Within (dst + c.q) (dst + c.q + t) c.mem m' := by
  obtain ⟨m', he, hc, hw⟩ := copyLiteral_pass (n := n) (k := k) (by omega) (by omega) hs hd ha
  refine ⟨m', ?_, hc, hw⟩
  rw [he]
  cases hkt : k - t with
  | zero => rfl
  | succ _ =>
    have : c.pc + t = n := by omega
    simp [copyLiteral, this]

/-- LIT's loop whose access number `j` is the first outside M. -/
theorem copyLiteral_bus {src n dst j k : Nat} {c : Cursor} (hk : j < k) (hn : c.pc + j < n)
    (hs : j = 0 ∨ src + c.pc + j ≤ c.mem.size) (hd : j = 0 ∨ dst + c.q + j ≤ c.mem.size)
    (ha : j = 0 ∨ src + c.pc + j ≤ dst + c.q ∨ dst + c.q + j ≤ src + c.pc)
    (hb : c.mem.size ≤ src + c.pc + j ∨ c.mem.size ≤ dst + c.q + j) :
    ∃ m', copyLiteral src n dst k c = .bus { pc := c.pc + j, q := c.q + j, mem := m' } ∧
      (∀ i, i < j → m'.byteAt (dst + c.q + i) = c.mem.byteAt (src + c.pc + i)) ∧
      Memory.Within (dst + c.q) (dst + c.q + j) c.mem m' := by
  obtain ⟨m', he, hc, hw⟩ := copyLiteral_pass (n := n) (k := k) (by omega) (by omega) hs hd ha
  refine ⟨m', ?_, hc, hw⟩
  rw [he]
  obtain ⟨k', hk'⟩ : ∃ k', k - j = k' + 1 := ⟨k - j - 1, by omega⟩
  have hne : c.pc + j ≠ n := by omega
  have hsz := hw.size
  simp only [hk', copyLiteral, hne, if_false]
  by_cases hr : src + (c.pc + j) < m'.size
  · have hle : m'.size ≤ dst + (c.q + j) := by omega
    simp [copyByte, Memory.read_of_lt hr, put_of_le _ hle]
  · simp [copyByte, Memory.read_eq_none_iff.mpr (Nat.not_lt.mp hr)]

/-- LIT's loop, however it ends, writes only from `dst + q` on and at most `k` bytes, moves both counters by the bytes
copied, and stays within the source. -/
theorem copyLiteral_reached (src n dst k : Nat) (c : Cursor) (hn : c.pc ≤ n) :
    ∃ j m', (copyLiteral src n dst k c).reached = { pc := c.pc + j, q := c.q + j, mem := m' } ∧ j ≤ k ∧
      c.pc + j ≤ n ∧ Memory.Within (dst + c.q) (dst + c.q + j) c.mem m' ∧
      (∀ c', copyLiteral src n dst k c = .ok c' → j = k ∨ c.pc + j = n) := by
  induction k generalizing c with
  | zero => exact ⟨0, c.mem, rfl, Nat.le_refl _, hn, .refl _ _ _, fun _ _ => .inl rfl⟩
  | succ k ih =>
    by_cases hpc : c.pc = n
    · exact ⟨0, c.mem, by simp only [copyLiteral, if_pos hpc]; rfl, Nat.zero_le _, hn, .refl _ _ _, fun _ _ => .inr hpc⟩
    · by_cases hr : src + c.pc < c.mem.size
      · by_cases hw : dst + c.q < c.mem.size
        · let c1 : Cursor :=
            { pc := c.pc + 1, q := c.q + 1, mem := c.mem.set (dst + c.q) (c.mem.byteAt (src + c.pc)) }
          have h1 : copyLiteral src n dst (k + 1) c = copyLiteral src n dst k c1 := by
            simp [copyLiteral, hpc, copyByte, Memory.read_of_lt hr, put_of_lt _ hw, c1]
          obtain ⟨j, m', he, hj, hjn, hwi, hok⟩ := ih c1 (by simp only [c1]; omega)
          simp only [c1] at he hjn hwi hok
          refine ⟨j + 1, m', ?_, by omega, by omega, ?_, fun c' hc' => ?_⟩
          · rw [h1, he]
            rw [show c.pc + 1 + j = c.pc + (j + 1) by omega, show c.q + 1 + j = c.q + (j + 1) by omega]
          · exact (Memory.within_set c.mem _ hw (Nat.le_refl _) (by omega)).trans (hwi.mono (by omega) (by omega))
          · rw [h1] at hc'
            have := hok c' hc'
            omega
        · refine ⟨0, c.mem, ?_, Nat.zero_le _, hn, .refl _ _ _, fun c' hc' => ?_⟩
          · simp [copyLiteral, hpc, copyByte, Memory.read_of_lt hr, put_of_le _ (Nat.not_lt.mp hw)]
          · simp [copyLiteral, hpc, copyByte, Memory.read_of_lt hr, put_of_le _ (Nat.not_lt.mp hw)] at hc'
      · have hnone := Memory.read_eq_none_iff.mpr (Nat.not_lt.mp hr)
        refine ⟨0, c.mem, ?_, Nat.zero_le _, hn, .refl _ _ _, fun c' hc' => ?_⟩
        · simp [copyLiteral, hpc, copyByte, hnone]
        · simp [copyLiteral, hpc, copyByte, hnone] at hc'

/-- The first `j` passes of REP's loop, all inside M. -/
theorem fillRun_pass {dst j k : Nat} {v : Byte} {c : Cursor} (hk : j ≤ k)
    (hd : j = 0 ∨ dst + c.q + j ≤ c.mem.size) :
    ∃ m', fillRun dst v k c = fillRun dst v (k - j) { pc := c.pc, q := c.q + j, mem := m' } ∧
      (∀ i, i < j → m'.byteAt (dst + c.q + i) = v) ∧ Memory.Within (dst + c.q) (dst + c.q + j) c.mem m' := by
  induction j generalizing k c with
  | zero => exact ⟨c.mem, rfl, fun i hi => absurd hi (Nat.not_lt_zero _), .refl _ _ _⟩
  | succ j ih =>
    obtain ⟨k, rfl⟩ : ∃ k', k = k' + 1 := ⟨k - 1, by omega⟩
    have hw : dst + c.q < c.mem.size := by omega
    let c1 : Cursor := { pc := c.pc, q := c.q + 1, mem := c.mem.set (dst + c.q) v }
    have h1 : fillRun dst v (k + 1) c = fillRun dst v k c1 := by simp [fillRun, put_of_lt _ hw, c1]
    obtain ⟨m', he, hc, hwi⟩ := ih (k := k) (c := c1) (by omega) (by simp only [c1, Memory.set_size]; omega)
    refine ⟨m', ?_, fun i hi => ?_, ?_⟩
    · rw [h1, he]
      simp only [c1]
      rw [show k + 1 - (j + 1) = k - j by omega, show c.q + 1 + j = c.q + (j + 1) by omega]
    · cases i with
      | zero =>
        rw [hwi.byteAt _ (by simp only [c1]; omega)]
        simp [c1]
      | succ i =>
        have hci := hc i (by omega)
        simp only [c1] at hci
        rw [show dst + c.q + (i + 1) = dst + (c.q + 1) + i by omega, hci]
    · simp only [c1] at hwi
      exact (Memory.within_set c.mem _ hw (Nat.le_refl _) (by omega)).trans (hwi.mono (by omega) (by omega))

/-- REP's loop with every write inside M. -/
theorem fillRun_ok {dst k : Nat} {v : Byte} {c : Cursor} (hd : k = 0 ∨ dst + c.q + k ≤ c.mem.size) :
    ∃ m', fillRun dst v k c = .ok { pc := c.pc, q := c.q + k, mem := m' } ∧
      (∀ i, i < k → m'.byteAt (dst + c.q + i) = v) ∧ Memory.Within (dst + c.q) (dst + c.q + k) c.mem m' := by
  obtain ⟨m', he, hc, hw⟩ := fillRun_pass (v := v) (Nat.le_refl k) hd
  exact ⟨m', by rw [he, Nat.sub_self]; rfl, hc, hw⟩

/-- REP's loop whose write number `j` is the first outside M. -/
theorem fillRun_bus {dst j k : Nat} {v : Byte} {c : Cursor} (hk : j < k) (hd : j = 0 ∨ dst + c.q + j ≤ c.mem.size)
    (hb : c.mem.size ≤ dst + c.q + j) :
    ∃ m', fillRun dst v k c = .bus { pc := c.pc, q := c.q + j, mem := m' } ∧
      (∀ i, i < j → m'.byteAt (dst + c.q + i) = v) ∧ Memory.Within (dst + c.q) (dst + c.q + j) c.mem m' := by
  obtain ⟨m', he, hc, hw⟩ := fillRun_pass (v := v) (Nat.le_of_lt hk) hd
  refine ⟨m', ?_, hc, hw⟩
  obtain ⟨k', hk'⟩ : ∃ k', k - j = k' + 1 := ⟨k - j - 1, by omega⟩
  have hle : m'.size ≤ dst + (c.q + j) := by have := hw.size; omega
  rw [he, hk']
  simp [fillRun, put_of_le _ hle]

/-- REP's loop, however it ends, writes only from `dst + q` on and at most `k` bytes, and leaves `pc`. -/
theorem fillRun_reached (dst : Nat) (v : Byte) (k : Nat) (c : Cursor) :
    ∃ j m', (fillRun dst v k c).reached = { pc := c.pc, q := c.q + j, mem := m' } ∧ j ≤ k ∧
      Memory.Within (dst + c.q) (dst + c.q + j) c.mem m' ∧ (∀ c', fillRun dst v k c = .ok c' → j = k) := by
  induction k generalizing c with
  | zero => exact ⟨0, c.mem, rfl, Nat.le_refl _, .refl _ _ _, fun _ _ => rfl⟩
  | succ k ih =>
    by_cases hw : dst + c.q < c.mem.size
    · let c1 : Cursor := { pc := c.pc, q := c.q + 1, mem := c.mem.set (dst + c.q) v }
      have h1 : fillRun dst v (k + 1) c = fillRun dst v k c1 := by simp [fillRun, put_of_lt _ hw, c1]
      obtain ⟨j, m', he, hj, hwi, hok⟩ := ih c1
      simp only [c1] at he hwi hok
      refine ⟨j + 1, m', ?_, by omega, ?_, fun c' hc' => ?_⟩
      · rw [h1, he, show c.q + 1 + j = c.q + (j + 1) by omega]
      · exact (Memory.within_set c.mem _ hw (Nat.le_refl _) (by omega)).trans (hwi.mono (by omega) (by omega))
      · rw [h1] at hc'; have := hok c' hc'; omega
    · refine ⟨0, c.mem, ?_, Nat.zero_le _, .refl _ _ _, fun c' hc' => ?_⟩
      · simp [fillRun, put_of_le _ (Nat.not_lt.mp hw)]
      · simp [fillRun, put_of_le _ (Nat.not_lt.mp hw)] at hc'

end Sys2Proof.Machine
end

