-- ==== Sys2Proof/Laws/Writes.lean ====
section
/-! SUPPORT. What a run of writes leaves: `Memory.Writes`, and how loops and sequences compose it. -/

namespace Sys2Proof.Machine

/-- `m'` is `m` with byte `b` at every address `a` of `P a b` and every other byte as it was, MEMSIZE, the epoch and
the draw counter the same, and the canonical form kept. -/
structure Memory.Writes (P : Nat → Byte → Prop) (m m' : Memory) : Prop where
  size : m'.size = m.size
  epoch : m'.epoch = m.epoch
  draws : m'.draws = m.draws
  wf : m.wf = true → m'.wf = true
  new : ∀ a b, P a b → m'.byteAt a = b
  old : ∀ a, (∀ b, ¬ P a b) → m'.byteAt a = m.byteAt a

theorem Memory.Writes.none (m : Memory) : Memory.Writes (fun _ _ => False) m m :=
  ⟨rfl, rfl, rfl, id, fun _ _ h => h.elim, fun _ _ => rfl⟩

theorem Memory.Writes.congr {P Q : Nat → Byte → Prop} {m m' : Memory} (h : Memory.Writes P m m')
    (he : ∀ a b, P a b ↔ Q a b) : Memory.Writes Q m m' :=
  ⟨h.size, h.epoch, h.draws, h.wf, fun a b hq => h.new a b ((he a b).mpr hq),
    fun a hq => h.old a fun b hp => hq b ((he a b).mp hp)⟩

/-- Two runs of writes to different addresses. -/
theorem Memory.Writes.append {P Q : Nat → Byte → Prop} {m m' m'' : Memory} (h : Memory.Writes P m m')
    (h' : Memory.Writes Q m' m'') (hd : ∀ a b b', P a b → ¬ Q a b') :
    Memory.Writes (fun a b => P a b ∨ Q a b) m m'' where
  size := h'.size.trans h.size
  epoch := h'.epoch.trans h.epoch
  draws := h'.draws.trans h.draws
  wf := fun hw => h'.wf (h.wf hw)
  new := fun a b hpq => by
    rcases hpq with hp | hq
    · rw [h'.old a fun b' => hd a b b' hp]; exact h.new a b hp
    · exact h'.new a b hq
  old := fun a hn => by
    rw [h'.old a fun b hq => hn b (.inr hq)]
    exact h.old a fun b hp => hn b (.inl hp)

/-- The bytes written lie in `[lo, hi)`. -/
theorem Memory.Writes.within {P : Nat → Byte → Prop} {m m' : Memory} {lo hi : Nat} (h : Memory.Writes P m m')
    (hp : ∀ a b, P a b → lo ≤ a ∧ a < hi) : Memory.Within lo hi m m' :=
  ⟨h.size, h.epoch, h.draws, fun a ha => h.old a fun b hab => ha (hp a b hab), h.wf⟩

/-- A byte written reads back. -/
theorem Memory.Writes.read {P : Nat → Byte → Prop} {m m' : Memory} {a : Nat} {b : Byte} (h : Memory.Writes P m m')
    (hp : P a b) (ha : a < m.size) : m'.read a = some b := by
  rw [Memory.read_of_lt (by rw [h.size]; exact ha), h.new a b hp]

theorem put_writes {a : Nat} {b : Byte} {m : Memory} (ha : a < m.size) :
    ∃ m', put a b m = .ok m' ∧ Memory.Writes (fun x y => x = a ∧ y = b) m m' := by
  refine ⟨m.set a b, put_of_lt b ha, ⟨rfl, rfl, rfl, fun hw => Memory.wf_set b hw ha, fun x y h => ?_, fun x h => ?_⟩⟩
  · rw [h.1, h.2, Memory.byteAt_set_self]
  · exact Memory.byteAt_set_ne m b fun hx => h b ⟨hx, rfl⟩

theorem store_writes {a : Nat} {v : Option Byte} {b : Byte} {m : Memory} (hv : v = some b) (ha : a < m.size) :
    ∃ m', store a v m = .ok m' ∧ Memory.Writes (fun x y => x = a ∧ y = b) m m' := by
  subst hv
  exact put_writes ha

/-- A store that lies inside M keeps MEMSIZE. -/
theorem store_size {a : Nat} {v : Option Byte} {m m' : Memory} (h : store a v m = .ok m') : m'.size = m.size := by
  rcases store_cases a v m with ⟨b, _, _, he⟩ | ⟨_, he⟩ <;> rw [he] at h <;> cases h
  rfl

theorem loopFrom_size {n start : Nat} {body : Nat → Memory → Run Memory} {m m' : Memory}
    (hb : ∀ i m m', body i m = .ok m' → m'.size = m.size) (h : loopFrom body n start m = .ok m') :
    m'.size = m.size := by
  induction n generalizing start m with
  | zero => cases h; rfl
  | succ n ih =>
    simp only [loopFrom] at h
    cases hbi : body start m with
    | bus s => rw [hbi] at h; cases h
    | ok s => rw [hbi] at h; rw [ih h, hb _ _ _ hbi]

/-- A loop whose passes keep MEMSIZE keeps it. -/
theorem loop_size {n : Nat} {body : Nat → Memory → Run Memory} {m m' : Memory}
    (hb : ∀ i m m', body i m = .ok m' → m'.size = m.size) (h : loop n body m = .ok m') : m'.size = m.size :=
  loopFrom_size hb h

/-- A loop whose passes write to different addresses, none of them in `A`, on which the passes depend. -/
theorem loopFrom_writes {n start : Nat} {body : Nat → Memory → Run Memory} {P : Nat → Nat → Byte → Prop} {m : Memory}
    (A : Nat → Prop) (hA : ∀ i a b, start ≤ i → i < start + n → P i a b → ¬ A a)
    (hd : ∀ i i' a b b', start ≤ i → i < i' → i' < start + n → P i a b → ¬ P i' a b')
    (hb : ∀ i m', start ≤ i → i < start + n → m'.size = m.size → (∀ a, A a → m'.byteAt a = m.byteAt a) →
      ∃ m'', body i m' = .ok m'' ∧ Memory.Writes (P i) m' m'') :
    ∃ m', loopFrom body n start m = .ok m' ∧
      Memory.Writes (fun a b => ∃ i, start ≤ i ∧ i < start + n ∧ P i a b) m m' := by
  obtain ⟨m', he, hw⟩ := loopFrom_ok (body := body) (n := n) (start := start) (s := m)
    (fun j m' => j ≤ start + n ∧ Memory.Writes (fun a b => ∃ i, start ≤ i ∧ i < j ∧ P i a b) m m')
    ⟨by omega, (Memory.Writes.none m).congr fun a b => ⟨fun h => h.elim, fun ⟨i, h1, h2, _⟩ => by omega⟩⟩
    (fun i m' hi hi' hw => by
      obtain ⟨m'', he, hw'⟩ := hb i m' hi hi' hw.2.size fun a ha =>
        hw.2.old a fun b ⟨i', h1, h2, h3⟩ => hA i' a b h1 (by omega) h3 ha
      refine ⟨m'', he, by omega, (hw.2.append hw' fun a b b' ⟨i', h1, h2, h3⟩ => hd i' i a b b' h1 h2 hi' h3).congr
        fun a b => ⟨fun h => ?_, fun ⟨i', h1, h2, h3⟩ => ?_⟩⟩
      · rcases h with ⟨i', h1, h2, h3⟩ | h
        · exact ⟨i', h1, by omega, h3⟩
        · exact ⟨i, hi, by omega, h⟩
      · by_cases hii : i' = i
        · subst hii; exact .inr h3
        · exact .inl ⟨i', h1, by omega, h3⟩)
  exact ⟨m', he, hw.2⟩

theorem loop_writes {n : Nat} {body : Nat → Memory → Run Memory} {P : Nat → Nat → Byte → Prop} {m : Memory}
    (A : Nat → Prop) (hA : ∀ i a b, i < n → P i a b → ¬ A a)
    (hd : ∀ i i' a b b', i < i' → i' < n → P i a b → ¬ P i' a b')
    (hb : ∀ i m', i < n → m'.size = m.size → (∀ a, A a → m'.byteAt a = m.byteAt a) →
      ∃ m'', body i m' = .ok m'' ∧ Memory.Writes (P i) m' m'') :
    ∃ m', loop n body m = .ok m' ∧ Memory.Writes (fun a b => ∃ i, i < n ∧ P i a b) m m' := by
  obtain ⟨m', he, hw⟩ := loopFrom_writes (start := 0) (n := n) (body := body) A
    (fun i a b _ hi => hA i a b (by omega)) (fun i i' a b b' _ h1 h2 => hd i i' a b b' h1 (by omega))
    (fun i m' _ hi => hb i m' (by omega))
  exact ⟨m', he, hw.congr fun a b => ⟨fun ⟨i, _, h2, h3⟩ => ⟨i, by omega, h3⟩,
    fun ⟨i, h2, h3⟩ => ⟨i, Nat.zero_le _, by omega, h3⟩⟩⟩

/-- `MemWrite` of R17 with every byte inside M. -/
theorem memWrite_writes {bs : List Byte} {a : Nat} {m : Memory} (h : bs = [] ∨ a + bs.length ≤ m.size) :
    ∃ m', memWrite a bs m = .ok m' ∧ Memory.Writes (fun x b => ∃ j, bs[j]? = some b ∧ x = a + j) m m' := by
  induction bs generalizing a m with
  | nil => exact ⟨m, rfl, (Memory.Writes.none m).congr fun x b => ⟨fun h => h.elim, fun ⟨j, h, _⟩ => by simp at h⟩⟩
  | cons b bs ih =>
    have hl : a + (bs.length + 1) ≤ m.size := by simpa using h
    obtain ⟨m1, he1, hw1⟩ := put_writes (b := b) (m := m) (a := a) (by omega)
    obtain ⟨m2, he2, hw2⟩ := ih (a := a + 1) (m := m1) (.inr (by rw [hw1.size]; omega))
    refine ⟨m2, by simp [memWrite, he1, he2], (hw1.append hw2 ?_).congr fun x y => ⟨fun h => ?_, fun ⟨j, h1, h2⟩ => ?_⟩⟩
    · rintro x y y' ⟨rfl, _⟩ ⟨j, _, h⟩
      omega
    · rcases h with ⟨rfl, rfl⟩ | ⟨j, h1, h2⟩
      · exact ⟨0, rfl, rfl⟩
      · exact ⟨j + 1, by simpa using h1, by omega⟩
    · cases j with
      | zero => simp at h1; exact .inl ⟨by omega, h1.symm⟩
      | succ j => exact .inr ⟨j, by simpa using h1, by omega⟩

/-- `MemWrite` of R17, however it ends, writes only its own bytes. -/
theorem memWrite_within (bs : List Byte) (a : Nat) (m : Memory) :
    Memory.Within a (a + bs.length) m (memWrite a bs m).reached := by
  induction bs generalizing a m with
  | nil => exact .refl _ _ _
  | cons b bs ih =>
    simp only [memWrite, List.length_cons]
    refine Run.reached_andThen (P := Memory.Within _ _ m) (put_within _ _ (Nat.le_refl _) (by omega)) fun m' _ hm => ?_
    exact hm.trans ((ih (a + 1) m').mono (by omega) (by omega))

/-- `MemRead` of R17 with every byte inside M. -/
theorem memRead_of_le {m : Memory} {a n : Nat} (h : n = 0 ∨ a + n ≤ m.size) :
    memRead m a n = some ((List.range n).map fun j => m.byteAt (a + j)) := by
  induction n generalizing a with
  | zero => rfl
  | succ n ih =>
    rw [memRead, Memory.read_of_lt (by omega), ih (by omega)]
    simp only [List.range_succ_eq_map, List.map_cons, List.map_map, Nat.add_zero, Option.some.injEq, List.cons.injEq,
      true_and]
    exact List.map_congr_left fun j _ => by simp only [Function.comp]; congr 1; omega

end Sys2Proof.Machine
end

