-- ==== Sys2Proof/Laws/Palette.lean ====
section
/-! SUPPORT. What the palette unit computes, reads and writes. -/

namespace Sys2Proof.Machine

/-! ### Colours -/

/-- 43_palette.md R214: the high byte of a packed colour is its red channel. -/
theorem highByte_scaleDown (r g b : Byte) : highByte (scaleDown r g b) = BitVec.ofNat 8 (r.toNat / 16) := by
  have hr := r.isLt; have hg := g.isLt; have hb := b.isLt
  have h : ∀ (r g b : Fin 16), highByte (packColor (BitVec.ofNat 16 r) (BitVec.ofNat 16 g) (BitVec.ofNat 16 b)) =
      BitVec.ofNat 8 r := by decide
  exact h ⟨r.toNat / 16, by omega⟩ ⟨g.toNat / 16, by omega⟩ ⟨b.toNat / 16, by omega⟩

/-- R214: the low byte is the green and the blue channel. -/
theorem lowByte_scaleDown (r g b : Byte) :
    lowByte (scaleDown r g b) = BitVec.ofNat 8 (g.toNat / 16 * 16 + b.toNat / 16) := by
  have hr := r.isLt; have hg := g.isLt; have hb := b.isLt
  have h : ∀ (r g b : Fin 16), lowByte (packColor (BitVec.ofNat 16 r) (BitVec.ofNat 16 g) (BitVec.ofNat 16 b)) =
      BitVec.ofNat 8 (g.val * 16 + b) := by decide
  exact h ⟨r.toNat / 16, by omega⟩ ⟨g.toNat / 16, by omega⟩ ⟨b.toNat / 16, by omega⟩

/-- R220: the channels of the word of two bytes; the high byte's top four bits are ignored. -/
theorem scaleUp_be16 (hi lo : Byte) : scaleUp (be16 hi lo) =
    (BitVec.ofNat 8 (hi.toNat % 16 * 17), BitVec.ofNat 8 (lo.toNat / 16 * 17), BitVec.ofNat 8 (lo.toNat % 16 * 17)) := by
  have h1 := hi.isLt; have h2 := lo.isLt
  simp only [scaleUp, expandNibble, redOf, greenOf, blueOf, be16, BitVec.toNat_ofNat]
  have hm : (hi.toNat * 256 + lo.toNat) % 2 ^ 16 = hi.toNat * 256 + lo.toNat := Nat.mod_eq_of_lt (by omega)
  rw [hm, show (hi.toNat * 256 + lo.toNat) / 256 % 16 = hi.toNat % 16 by omega,
    show (hi.toNat * 256 + lo.toNat) / 16 % 16 = lo.toNat / 16 by omega,
    show (hi.toNat * 256 + lo.toNat) % 16 = lo.toNat % 16 by omega]

/-! ### Entries -/

/-- 20_memory.md R67: a colour word inside M. -/
theorem putWord_writes {a : Nat} {w : BitVec 16} {m : Memory} (h : a + 2 ≤ m.size) :
    ∃ m', putWord a w m = .ok m' ∧
      Memory.Writes (fun x y => (x = a ∧ y = highByte w) ∨ (x = a + 1 ∧ y = lowByte w)) m m' := by
  obtain ⟨m1, he1, hw1⟩ := put_writes (a := a) (b := highByte w) (m := m) (by omega)
  obtain ⟨m2, he2, hw2⟩ := put_writes (a := a + 1) (b := lowByte w) (m := m1) (by rw [hw1.size]; omega)
  exact ⟨m2, by simp only [putWord, he1, Run.ok_andThen, he2], hw1.append hw2 (by rintro x y y' ⟨rfl, _⟩ ⟨h, _⟩; omega)⟩

theorem putWord_within (a : Nat) (w : BitVec 16) (m : Memory) :
    Memory.Within a (a + 2) m (putWord a w m).reached :=
  Run.reached_andThen (P := Memory.Within a (a + 2) m) (put_within _ _ (Nat.le_refl _) (by omega))
    fun m' _ hm => hm.trans (put_within _ _ (by omega) (by omega))

theorem putWord_size {a : Nat} {w : BitVec 16} {m m' : Memory} (h : putWord a w m = .ok m') : m'.size = m.size := by
  have := (putWord_within a w m).size
  rwa [h] at this

theorem putWord_bus {a : Nat} {w : BitVec 16} {m : Memory} (h : m.size < a + 2) : ∃ m', putWord a w m = .bus m' := by
  rcases put_cases a (highByte w) m with ⟨h1, he⟩ | ⟨h1, he⟩
  · refine ⟨m.set a (highByte w), ?_⟩
    simp only [putWord, he, Run.ok_andThen]
    exact put_of_le _ (by simp only [Memory.set_size]; omega)
  · exact ⟨m, by simp only [putWord, he, Run.bus_andThen]⟩

/-- R220: a triplet inside M. -/
theorem putTriplet_writes {a : Nat} {c : Byte × Byte × Byte} {m : Memory} (h : a + 3 ≤ m.size) :
    ∃ m', putTriplet a c m = .ok m' ∧
      Memory.Writes (fun x y => ((x = a ∧ y = c.1) ∨ (x = a + 1 ∧ y = c.2.1)) ∨ (x = a + 2 ∧ y = c.2.2)) m m' := by
  obtain ⟨m1, he1, hw1⟩ := put_writes (a := a) (b := c.1) (m := m) (by omega)
  obtain ⟨m2, he2, hw2⟩ := put_writes (a := a + 1) (b := c.2.1) (m := m1) (by rw [hw1.size]; omega)
  obtain ⟨m3, he3, hw3⟩ := put_writes (a := a + 2) (b := c.2.2) (m := m2) (by rw [hw2.size, hw1.size]; omega)
  refine ⟨m3, by simp only [putTriplet, he1, Run.ok_andThen, he2, he3], (hw1.append hw2 ?_).append hw3 ?_⟩
  · rintro x y y' ⟨rfl, _⟩ ⟨h, _⟩; omega
  · rintro x y y' (⟨rfl, _⟩ | ⟨rfl, _⟩) ⟨h, _⟩ <;> omega

theorem putTriplet_within (a : Nat) (c : Byte × Byte × Byte) (m : Memory) :
    Memory.Within a (a + 3) m (putTriplet a c m).reached :=
  Run.reached_andThen (P := Memory.Within a (a + 3) m)
    (Run.reached_andThen (P := Memory.Within a (a + 3) m) (put_within _ _ (Nat.le_refl _) (by omega))
      fun m' _ hm => hm.trans (put_within _ _ (by omega) (by omega)))
    fun m' _ hm => hm.trans (put_within _ _ (by omega) (by omega))

theorem putTriplet_bus {a : Nat} {c : Byte × Byte × Byte} {m : Memory} (h : m.size < a + 3) :
    ∃ m', putTriplet a c m = .bus m' := by
  rcases put_cases a c.1 m with ⟨h1, he⟩ | ⟨h1, he⟩
  · rcases put_cases (a + 1) c.2.1 (m.set a c.1) with ⟨h2, he2⟩ | ⟨h2, he2⟩
    · refine ⟨(m.set a c.1).set (a + 1) c.2.1, ?_⟩
      simp only [putTriplet, he, he2, Run.ok_andThen]
      exact put_of_le _ (by simp only [Memory.set_size]; omega)
    · exact ⟨m.set a c.1, by simp only [putTriplet, he, he2, Run.ok_andThen, Run.bus_andThen]⟩
  · exact ⟨m, by simp only [putTriplet, he, Run.bus_andThen]⟩

/-! ### The array commands -/

/-- 43_palette.md R214: what PALDN's loop writes with both extents inside M and disjoint. -/
theorem paldn_writes {src dst nc : Nat} {m : Memory} (hs : nc = 0 ∨ src + 3 * nc ≤ m.size)
    (hd : nc = 0 ∨ dst + 2 * nc ≤ m.size) (ha : nc = 0 ∨ src + 3 * nc ≤ dst ∨ dst + 2 * nc ≤ src) :
    ∃ m', loop nc (paldnEntry src dst) m = .ok m' ∧
      Memory.Writes (fun a y => ∃ i, i < nc ∧
        ((a = dst + 2 * i ∧ y = highByte (scaleDown (m.byteAt (src + 3 * i)) (m.byteAt (src + 3 * i + 1))
            (m.byteAt (src + 3 * i + 2)))) ∨
          (a = dst + 2 * i + 1 ∧ y = lowByte (scaleDown (m.byteAt (src + 3 * i)) (m.byteAt (src + 3 * i + 1))
            (m.byteAt (src + 3 * i + 2)))))) m m' := by
  refine loop_writes (A := fun a => src ≤ a ∧ a < src + 3 * nc) (fun i a b hi hp hA => ?_)
    (fun i i' a b b' _ _ hp hp' => ?_) fun i m1 hi hsz hb => ?_
  · rcases hp with ⟨rfl, _⟩ | ⟨rfl, _⟩ <;> omega
  · rcases hp with ⟨rfl, _⟩ | ⟨rfl, _⟩ <;> rcases hp' with ⟨h, _⟩ | ⟨h, _⟩ <;> omega
  · simp only [paldnEntry]
    rw [Memory.read_of_lt (a := src + 3 * i) (by omega), Memory.read_of_lt (a := src + 3 * i + 1) (by omega),
      Memory.read_of_lt (a := src + 3 * i + 2) (by omega), hb _ (by omega), hb _ (by omega), hb _ (by omega)]
    exact putWord_writes (by omega)

/-- R220: what PALUP's loop writes with both extents inside M and disjoint. -/
theorem palup_writes {src dst nc : Nat} {m : Memory} (hs : nc = 0 ∨ src + 2 * nc ≤ m.size)
    (hd : nc = 0 ∨ dst + 3 * nc ≤ m.size) (ha : nc = 0 ∨ src + 2 * nc ≤ dst ∨ dst + 3 * nc ≤ src) :
    ∃ m', loop nc (palupEntry src dst) m = .ok m' ∧
      Memory.Writes (fun a y => ∃ i, i < nc ∧
        (((a = dst + 3 * i ∧ y = (scaleUp (be16 (m.byteAt (src + 2 * i)) (m.byteAt (src + 2 * i + 1)))).1) ∨
          (a = dst + 3 * i + 1 ∧ y = (scaleUp (be16 (m.byteAt (src + 2 * i)) (m.byteAt (src + 2 * i + 1)))).2.1)) ∨
          (a = dst + 3 * i + 2 ∧
            y = (scaleUp (be16 (m.byteAt (src + 2 * i)) (m.byteAt (src + 2 * i + 1)))).2.2))) m m' := by
  refine loop_writes (A := fun a => src ≤ a ∧ a < src + 2 * nc) (fun i a b hi hp hA => ?_)
    (fun i i' a b b' _ _ hp hp' => ?_) fun i m1 hi hsz hb => ?_
  · rcases hp with (⟨rfl, _⟩ | ⟨rfl, _⟩) | ⟨rfl, _⟩ <;> omega
  · rcases hp with (⟨rfl, _⟩ | ⟨rfl, _⟩) | ⟨rfl, _⟩ <;> rcases hp' with (⟨h, _⟩ | ⟨h, _⟩) | ⟨h, _⟩ <;> omega
  · simp only [palupEntry]
    rw [Memory.read_of_lt (a := src + 2 * i) (by omega), Memory.read_of_lt (a := src + 2 * i + 1) (by omega),
      hb _ (by omega), hb _ (by omega)]
    exact putTriplet_writes (by omega)

/-- R226: what PALDEF's loop writes with its extent inside M. -/
theorem paldef_writes {dst nc : Nat} {m : Memory} (hd : nc = 0 ∨ dst + 2 * nc ≤ m.size) :
    ∃ m', loop nc (paldefEntry dst) m = .ok m' ∧
      Memory.Writes (fun a y => ∃ i, i < nc ∧
        ((a = dst + 2 * i ∧ y = highByte (defaultColor i)) ∨
          (a = dst + 2 * i + 1 ∧ y = lowByte (defaultColor i)))) m m' := by
  refine loop_writes (A := fun _ => False) (fun _ _ _ _ _ h => h) (fun i i' a b b' _ _ hp hp' => ?_)
    fun i m1 hi hsz _ => putWord_writes (by omega)
  rcases hp with ⟨rfl, _⟩ | ⟨rfl, _⟩ <;> rcases hp' with ⟨h, _⟩ | ⟨h, _⟩ <;> omega

theorem paldnEntry_within (src dst i : Nat) (m : Memory) :
    Memory.Within (dst + 2 * i) (dst + 2 * i + 2) m (paldnEntry src dst i m).reached := by
  simp only [paldnEntry]
  split
  · exact putWord_within _ _ _
  · exact .refl _ _ _

theorem palupEntry_within (src dst i : Nat) (m : Memory) :
    Memory.Within (dst + 3 * i) (dst + 3 * i + 3) m (palupEntry src dst i m).reached := by
  simp only [palupEntry]
  split
  · exact putTriplet_within _ _ _
  · exact .refl _ _ _

/-- The loops of PALDN, PALUP and PALDEF, however they end, write only their destination extents. -/
theorem paldn_within (src dst nc : Nat) (m : Memory) :
    Memory.Within dst (dst + 2 * nc) m (loop nc (paldnEntry src dst) m).reached :=
  loop_reached (P := Memory.Within dst (dst + 2 * nc) m) (.refl _ _ _) fun i m' hi h =>
    h.trans ((paldnEntry_within src dst i m').mono (by omega) (by omega))

theorem palup_within (src dst nc : Nat) (m : Memory) :
    Memory.Within dst (dst + 3 * nc) m (loop nc (palupEntry src dst) m).reached :=
  loop_reached (P := Memory.Within dst (dst + 3 * nc) m) (.refl _ _ _) fun i m' hi h =>
    h.trans ((palupEntry_within src dst i m').mono (by omega) (by omega))

theorem paldef_within (dst nc : Nat) (m : Memory) :
    Memory.Within dst (dst + 2 * nc) m (loop nc (paldefEntry dst) m).reached :=
  loop_reached (P := Memory.Within dst (dst + 2 * nc) m) (.refl _ _ _) fun i m' hi h =>
    h.trans ((putWord_within _ _ m').mono (by omega) (by omega))

/-- PALDN's loop ends in BusError where a triplet or a word lies outside M. -/
theorem paldn_bus {src dst nc : Nat} {m : Memory} (hn : 0 < nc)
    (hbad : m.size < src + 3 * nc ∨ m.size < dst + 2 * nc) : ∃ m', loop nc (paldnEntry src dst) m = .bus m' := by
  refine loop_bus (P := fun x => x.size = m.size) (j := nc - 1) rfl (fun i s s' hs he => ?_) (by omega) fun s hs => ?_
  · have := (paldnEntry_within src dst i s).size
    rw [he] at this; exact this.trans hs
  · simp only [paldnEntry]
    split
    · rename_i r g b h1 h2 h3
      have := (Memory.read_eq_some_iff.mp h3).1
      exact putWord_bus (by omega)
    · exact ⟨s, rfl⟩

theorem palup_bus {src dst nc : Nat} {m : Memory} (hn : 0 < nc)
    (hbad : m.size < src + 2 * nc ∨ m.size < dst + 3 * nc) : ∃ m', loop nc (palupEntry src dst) m = .bus m' := by
  refine loop_bus (P := fun x => x.size = m.size) (j := nc - 1) rfl (fun i s s' hs he => ?_) (by omega) fun s hs => ?_
  · have := (palupEntry_within src dst i s).size
    rw [he] at this; exact this.trans hs
  · simp only [palupEntry]
    split
    · rename_i hi lo h1 h2
      have := (Memory.read_eq_some_iff.mp h2).1
      exact putTriplet_bus (by omega)
    · exact ⟨s, rfl⟩

theorem paldef_bus {dst nc : Nat} {m : Memory} (hn : 0 < nc) (hbad : m.size < dst + 2 * nc) :
    ∃ m', loop nc (paldefEntry dst) m = .bus m' := by
  refine loop_bus (P := fun x => x.size = m.size) (j := nc - 1) rfl (fun i s s' hs he => ?_) (by omega) fun s hs => ?_
  · exact (putWord_size he).trans hs
  · exact putWord_bus (by omega)

/-- 43_palette.md R230: the three verdicts. -/
theorem detect_cases (f p nc : Nat) :
    (f = p + nc * 2 ∧ detect f p nc = .present) ∨ (f ≠ p + nc * 2 ∧ f = p ∧ detect f p nc = .absent) ∨
      (f ≠ p + nc * 2 ∧ f ≠ p ∧ detect f p nc = .sizeMismatch) := by
  by_cases h1 : f = p + nc * 2
  · exact .inl ⟨h1, by simp only [detect, if_pos h1]⟩
  · by_cases h2 : f = p
    · exact .inr (.inl ⟨h1, h2, by simp only [detect, if_neg h1, if_pos h2]⟩)
    · exact .inr (.inr ⟨h1, h2, by simp only [detect, if_neg h1, if_neg h2]⟩)

end Sys2Proof.Machine
end

