-- ==== Sys2Proof/Laws/PerInstr.lean ====
section
/-! SUPPORT. A statement about every instruction as syntax, one lemma per constructor. -/

namespace Sys2Proof.Laws.EncodedLevel

/-- 30_encoding.md R99, R104: an instruction's code is a control byte exactly where the opcode table gives it the stream
level, and a command code otherwise. -/
def Statement (i : Instr) : Prop :=
  (i.isStream = true ↔ ∃ c, encode i = .control c) ∧ (i.isStream = false ↔ ∃ w, encode i = .command w)

/-- A stream instruction's code is a control byte. -/
theorem stream {i : Instr} {c : Byte} (hs : i.isStream = true) (he : encode i = .control c) : Statement i :=
  ⟨⟨fun _ => ⟨c, he⟩, fun _ => hs⟩, ⟨fun h => (by rw [hs] at h; cases h), fun ⟨w, h⟩ => (by rw [he] at h; cases h)⟩⟩

/-- A command's code is a command code. -/
theorem command {i : Instr} {w : Word} (hs : i.isStream = false) (he : encode i = .command w) : Statement i :=
  ⟨⟨fun h => (by rw [hs] at h; cases h), fun ⟨c, h⟩ => (by rw [he] at h; cases h)⟩, ⟨fun _ => ⟨w, he⟩, fun _ => hs⟩⟩

theorem lit (n : BitVec 7) : Statement (.lit n) := stream rfl rfl
theorem nop : Statement .nop := stream rfl rfl
theorem rep (m : BitVec 7) : Statement (.rep m) := stream rfl rfl
theorem pbdec : Statement .pbdec := command rfl rfl
theorem pbenc : Statement .pbenc := command rfl rfl
theorem deint : Statement .deint := command rfl rfl
theorem intlv : Statement .intlv := command rfl rfl
theorem transp : Statement .transp := command rfl rfl
theorem chunky : Statement .chunky := command rfl rfl
theorem paldn : Statement .paldn := command rfl rfl
theorem palup : Statement .palup := command rfl rfl
theorem paldef : Statement .paldef := command rfl rfl
theorem paldet : Statement .paldet := command rfl rfl

end Sys2Proof.Laws.EncodedLevel
end

