-- ==== Sys2Proof/Laws/PlaneLayout.lean ====
section
/-! SUPPORT. What the loops of DEINT, INTLV, TRANSP and CHUNKY read and write. -/

namespace Sys2Proof.Machine

/-! ### Offsets -/

/-- A row number and an offset below the stride are determined by the offset in the buffer. -/
theorem digits_inj {r q q' k k' : Nat} (hk : k < r) (hk' : k' < r) (h : q * r + k = q' * r + k') : q = q' ∧ k = k' := by
  have hq : q = q' := by
    have h1 : (q * r + k) / r = q := by
      rw [Nat.mul_comm, Nat.mul_add_div (by omega), Nat.div_eq_of_lt hk, Nat.add_zero]
    have h2 : (q' * r + k') / r = q' := by
      rw [Nat.mul_comm, Nat.mul_add_div (by omega), Nat.div_eq_of_lt hk', Nat.add_zero]
    rw [← h1, h, h2]
  subst hq
  exact ⟨rfl, by omega⟩

theorem digits_lt {r n q k : Nat} (hq : q < n) (hk : k < r) : q * r + k < n * r := by
  have := Nat.mul_le_mul_right r (show q + 1 ≤ n by omega)
  rw [Nat.succ_mul] at this
  omega

/-- 20_memory.md R71, R72: the number of row `y` of plane `p` in a layout. -/
theorem Geometry.off_eq (g : Geometry) (l : Layout) (rb y p k : Nat) :
    g.off l rb y p k = (match l with | .interleaved => y * g.np + p | .nonInterleaved => p * g.h + y) * rb + k := by
  cases l <;> rfl

theorem Geometry.off_inj {g : Geometry} {l : Layout} {rb y p k y' p' k' : Nat} (hy : y < g.h) (hp : p < g.np)
    (hk : k < rb) (hy' : y' < g.h) (hp' : p' < g.np) (hk' : k' < rb) (h : g.off l rb y p k = g.off l rb y' p' k') :
    y = y' ∧ p = p' ∧ k = k' := by
  rw [Geometry.off_eq, Geometry.off_eq] at h
  obtain ⟨hr, hkk⟩ := digits_inj hk hk' h
  cases l with
  | interleaved => obtain ⟨h1, h2⟩ := digits_inj hp hp' hr; exact ⟨h1, h2, hkk⟩
  | nonInterleaved => obtain ⟨h1, h2⟩ := digits_inj hy hy' hr; exact ⟨h2, h1, hkk⟩

theorem Geometry.off_lt {g : Geometry} {l : Layout} {rb y p k : Nat} (hy : y < g.h) (hp : p < g.np) (hk : k < rb) :
    g.off l rb y p k < g.np * rb * g.h := by
  rw [Geometry.off_eq]
  have hrow : (match l with | .interleaved => y * g.np + p | .nonInterleaved => p * g.h + y) < g.np * g.h := by
    cases l with
    | interleaved => have := digits_lt hy hp; rwa [Nat.mul_comm g.np]
    | nonInterleaved => exact digits_lt hp hy
  have := digits_lt hrow hk
  rwa [show g.np * g.h * rb = g.np * rb * g.h by rw [Nat.mul_assoc, Nat.mul_comm g.h, ← Nat.mul_assoc]] at this

/-- R70: a row of one pixel or more has two bytes or more. -/
theorem rowBytes_pos {w : Nat} (h : 1 ≤ w) : 2 ≤ rowBytes w := by
  simp only [rowBytes]; omega

/-- R195: the plane byte of a column of the row lies in the padded row. -/
theorem column_lt_rowBytes {x w : Nat} (h : x < w) : x / 8 < rowBytes w := by
  simp only [rowBytes]; omega

/-! ### Zero-extending row reads -/

/-- 20_memory.md R81: a row read of a byte of the source extent is defined inside M. -/
theorem rowRead_some {g : Geometry} {l : Layout} {y p k : Nat} {m : Memory} (hy : y < g.h) (hp : p < g.np)
    (hs : g.src + g.np * g.sb * g.h ≤ m.size) :
    rowRead g l y p k m = some (if k < g.sb then m.byteAt (g.src + g.off l g.sb y p k) else 0#8) := by
  by_cases hk : k < g.sb
  · have := Geometry.off_lt (l := l) hy hp hk
    simp only [rowRead, if_pos hk]
    exact Memory.read_of_lt (by omega)
  · simp [rowRead, hk]

/-- A row read depends on MEMSIZE and on bytes of the source extent only. -/
theorem rowRead_congr {g : Geometry} {l : Layout} {y p k : Nat} {m m' : Memory} (hy : y < g.h) (hp : p < g.np)
    (hs : m'.size = m.size)
    (hb : ∀ a, g.src ≤ a → a < g.src + g.np * g.sb * g.h → m'.byteAt a = m.byteAt a) :
    rowRead g l y p k m' = rowRead g l y p k m := by
  by_cases hk : k < g.sb
  · have := Geometry.off_lt (l := l) hy hp hk
    simp only [rowRead, if_pos hk]
    exact Memory.read_congr hs (hb _ (by omega) (by omega))
  · simp [rowRead, hk]

/-! ### Re-blocking -/

/-- 42_plane_layout.md R175, R181: what a re-blocking with both extents inside M and disjoint writes. -/
theorem reblock_writes {g : Geometry} {l l' : Layout} {m : Memory} (hs : g.src + g.np * g.sb * g.h ≤ m.size)
    (hdst : g.dst + g.np * g.rb * g.h ≤ m.size)
    (ha : g.src + g.np * g.sb * g.h ≤ g.dst ∨ g.dst + g.np * g.rb * g.h ≤ g.src) :
    ∃ m', reblock g l l' m = .ok m' ∧
      Memory.Writes (fun a b => ∃ y, y < g.h ∧ ∃ p, p < g.np ∧ ∃ k, k < g.rb ∧ a = g.dst + g.off l' g.rb y p k ∧
        rowRead g l y p k m = some b) m m' := by
  have hnot : ∀ y p k a, y < g.h → p < g.np → k < g.rb → a = g.dst + g.off l' g.rb y p k →
      ¬ (g.src ≤ a ∧ a < g.src + g.np * g.sb * g.h) := by
    intro y p k a hy hp hk he hc
    have := Geometry.off_lt (l := l') hy hp hk
    omega
  refine loop_writes (A := fun a => g.src ≤ a ∧ a < g.src + g.np * g.sb * g.h)
    (P := fun y a b => ∃ p, p < g.np ∧ ∃ k, k < g.rb ∧ a = g.dst + g.off l' g.rb y p k ∧ rowRead g l y p k m = some b)
    (fun y a b hy ⟨p, hp, k, hk, he, _⟩ => hnot y p k a hy hp hk he) ?_ ?_
  · rintro y y' a b b' hlt hy' ⟨p, hp, k, hk, he, _⟩ ⟨p', hp', k', hk', he', _⟩
    have := Geometry.off_inj (by omega) hp hk hy' hp' hk' (show g.off l' g.rb y p k = g.off l' g.rb y' p' k' by omega)
    omega
  intro y m1 hy hsz1 hb1
  refine loop_writes (A := fun a => g.src ≤ a ∧ a < g.src + g.np * g.sb * g.h)
    (P := fun p a b => ∃ k, k < g.rb ∧ a = g.dst + g.off l' g.rb y p k ∧ rowRead g l y p k m = some b)
    (fun p a b hp ⟨k, hk, he, _⟩ => hnot y p k a hy hp hk he) ?_ ?_
  · rintro p p' a b b' hlt hp' ⟨k, hk, he, _⟩ ⟨k', hk', he', _⟩
    have := Geometry.off_inj hy (by omega) hk hy hp' hk' (show g.off l' g.rb y p k = g.off l' g.rb y p' k' by omega)
    omega
  intro p m2 hp hsz2 hb2
  refine loop_writes (A := fun a => g.src ≤ a ∧ a < g.src + g.np * g.sb * g.h)
    (P := fun k a b => a = g.dst + g.off l' g.rb y p k ∧ rowRead g l y p k m = some b)
    (fun k a b hk ⟨he, _⟩ => hnot y p k a hy hp hk he) ?_ ?_
  · rintro k k' a b b' hlt hk' ⟨he, _⟩ ⟨he', _⟩
    have := Geometry.off_inj hy hp (by omega) hy hp hk' (show g.off l' g.rb y p k = g.off l' g.rb y p k' by omega)
    omega
  intro k m3 hk hsz3 hb3
  have hlt := Geometry.off_lt (l := l') hy hp hk
  have hsz : m3.size = m.size := by omega
  have hr : rowRead g l y p k m3 = rowRead g l y p k m :=
    rowRead_congr hy hp hsz fun a h1 h2 => by rw [hb3 a ⟨h1, h2⟩, hb2 a ⟨h1, h2⟩, hb1 a ⟨h1, h2⟩]
  have hv := rowRead_some (l := l) (k := k) hy hp hs
  obtain ⟨m4, he4, hw4⟩ := store_writes (a := g.dst + g.off l' g.rb y p k) (m := m3) (hr.trans hv) (by omega)
  refine ⟨m4, he4, hw4.congr fun a b => ⟨fun ⟨h1, h2⟩ => ⟨h1, by rw [hv, h2]⟩, fun ⟨h1, h2⟩ => ⟨h1, ?_⟩⟩⟩
  rw [hv] at h2
  exact (Option.some.inj h2).symm

/-- A re-blocking, however it ends, writes only its destination extent. -/
theorem reblock_within (g : Geometry) (l l' : Layout) (m : Memory) :
    Memory.Within g.dst (g.dst + g.np * g.rb * g.h) m (reblock g l l' m).reached := by
  refine loop_reached (P := Memory.Within g.dst (g.dst + g.np * g.rb * g.h) m) (.refl _ _ _) fun y m1 hy h1 => ?_
  refine loop_reached h1 fun p m2 hp h2 => loop_reached h2 fun k m3 hk h3 => ?_
  have := Geometry.off_lt (l := l') hy hp hk
  exact h3.trans (store_within _ _ (by omega) (by omega))

/-- A re-blocking one of whose accesses lies outside M ends in BusError. -/
theorem reblock_bus {g : Geometry} {l l' : Layout} {m : Memory} {y p k : Nat} (hy : y < g.h) (hp : p < g.np)
    (hk : k < g.rb)
    (hbad : (k < g.sb ∧ m.size ≤ g.src + g.off l g.sb y p k) ∨ m.size ≤ g.dst + g.off l' g.rb y p k) :
    ∃ m', reblock g l l' m = .bus m' := by
  refine loop_bus (P := fun x => x.size = m.size) rfl (fun i s s' hs he => ?_) hy fun s hs => ?_
  · rw [loop_size (fun i m m' h => loop_size (fun i m m' h => store_size h) h) he, hs]
  refine loop_bus (P := fun x => x.size = m.size) hs (fun i s s' hs he => ?_) hp fun s hs => ?_
  · rw [loop_size (fun i m m' h => store_size h) he, hs]
  refine loop_bus (P := fun x => x.size = m.size) hs (fun i s s' hs he => ?_) hk fun s hs => ?_
  · rw [store_size he, hs]
  refine ⟨s, ?_⟩
  rcases hbad with ⟨h1, h2⟩ | h2
  · have : rowRead g l y p k s = none := by
      rw [rowRead, if_pos h1]; exact Memory.read_eq_none_iff.mpr (by omega)
    simp [store, this]
  · cases hv : rowRead g l y p k s with
    | none => rfl
    | some b => exact put_of_le b (by omega)

/-! ### Column transpose -/

/-- 42_plane_layout.md R187: the offset of an entry's byte in the source. -/
theorem Columns.source_lt {t : Columns} {y c k : Nat} (hy : y < t.rows) (hc : c < t.cols) (hk : k < t.cw) :
    (c * t.rows + y) * t.cw + k < t.cols * t.rows * t.cw :=
  digits_lt (digits_lt hc hy) hk

/-- R187: the offset of an entry's byte in its output row. -/
theorem Columns.entry_lt {t : Columns} {c k : Nat} (hc : c < t.cols) (hk : k < t.cw) : c * t.cw + k < t.cols * t.cw :=
  digits_lt hc hk

/-- R187: what one output row with every access inside M writes. -/
theorem transposeRow_writes {t : Columns} {y : Nat} {m : Memory} (hy : y < t.rows) (hok : t.cols * t.cw ≤ t.db)
    (hs : t.cols * t.rows * t.cw = 0 ∨ t.src + t.cols * t.rows * t.cw ≤ m.size)
    (hdst : t.rows * t.db = 0 ∨ t.dst + t.rows * t.db ≤ m.size)
    (ha : t.cols * t.rows * t.cw = 0 ∨ t.rows * t.db = 0 ∨ t.src + t.cols * t.rows * t.cw ≤ t.dst ∨
      t.dst + t.rows * t.db ≤ t.src) :
    ∃ m', transposeRow t y m = .ok m' ∧
      Memory.Writes (fun a b => (∃ c, c < t.cols ∧ ∃ k, k < t.cw ∧ a = t.dst + y * t.db + c * t.cw + k ∧
          b = m.byteAt (t.src + (c * t.rows + y) * t.cw + k)) ∨
        (∃ k, t.cols * t.cw ≤ k ∧ k < t.db ∧ a = t.dst + y * t.db + k ∧ b = 0#8)) m m' := by
  have hrow := Nat.mul_le_mul_right t.db (show y + 1 ≤ t.rows by omega)
  rw [Nat.succ_mul] at hrow
  obtain ⟨m1, he1, hw1⟩ := loop_writes (m := m) (n := t.cols)
    (body := fun c => loop t.cw (fun k m =>
      store (t.dst + y * t.db + c * t.cw + k) (m.read (t.src + (c * t.rows + y) * t.cw + k)) m))
    (P := fun c a b => ∃ k, k < t.cw ∧ a = t.dst + y * t.db + c * t.cw + k ∧
      b = m.byteAt (t.src + (c * t.rows + y) * t.cw + k))
    (fun a => t.src ≤ a ∧ a < t.src + t.cols * t.rows * t.cw)
    (by
      rintro c a b hc ⟨k, hk, rfl, _⟩
      have h1 := Columns.entry_lt hc hk
      have h2 := Columns.source_lt hy hc hk
      omega)
    (by
      rintro c c' a b b' hlt hc' ⟨k, hk, he, _⟩ ⟨k', hk', he', _⟩
      have := digits_inj hk hk' (show c * t.cw + k = c' * t.cw + k' by omega)
      omega)
    (by
      intro c m1 hc hsz1 hb1
      refine loop_writes (A := fun a => t.src ≤ a ∧ a < t.src + t.cols * t.rows * t.cw)
        (P := fun k a b => a = t.dst + y * t.db + c * t.cw + k ∧ b = m.byteAt (t.src + (c * t.rows + y) * t.cw + k))
        ?_ ?_ ?_
      · rintro k a b hk ⟨rfl, _⟩
        have h1 := Columns.entry_lt hc hk
        have h2 := Columns.source_lt hy hc hk
        omega
      · rintro k k' a b b' hlt hk' ⟨he, _⟩ ⟨he', _⟩
        omega
      · intro k m2 hk hsz2 hb2
        have h1 := Columns.entry_lt hc hk
        have h2 := Columns.source_lt hy hc hk
        refine store_writes ?_ (by omega)
        rw [Memory.read_of_lt (by omega), hb2 _ (by omega), hb1 _ (by omega)])
  obtain ⟨m2, he2, hw2⟩ := loopFrom_writes (m := m1) (n := t.db - t.cols * t.cw) (start := t.cols * t.cw)
    (body := fun k => put (t.dst + y * t.db + k) 0#8)
    (P := fun k a b => a = t.dst + y * t.db + k ∧ b = 0#8) (fun _ => False) (fun _ _ _ _ _ _ h => h)
    (by rintro k k' a b b' _ hlt _ ⟨he, _⟩ ⟨he', _⟩; omega)
    (fun k m3 hk hk' hsz3 _ => put_writes (by have := hw1.size; omega))
  refine ⟨m2, by simp only [transposeRow, he1, Run.ok_andThen, he2], (hw1.append hw2 ?_).congr fun a b => ⟨?_, ?_⟩⟩
  · rintro a b b' ⟨c, hc, k, hk, he, _⟩ ⟨k', h1, _, he', _⟩
    have := Columns.entry_lt hc hk
    omega
  · rintro (h | ⟨k, h1, h2, h3, h4⟩)
    · exact .inl h
    · exact .inr ⟨k, h1, by omega, h3, h4⟩
  · rintro (h | ⟨k, h1, h2, h3, h4⟩)
    · exact .inl h
    · exact .inr ⟨k, h1, by omega, h3, h4⟩

/-- R187: what a transpose with both extents inside M and disjoint writes. -/
theorem transpose_writes {t : Columns} {m : Memory} (hok : t.cols * t.cw ≤ t.db)
    (hs : t.cols * t.rows * t.cw = 0 ∨ t.src + t.cols * t.rows * t.cw ≤ m.size)
    (hdst : t.rows * t.db = 0 ∨ t.dst + t.rows * t.db ≤ m.size)
    (ha : t.cols * t.rows * t.cw = 0 ∨ t.rows * t.db = 0 ∨ t.src + t.cols * t.rows * t.cw ≤ t.dst ∨
      t.dst + t.rows * t.db ≤ t.src) :
    ∃ m', loop t.rows (transposeRow t) m = .ok m' ∧
      Memory.Writes (fun a b => ∃ y, y < t.rows ∧
        ((∃ c, c < t.cols ∧ ∃ k, k < t.cw ∧ a = t.dst + y * t.db + c * t.cw + k ∧
          b = m.byteAt (t.src + (c * t.rows + y) * t.cw + k)) ∨
        (∃ k, t.cols * t.cw ≤ k ∧ k < t.db ∧ a = t.dst + y * t.db + k ∧ b = 0#8))) m m' := by
  have hin : ∀ y a b, ((∃ c, c < t.cols ∧ ∃ k, k < t.cw ∧ a = t.dst + y * t.db + c * t.cw + k ∧
        b = m.byteAt (t.src + (c * t.rows + y) * t.cw + k)) ∨
      (∃ k, t.cols * t.cw ≤ k ∧ k < t.db ∧ a = t.dst + y * t.db + k ∧ b = 0#8)) →
      ∃ k, k < t.db ∧ a = t.dst + (y * t.db + k) := by
    rintro y a b (⟨c, hc, k, hk, he, _⟩ | ⟨k, _, hk, he, _⟩)
    · have := Columns.entry_lt hc hk
      exact ⟨c * t.cw + k, by omega, by omega⟩
    · exact ⟨k, hk, by omega⟩
  refine loop_writes (A := fun a => t.src ≤ a ∧ a < t.src + t.cols * t.rows * t.cw)
    (P := fun y a b => (∃ c, c < t.cols ∧ ∃ k, k < t.cw ∧ a = t.dst + y * t.db + c * t.cw + k ∧
          b = m.byteAt (t.src + (c * t.rows + y) * t.cw + k)) ∨
        (∃ k, t.cols * t.cw ≤ k ∧ k < t.db ∧ a = t.dst + y * t.db + k ∧ b = 0#8)) ?_ ?_ ?_
  · intro y a b hy hp hA
    obtain ⟨k, hk, rfl⟩ := hin y a b hp
    have := digits_lt hy hk
    omega
  · intro y y' a b b' hlt hy' hp hp'
    obtain ⟨k, hk, he⟩ := hin y a b hp
    obtain ⟨k', hk', he'⟩ := hin y' a b' hp'
    have := digits_inj hk hk' (show y * t.db + k = y' * t.db + k' by omega)
    omega
  · intro y m1 hy hsz hb
    obtain ⟨m2, he, hw⟩ := transposeRow_writes hy hok (m := m1) (by omega) (by omega) ha
    refine ⟨m2, he, hw.congr fun a b => ?_⟩
    have : ∀ c k, c < t.cols → k < t.cw → m1.byteAt (t.src + (c * t.rows + y) * t.cw + k) =
        m.byteAt (t.src + (c * t.rows + y) * t.cw + k) := by
      intro c k hc hk
      have := Columns.source_lt hy hc hk
      exact hb _ (by omega)
    constructor
    · rintro (⟨c, hc, k, hk, h1, h2⟩ | h)
      · exact .inl ⟨c, hc, k, hk, h1, by rw [h2, this c k hc hk]⟩
      · exact .inr h
    · rintro (⟨c, hc, k, hk, h1, h2⟩ | h)
      · exact .inl ⟨c, hc, k, hk, h1, by rw [h2, this c k hc hk]⟩
      · exact .inr h

/-- A transpose, however it ends, writes only its destination extent. -/
theorem transpose_within {t : Columns} (hok : t.cols * t.cw ≤ t.db) (m : Memory) :
    Memory.Within t.dst (t.dst + t.rows * t.db) m (loop t.rows (transposeRow t) m).reached := by
  refine loop_reached (P := Memory.Within t.dst (t.dst + t.rows * t.db) m) (.refl _ _ _) fun y m1 hy h1 => ?_
  have hrow := Nat.mul_le_mul_right t.db (show y + 1 ≤ t.rows by omega)
  rw [Nat.succ_mul] at hrow
  refine Run.reached_andThen (P := Memory.Within t.dst (t.dst + t.rows * t.db) m) ?_ fun m2 _ h2 => ?_
  · refine loop_reached h1 fun c m2 hc h2 => loop_reached h2 fun k m3 hk h3 => ?_
    have := Columns.entry_lt hc hk
    exact h3.trans (store_within _ _ (by omega) (by omega))
  · refine loopFrom_reached h2 fun k m3 hk hk' h3 => h3.trans (put_within _ _ (by omega) (by omega))

theorem transposeRow_size {t : Columns} {y : Nat} {m m' : Memory} (h : transposeRow t y m = .ok m') :
    m'.size = m.size := by
  simp only [transposeRow] at h
  cases h1 : loop t.cols (fun c => loop t.cw (fun k m =>
      store (t.dst + y * t.db + c * t.cw + k) (m.read (t.src + (c * t.rows + y) * t.cw + k)) m)) m with
  | bus s => rw [h1] at h; cases h
  | ok s =>
    rw [h1, Run.ok_andThen] at h
    have h2 := loop_size (fun i m m' h => loop_size (fun i m m' h => store_size h) h) h1
    have h3 := loopFrom_size (fun i m m' h => store_size (v := some 0#8) h) h
    rw [h3, h2]

/-- A transpose one of whose accesses lies outside M ends in BusError: an entry's read, or a byte of an output row. -/
theorem transpose_bus {t : Columns} {m : Memory} {y k : Nat} (hok : t.cols * t.cw ≤ t.db) (hy : y < t.rows)
    (hbad : (∃ c, c < t.cols ∧ k < t.cw ∧ m.size ≤ t.src + (c * t.rows + y) * t.cw + k) ∨
      (k < t.db ∧ m.size ≤ t.dst + y * t.db + k)) :
    ∃ m', loop t.rows (transposeRow t) m = .bus m' := by
  refine loop_bus (P := fun x => x.size = m.size) rfl (fun i s s' hs he => by rw [transposeRow_size he, hs]) hy
    fun s hs => ?_
  have hentry : ∀ c k, c < t.cols → k < t.cw →
      (m.size ≤ t.src + (c * t.rows + y) * t.cw + k ∨ m.size ≤ t.dst + y * t.db + c * t.cw + k) →
      ∃ s', transposeRow t y s = .bus s' := by
    intro c k hc hk hb
    obtain ⟨s', he⟩ := loop_bus (n := t.cols) (s := s) (body := fun c => loop t.cw (fun k m =>
        store (t.dst + y * t.db + c * t.cw + k) (m.read (t.src + (c * t.rows + y) * t.cw + k)) m))
      (P := fun x => x.size = m.size) hs
      (fun i s s' hs he => by rw [loop_size (fun i m m' h => store_size h) he, hs]) hc fun s hs => by
        refine loop_bus (P := fun x => x.size = m.size) hs (fun i s s' hs he => by rw [store_size he, hs]) hk
          fun s hs => ⟨s, ?_⟩
        rcases hb with hb | hb
        · rw [Memory.read_eq_none_iff.mpr (by omega)]; rfl
        · cases s.read (t.src + (c * t.rows + y) * t.cw + k) with
          | none => rfl
          | some b => exact put_of_le b (by omega)
    exact ⟨s', by simp only [transposeRow, he, Run.bus_andThen]⟩
  rcases hbad with ⟨c, hc, hk, hb⟩ | ⟨hk, hb⟩
  · exact hentry c k hc hk (.inl hb)
  · by_cases hpad : t.cols * t.cw ≤ k
    · cases h1 : loop t.cols (fun c => loop t.cw (fun k m =>
          store (t.dst + y * t.db + c * t.cw + k) (m.read (t.src + (c * t.rows + y) * t.cw + k)) m)) s with
      | bus s' => exact ⟨s', by simp only [transposeRow, h1, Run.bus_andThen]⟩
      | ok s1 =>
        have h2 := loop_size (fun i m m' h => loop_size (fun i m m' h => store_size h) h) h1
        obtain ⟨s', he⟩ := loopFrom_bus (P := fun x => x.size = m.size) (n := t.db - t.cols * t.cw)
          (body := fun k => put (t.dst + y * t.db + k) 0#8) (j := k) (h2.trans hs)
          (fun i s s' hs he => (store_size (v := some 0#8) he).trans hs) hpad (by omega)
          fun s hs => ⟨s, put_of_le _ (by omega)⟩
        exact ⟨s', by simp only [transposeRow, h1, Run.ok_andThen, he]⟩
    · have hcw : 0 < t.cw := by
        rcases Nat.eq_zero_or_pos t.cw with h0 | h0
        · rw [h0] at hpad; omega
        · exact h0
      have hdiv := Nat.div_add_mod k t.cw
      rw [Nat.mul_comm] at hdiv
      refine hentry (k / t.cw) (k % t.cw) (Nat.div_lt_of_lt_mul ?_) (Nat.mod_lt _ hcw) (.inr (by omega))
      rw [Nat.mul_comm]; omega

/-! ### Planar to chunky -/

/-- 42_plane_layout.md R195: a column's bit of a plane byte, as the byte 0 or 1. -/
theorem columnBit_getLsbD (b : Byte) (x j : Nat) :
    (columnBit b x).getLsbD j = (decide (j = 0) && b.getLsbD (7 - x % 8)) := by
  simp only [columnBit, BitVec.getLsbD_and, BitVec.getLsbD_ushiftRight]
  by_cases hj : j = 0
  · subst hj; simp
  · have : (1#8).getLsbD j = false := by
      rw [BitVec.getLsbD_one]
      simp [hj]
    simp [hj, this]

/-- R195: bit `j` of the pixel value is the bit of plane `j`; the bits from `np` on are 0. -/
theorem pixel_some {g : Geometry} {l : Layout} {x y np : Nat} {m : Memory} (hnp : np ≤ 8)
    (row : Nat → Byte) (hr : ∀ p, p < np → rowRead g l y p (x / 8) m = some (row p)) :
    ∃ v, pixel g l x y m np = some v ∧
      ∀ j, v.getLsbD j = (decide (j < np) && (row j).getLsbD (7 - x % 8)) := by
  induction np with
  | zero => exact ⟨0#8, rfl, fun j => by simp⟩
  | succ p ih =>
    obtain ⟨v, he, hv⟩ := ih (by omega) fun q hq => hr q (by omega)
    refine ⟨v ||| (columnBit (row p) x <<< p), by simp only [pixel, he, hr p (by omega)], fun j => ?_⟩
    rw [BitVec.getLsbD_or, hv, BitVec.getLsbD_shiftLeft, columnBit_getLsbD]
    by_cases hj : j = p
    · subst hj
      have h8 : j < 8 := by omega
      simp [h8]
    · by_cases hlt : j < p
      · have h1 : ¬ j - p = 0 ∨ j < p := .inr hlt
        simp [hlt, show j < p + 1 by omega]
      · have h1 : ¬ j - p = 0 := by omega
        simp [hlt, h1, show ¬ j < p + 1 by omega]

/-- A pixel one of whose plane bytes lies outside M has no value. -/
theorem pixel_none {g : Geometry} {l : Layout} {x y np p : Nat} {m : Memory} (hp : p < np)
    (hr : rowRead g l y p (x / 8) m = none) : pixel g l x y m np = none := by
  induction np with
  | zero => omega
  | succ q ih =>
    by_cases hpq : p = q
    · subst hpq
      simp only [pixel, hr]
      split <;> simp_all
    · simp only [pixel, ih (by omega)]

/-- A pixel depends on its plane bytes only. -/
theorem pixel_congr {g : Geometry} {l : Layout} {x y np : Nat} {m m' : Memory}
    (hr : ∀ p, p < np → rowRead g l y p (x / 8) m' = rowRead g l y p (x / 8) m) :
    pixel g l x y m' np = pixel g l x y m np := by
  induction np with
  | zero => rfl
  | succ p ih => simp only [pixel, ih fun q hq => hr q (by omega), hr p (by omega)]

/-- R196: output bits `2b` and `2b+1` are both bit `b`, for `b` below 4. -/
theorem double4_getLsbD (v : Byte) (j : Nat) (hj : j < 8) : (double4 v).getLsbD j = v.getLsbD (j / 2) := by
  have h : ∀ (v : Byte) (j : Fin 8), (double4 v).getLsbD j = v.getLsbD (j.val / 2) := by decide
  exact h v ⟨j, hj⟩

/-- R194: what CHUNKY's loops write where every pixel has a value, the surface lies inside M, and no byte of it is one
the pixels are read from (`A`). -/
theorem chunkyLoop_writes {g : Geometry} {l : Layout} {dbl : Bool} {m : Memory} (A : Nat → Prop)
    (hA : ∀ x y p, x < g.w → y < g.h → p < g.np → x / 8 < g.sb → A (g.src + g.off l g.sb y p (x / 8)))
    (hdst : g.dst + g.w * g.h ≤ m.size) (hd : ∀ a, g.dst ≤ a → a < g.dst + g.w * g.h → ¬ A a)
    (hv : ∀ x y, x < g.w → y < g.h → ∃ v, pixel g l x y m g.np = some v) :
    ∃ m', chunkyLoop g l dbl m = .ok m' ∧
      Memory.Writes (fun a b => ∃ y, y < g.h ∧ ∃ x, x < g.w ∧ a = g.dst + (y * g.w + x) ∧
        (pixel g l x y m g.np).map (chunkyByte dbl) = some b) m m' := by
  have hlt : ∀ x y, x < g.w → y < g.h → y * g.w + x < g.w * g.h := fun x y hx hy => by
    rw [Nat.mul_comm g.w]; exact digits_lt hy hx
  refine loop_writes (A := A) (P := fun y a b => ∃ x, x < g.w ∧ a = g.dst + (y * g.w + x) ∧
    (pixel g l x y m g.np).map (chunkyByte dbl) = some b) ?_ ?_ ?_
  · rintro y a b hy ⟨x, hx, rfl, _⟩
    have := hlt x y hx hy
    exact hd _ (by omega) (by omega)
  · rintro y y' a b b' hyy hy' ⟨x, hx, he, _⟩ ⟨x', hx', he', _⟩
    have := digits_inj hx hx' (show y * g.w + x = y' * g.w + x' by omega)
    omega
  intro y m1 hy hsz1 hb1
  refine loop_writes (A := A) (P := fun x a b => a = g.dst + (y * g.w + x) ∧
    (pixel g l x y m g.np).map (chunkyByte dbl) = some b) ?_ ?_ ?_
  · rintro x a b hx ⟨rfl, _⟩
    have := hlt x y hx hy
    exact hd _ (by omega) (by omega)
  · rintro x x' a b b' _ _ ⟨he, _⟩ ⟨he', _⟩
    omega
  intro x m2 hx hsz2 hb2
  have := hlt x y hx hy
  have hp : pixel g l x y m2 g.np = pixel g l x y m g.np := by
    refine pixel_congr fun p hp => ?_
    by_cases hk : x / 8 < g.sb
    · have hmem := hA x y p hx hy hp hk
      simp only [rowRead, if_pos hk]
      exact Memory.read_congr (by omega) (by rw [hb2 _ hmem, hb1 _ hmem])
    · simp [rowRead, hk]
  obtain ⟨v, hv⟩ := hv x y hx hy
  rw [hp, hv]
  obtain ⟨m3, he3, hw3⟩ := store_writes (a := g.dst + (y * g.w + x)) (m := m2)
    (show (some v).map (chunkyByte dbl) = some (chunkyByte dbl v) from rfl) (by omega)
  exact ⟨m3, he3, hw3.congr fun a b => ⟨fun ⟨h1, h2⟩ => ⟨h1, by rw [h2]; rfl⟩,
    fun ⟨h1, h2⟩ => ⟨h1, (Option.some.inj h2).symm⟩⟩⟩

/-- CHUNKY's loops, however they end, write only the surface. -/
theorem chunkyLoop_within (g : Geometry) (l : Layout) (dbl : Bool) (m : Memory) :
    Memory.Within g.dst (g.dst + g.w * g.h) m (chunkyLoop g l dbl m).reached := by
  refine loop_reached (P := Memory.Within g.dst (g.dst + g.w * g.h) m) (.refl _ _ _) fun y m1 hy h1 => ?_
  refine loop_reached h1 fun x m2 hx h2 => ?_
  have : y * g.w + x < g.w * g.h := by rw [Nat.mul_comm g.w]; exact digits_lt hy hx
  exact h2.trans (store_within _ _ (by omega) (by omega))

/-- CHUNKY's loops end in BusError where a pixel has no value or a byte of the surface lies outside M. -/
theorem chunkyLoop_bus {g : Geometry} {l : Layout} {dbl : Bool} {m : Memory} {x y : Nat} (hx : x < g.w) (hy : y < g.h)
    (hbad : (∃ p, p < g.np ∧ x / 8 < g.sb ∧ m.size ≤ g.src + g.off l g.sb y p (x / 8)) ∨
      m.size ≤ g.dst + (y * g.w + x)) : ∃ m', chunkyLoop g l dbl m = .bus m' := by
  refine loop_bus (P := fun s => s.size = m.size) rfl (fun i s s' hs he => ?_) hy fun s hs => ?_
  · rw [loop_size (fun i m m' h => store_size h) he, hs]
  refine loop_bus (P := fun s => s.size = m.size) hs (fun i s s' hs he => ?_) hx fun s hs => ?_
  · rw [store_size he, hs]
  refine ⟨s, ?_⟩
  rcases hbad with ⟨p, hp, hk, h⟩ | h
  · have hr : rowRead g l y p (x / 8) s = none := by
      rw [rowRead, if_pos hk]; exact Memory.read_eq_none_iff.mpr (by omega)
    simp [pixel_none hp hr, store]
  · cases pixel g l x y s g.np with
    | none => rfl
    | some v => exact put_of_le _ (by omega)

end Sys2Proof.Machine
end

