-- ==== Sys2Proof/Laws/Stream.lean ====
section
/-! SUPPORT. What a group, a turn and a run of turns of PBDEC do. -/

namespace Sys2Proof.Machine

theorem countWord_eq {n : Nat} (h : n < 4294967296) : countWord n = BitVec.ofNat 32 n := by simp [countWord, h]

/-! ### Control bytes and groups -/

/-- 30_encoding.md R97: the control byte of a literal of `m` bytes decodes to the LIT of `m` bytes. -/
theorem decodeControl_literal {m : Nat} (h1 : 1 ≤ m) (h2 : m ≤ 128) :
    decodeControl (literalControl m) = .lit (BitVec.ofNat 7 (m - 1)) ∧ litCount (BitVec.ofNat 7 (m - 1)) = m := by
  have h : ∀ m : Fin 129, 1 ≤ m.val →
      decodeControl (literalControl m) = .lit (BitVec.ofNat 7 (m - 1)) ∧ litCount (BitVec.ofNat 7 (m.val - 1)) = m := by
    decide
  exact h ⟨m, by omega⟩ h1

/-- R97: the control byte of a repeat of `r` decodes to the REP of `r`. -/
theorem decodeControl_repeat {r : Nat} (h1 : 2 ≤ r) (h2 : r ≤ 128) :
    decodeControl (repeatControl r) = .rep (BitVec.ofNat 7 (129 - r)) ∧ repCount (BitVec.ofNat 7 (129 - r)) = r := by
  have h : ∀ r : Fin 129, 2 ≤ r.val →
      decodeControl (repeatControl r) = .rep (BitVec.ofNat 7 (129 - r)) ∧ repCount (BitVec.ofNat 7 (129 - r.val)) = r := by
    decide
  exact h ⟨r, by omega⟩ h1

/-- R129: the branch of PBDEC's loop is the meaning of the instruction the control byte decodes to. -/
theorem exec_decodeControl (c : Byte) (s : State) : exec (decodeControl c) s = .next (runGroup c s) := by
  unfold decodeControl runGroup
  split
  · rfl
  · split <;> rfl

theorem runGroup_lit {c : Byte} {n : BitVec 7} (h : decodeControl c = .lit n) (s : State) :
    runGroup c s = litGroup n s := by
  have := exec_decodeControl c s
  rw [h] at this
  exact (Host.Outcome.next.inj this).symm

theorem runGroup_rep {c : Byte} {m : BitVec 7} (h : decodeControl c = .rep m) (s : State) :
    runGroup c s = repGroup m s := by
  have := exec_decodeControl c s
  rw [h] at this
  exact (Host.Outcome.next.inj this).symm

theorem Group.assemble_pos (g : Group) : 1 ≤ g.assemble.length := by cases g <;> simp [Group.assemble]

theorem length_le_assembleAll (gs : List Group) : gs.length ≤ (assembleAll gs).length := by
  induction gs with
  | nil => simp [assembleAll]
  | cons g gs ih => have := Group.assemble_pos g; simp [assembleAll]; omega

theorem length_outputAll_take (gs : List Group) (i : Nat) :
    (outputAll (gs.take i)).length ≤ (outputAll gs).length := by
  induction gs generalizing i with
  | nil => simp [outputAll]
  | cons g gs ih =>
    cases i with
    | zero => simp [outputAll]
    | succ i => simp [outputAll, ih]

/-- R122 to R124: a whole group that fits the row and the source, with every access inside M, writes its output. -/
theorem runGroup_whole {g : Group} (hg : g.wf = true) {s : State} {c : Byte} (hc : g.assemble[0]? = some c)
    (hpc : s.pc + g.assemble.length ≤ s.latch.srclen.toNat) (hq : s.q + g.output.length ≤ s.latch.len.toNat)
    (hb : ∀ j b, g.assemble[j]? = some b → s.mem.read (s.latch.src.toNat + s.pc + j) = some b)
    (hd : g.output.length = 0 ∨ s.latch.dst.toNat + s.q + g.output.length ≤ s.mem.size)
    (ha : s.latch.srclen.toNat = 0 ∨ s.latch.len.toNat = 0 ∨
      s.latch.src.toNat + s.latch.srclen.toNat ≤ s.latch.dst.toNat ∨
      s.latch.dst.toNat + s.latch.len.toNat ≤ s.latch.src.toNat) :
    ∃ m', runGroup c s = s.withCursor { pc := s.pc + g.assemble.length, q := s.q + g.output.length, mem := m' } ∧
      (∀ j b, g.output[j]? = some b → m'.byteAt (s.latch.dst.toNat + s.q + j) = b) ∧
      Memory.Within (s.latch.dst.toNat + s.q) (s.latch.dst.toNat + s.q + g.output.length) s.mem m' := by
  cases g with
  | nop =>
    simp only [Group.assemble, List.getElem?_cons_zero, Option.some.injEq] at hc
    subst hc
    exact ⟨s.mem, rfl, by simp [Group.output], .refl _ _ _⟩
  | lit bytes =>
    simp only [Group.wf, Bool.and_eq_true, Config.maxRun] at hg
    have hl1 := of_decide_eq_true hg.1
    have hl2 := of_decide_eq_true hg.2
    obtain ⟨h1, h2⟩ := decodeControl_literal hl1 hl2
    simp only [Group.assemble, List.getElem?_cons_zero, Option.some.injEq] at hc
    subst hc
    simp only [Group.assemble, Group.output, List.length_cons] at *
    rw [runGroup_lit h1]
    have hlast := hb bytes.length bytes[bytes.length - 1] (by
      obtain ⟨x, hx⟩ : ∃ x, bytes.length = x + 1 := ⟨bytes.length - 1, by omega⟩
      simp [hx])
    have hsz := (Memory.read_eq_some_iff.mp hlast).1
    obtain ⟨m', he, hco, hw⟩ := copyLiteral_ok (src := s.latch.src.toNat) (n := s.latch.srclen.toNat)
      (dst := s.latch.dst.toNat) (k := bytes.length) (t := bytes.length)
      (c := { pc := s.pc + 1, q := s.q, mem := s.mem }) (by simp only; omega) (by simp only; omega)
      (by simp only; omega) (by simp only; omega) (by simp only; omega)
    refine ⟨m', ?_, fun j b hj => ?_, hw⟩
    · have hno : ¬ s.latch.len.toNat < s.q + bytes.length := by omega
      simp only [litGroup, h2, if_neg hno, he, afterGroup]
      rw [show s.pc + 1 + bytes.length = s.pc + (bytes.length + 1) by omega]
    · have hjl : j < bytes.length := (List.getElem?_eq_some_iff.mp hj).1
      have h3 := hco j hjl
      simp only at h3
      have h4 := hb (j + 1) b (by simpa using hj)
      rw [h3, show s.latch.src.toNat + (s.pc + 1) + j = s.latch.src.toNat + s.pc + (j + 1) by omega]
      exact (Memory.read_eq_some_iff.mp h4).2
  | rep count v =>
    simp only [Group.wf, Bool.and_eq_true, Config.maxRun] at hg
    obtain ⟨h1, h2⟩ := decodeControl_repeat (of_decide_eq_true hg.1) (of_decide_eq_true hg.2)
    simp only [Group.assemble, List.getElem?_cons_zero, Option.some.injEq] at hc
    subst hc
    simp only [Group.assemble, Group.output, List.length_cons, List.length_nil, List.length_replicate] at *
    rw [runGroup_rep h1]
    have hv := hb 1 v (by simp)
    obtain ⟨m', he, hco, hw⟩ := fillRun_ok (dst := s.latch.dst.toNat) (k := count) (v := v)
      (c := { pc := s.pc, q := s.q, mem := s.mem }) (by simp only; omega)
    refine ⟨m', ?_, fun j b hj => ?_, hw⟩
    · have hno : ¬ s.latch.len.toNat < s.q + count := by omega
      have hne : ¬ s.pc + 1 = s.latch.srclen.toNat := by omega
      simp only [repGroup, h2, if_neg hno, if_neg hne, hv, he]
    · rw [List.getElem?_replicate] at hj
      split at hj
      · rename_i hjc
        cases hj
        exact hco j hjc
      · cases hj

/-! ### Turns -/

theorem moreGroups_iff (s : State) :
    moreGroups s = true ↔ s.q < s.latch.len.toNat ∧ s.pc < s.latch.srclen.toNat := by
  simp [moreGroups]

/-- R121: a turn that fetches a control byte runs its group. -/
theorem streamTurn_group {s : State} {c : Byte} (hq : s.q < s.latch.len.toNat) (hp : s.pc < s.latch.srclen.toNat)
    (hc : s.mem.read (s.latch.src.toNat + s.pc) = some c) : streamTurn s = runGroup c s := by
  simp only [streamTurn, (moreGroups_iff s).mpr ⟨hq, hp⟩, if_true, hc]

/-- R66: a control byte outside M is a BusError. -/
theorem streamTurn_bus {s : State} (hq : s.q < s.latch.len.toNat) (hp : s.pc < s.latch.srclen.toNat)
    (hc : s.mem.size ≤ s.latch.src.toNat + s.pc) : streamTurn s = streamBusFault s := by
  simp only [streamTurn, (moreGroups_iff s).mpr ⟨hq, hp⟩, if_true, Memory.read_eq_none_iff.mpr hc]

/-- R129: the turn at the row's end completes. -/
theorem streamTurn_full {s : State} (hq : s.q = s.latch.len.toNat) :
    streamTurn s = complete (writeCounts s) := by
  simp [streamTurn, moreGroups, endStream, hq]

/-- R130: the turn at the source's end with the row short raises TruncatedData. -/
theorem streamTurn_short {s : State} (hq : s.q < s.latch.len.toNat) (hp : s.pc = s.latch.srclen.toNat) :
    streamTurn s = streamFault .truncatedData s := by
  simp [streamTurn, moreGroups, endStream, hq, hp]

/-- What a turn can be. -/
theorem streamTurn_cases (s : State) :
    (∃ c, s.q < s.latch.len.toNat ∧ s.pc < s.latch.srclen.toNat ∧
        s.mem.read (s.latch.src.toNat + s.pc) = some c ∧ streamTurn s = runGroup c s) ∨
      (s.q < s.latch.len.toNat ∧ s.pc < s.latch.srclen.toNat ∧ streamTurn s = streamBusFault s) ∨
      (s.latch.len.toNat ≤ s.q ∧ streamTurn s = complete (writeCounts s)) ∨
      (s.q < s.latch.len.toNat ∧ s.latch.srclen.toNat ≤ s.pc ∧ streamTurn s = streamFault .truncatedData s) := by
  by_cases hq : s.q < s.latch.len.toNat
  · by_cases hp : s.pc < s.latch.srclen.toNat
    · cases hc : s.mem.read (s.latch.src.toNat + s.pc) with
      | none => exact .inr (.inl ⟨hq, hp, streamTurn_bus hq hp (Memory.read_eq_none_iff.mp hc)⟩)
      | some c => exact .inl ⟨c, hq, hp, rfl, streamTurn_group hq hp hc⟩
    · refine .inr (.inr (.inr ⟨hq, by omega, ?_⟩))
      simp [streamTurn, moreGroups, endStream, hq, hp]
  · refine .inr (.inr (.inl ⟨by omega, ?_⟩))
    simp [streamTurn, moreGroups, endStream, hq]

/-- What a group can do: go on at a later boundary of the same PBDEC, or end it in a fault of its own. -/
theorem runGroup_cases {c : Byte} {s : State} (hp : s.pc < s.latch.srclen.toNat) (hq : s.q ≤ s.latch.len.toNat) :
    ∃ pc q m, s.pc ≤ pc ∧ pc ≤ s.latch.srclen.toNat ∧ s.q ≤ q ∧ q ≤ s.latch.len.toNat ∧
      Memory.Within (s.latch.dst.toNat + s.q) (s.latch.dst.toNat + q) s.mem m ∧
      ((s.pc < pc ∧ runGroup c s = s.withCursor { pc := pc, q := q, mem := m }) ∨
        runGroup c s = streamBusFault (s.withCursor { pc := pc, q := q, mem := m }) ∨
        (pc = s.pc ∧ q = s.q ∧ m = s.mem ∧ runGroup c s = streamFault .rowOverrun s)) := by
  unfold runGroup
  split
  · unfold litGroup
    split
    · exact ⟨s.pc, s.q, s.mem, Nat.le_refl _, by omega, Nat.le_refl _, hq, .refl _ _ _, .inr (.inr ⟨rfl, rfl, rfl, rfl⟩)⟩
    · rename_i hno
      obtain ⟨j, m, he, hj, hjn, hw, _⟩ := copyLiteral_reached s.latch.src.toNat s.latch.srclen.toNat s.latch.dst.toNat
        (litCount (controlField c)) { pc := s.pc + 1, q := s.q, mem := s.mem } (by simp only; omega)
      simp only at he hjn hw
      refine ⟨s.pc + 1 + j, s.q + j, m, by omega, hjn, by omega, by omega, by rw [← Nat.add_assoc]; exact hw, ?_⟩
      cases hr : copyLiteral s.latch.src.toNat s.latch.srclen.toNat s.latch.dst.toNat (litCount (controlField c))
          { pc := s.pc + 1, q := s.q, mem := s.mem } with
      | ok c' =>
        rw [hr] at he
        simp only [Run.reached_ok] at he
        subst he
        exact .inl ⟨by omega, rfl⟩
      | bus c' =>
        rw [hr] at he
        simp only [Run.reached_bus] at he
        subst he
        exact .inr (.inl rfl)
  · split
    · exact ⟨s.pc + 1, s.q, s.mem, by omega, by omega, Nat.le_refl _, hq, .refl _ _ _, .inl ⟨by omega, rfl⟩⟩
    · unfold repGroup
      split
      · exact ⟨s.pc, s.q, s.mem, Nat.le_refl _, by omega, Nat.le_refl _, hq, .refl _ _ _, .inr (.inr ⟨rfl, rfl, rfl, rfl⟩)⟩
      · split
        · exact ⟨s.pc + 1, s.q, s.mem, by omega, by omega, Nat.le_refl _, hq, .refl _ _ _, .inl ⟨by omega, rfl⟩⟩
        · split
          · exact ⟨s.pc, s.q, s.mem, Nat.le_refl _, by omega, Nat.le_refl _, hq, .refl _ _ _, .inr (.inl rfl)⟩
          · rename_i v _
            obtain ⟨j, m, he, hj, hw, hok⟩ := fillRun_reached s.latch.dst.toNat v (repCount (controlField c))
              { pc := s.pc, q := s.q, mem := s.mem }
            simp only at he hw
            cases hr : fillRun s.latch.dst.toNat v (repCount (controlField c)) { pc := s.pc, q := s.q, mem := s.mem } with
            | ok c' =>
              rw [hr] at he
              simp only [Run.reached_ok] at he
              subst he
              exact ⟨s.pc + 2, s.q + j, m, by omega, by omega, by omega, by omega, by rw [← Nat.add_assoc]; exact hw,
                .inl ⟨by omega, rfl⟩⟩
            | bus c' =>
              rw [hr] at he
              simp only [Run.reached_bus] at he
              subst he
              exact ⟨s.pc, s.q + j, m, by omega, by omega, by omega, by omega, by rw [← Nat.add_assoc]; exact hw,
                .inr (.inl rfl)⟩

/-! ### Runs of turns -/

@[simp] theorem streamLoop_command {s : State} (h : s.seq = .command) (f : Nat) : streamLoop f s = s := by
  cases f <;> simp [streamLoop, h]

theorem streamLoop_stream {s : State} (h : s.seq = .stream) (f : Nat) :
    streamLoop (f + 1) s = streamLoop f (streamTurn s) := by
  simp [streamLoop, h]

/-- A run of whole groups: the loop writes their outputs one after another and goes on after them. -/
theorem streamLoop_groups {gs : List Group} (hwf : ∀ g ∈ gs, g.wf = true) {f : Nat} {s : State}
    (hseq : s.seq = .stream) (hf : ∀ i, i < gs.length → s.q + (outputAll (gs.take i)).length < s.latch.len.toNat)
    (hpc : s.pc + (assembleAll gs).length ≤ s.latch.srclen.toNat)
    (hq : s.q + (outputAll gs).length ≤ s.latch.len.toNat)
    (hb : ∀ j b, (assembleAll gs)[j]? = some b → s.mem.read (s.latch.src.toNat + s.pc + j) = some b)
    (hd : (outputAll gs).length = 0 ∨ s.latch.dst.toNat + s.q + (outputAll gs).length ≤ s.mem.size)
    (ha : s.latch.srclen.toNat = 0 ∨ s.latch.len.toNat = 0 ∨
      s.latch.src.toNat + s.latch.srclen.toNat ≤ s.latch.dst.toNat ∨
      s.latch.dst.toNat + s.latch.len.toNat ≤ s.latch.src.toNat) :
    ∃ m', streamLoop (gs.length + f) s = streamLoop f (s.withCursor
        { pc := s.pc + (assembleAll gs).length, q := s.q + (outputAll gs).length, mem := m' }) ∧
      (∀ j b, (outputAll gs)[j]? = some b → m'.byteAt (s.latch.dst.toNat + s.q + j) = b) ∧
      Memory.Within (s.latch.dst.toNat + s.q) (s.latch.dst.toNat + s.q + (outputAll gs).length) s.mem m' := by
  induction gs generalizing s with
  | nil => exact ⟨s.mem, by simp [assembleAll, outputAll, State.withCursor], by simp [outputAll], .refl _ _ _⟩
  | cons g gs ih =>
    simp only [assembleAll, outputAll, List.length_append] at hpc hq hb hd ⊢
    have hpos := Group.assemble_pos g
    obtain ⟨c, hc⟩ : ∃ c, g.assemble[0]? = some c := ⟨g.assemble[0], by simp⟩
    have hc0 := hb 0 c (by rw [List.getElem?_append_left (by omega)]; exact hc)
    obtain ⟨m1, he1, ho1, hw1⟩ := runGroup_whole (hwf g (by simp)) hc (s := s) (by omega) (by omega)
      (fun j b hj => hb j b (by rw [List.getElem?_append_left (List.getElem?_eq_some_iff.mp hj).1]; exact hj))
      (by omega) ha
    have hq0 := hf 0 (by simp)
    simp only [List.take_zero, outputAll, List.length_nil, Nat.add_zero] at hq0
    have hturn : streamTurn s = runGroup c s := streamTurn_group hq0 (by omega) (by rwa [Nat.add_zero] at hc0)
    obtain ⟨m2, he2, ho2, hw2⟩ := ih (fun g' hg' => hwf g' (by simp [hg']))
      (s := s.withCursor { pc := s.pc + g.assemble.length, q := s.q + g.output.length, mem := m1 }) hseq
      (fun i hi => by
        have := hf (i + 1) (by simpa using hi)
        simp only [List.take_succ_cons, outputAll, List.length_append] at this
        simp only [State.withCursor_q, State.withCursor_latch]; omega)
      (by simp only [State.withCursor_pc, State.withCursor_latch]; omega)
      (by simp only [State.withCursor_q, State.withCursor_latch]; omega)
      (fun j b hj => by
        have h := hb (g.assemble.length + j) b (by rw [List.getElem?_append_right (by omega)]; simpa using hj)
        have hjl := (List.getElem?_eq_some_iff.mp hj).1
        simp only [State.withCursor_pc, State.withCursor_latch, State.withCursor_mem]
        rw [show s.latch.src.toNat + (s.pc + g.assemble.length) + j =
          s.latch.src.toNat + s.pc + (g.assemble.length + j) by omega, hw1.read (by omega)]
        exact h)
      (by have := hw1.size; simp only [State.withCursor_q, State.withCursor_latch, State.withCursor_mem]; omega) ha
    simp only [State.withCursor_pc, State.withCursor_q, State.withCursor_latch, State.withCursor_mem] at he2 ho2 hw2
    refine ⟨m2, ?_, fun j b hj => ?_, ?_⟩
    · rw [show (g :: gs).length + f = (gs.length + f) + 1 by simp; omega, streamLoop_stream hseq, hturn, he1, he2]
      simp only [State.withCursor, Nat.add_assoc]
    · by_cases hjl : j < g.output.length
      · rw [List.getElem?_append_left hjl] at hj
        rw [hw2.byteAt _ (by omega)]
        exact ho1 j b hj
      · rw [List.getElem?_append_right (by omega)] at hj
        have := ho2 _ b hj
        rw [show s.latch.dst.toNat + s.q + j =
          s.latch.dst.toNat + (s.q + g.output.length) + (j - g.output.length) by omega]
        exact this
    · exact (hw1.mono (Nat.le_refl _) (by omega)).trans (hw2.mono (by omega) (by omega))

/-- However PBDEC's loop goes, with turns enough it ends: the row full, or in one of PBDEC's three faults; the counters
stay in range and only bytes of the row are written. -/
theorem streamLoop_ends {f : Nat} {s : State} (hseq : s.seq = .stream) (hp : s.pc ≤ s.latch.srclen.toNat)
    (hq : s.q ≤ s.latch.len.toNat) (hf : s.latch.srclen.toNat - s.pc < f) :
    ∃ pc q m, s.pc ≤ pc ∧ pc ≤ s.latch.srclen.toNat ∧ s.q ≤ q ∧ q ≤ s.latch.len.toNat ∧
      Memory.Within (s.latch.dst.toNat + s.q) (s.latch.dst.toNat + q) s.mem m ∧
      ((q = s.latch.len.toNat ∧
          streamLoop f s = complete (writeCounts (s.withCursor { pc := pc, q := q, mem := m }))) ∨
        (streamLoop f s = streamBusFault (s.withCursor { pc := pc, q := q, mem := m }) ∨
          ∃ k, (k = .truncatedData ∨ k = .rowOverrun) ∧
            streamLoop f s = streamFault k (s.withCursor { pc := pc, q := q, mem := m }))) := by
  induction f generalizing s with
  | zero => omega
  | succ f ih =>
    rw [streamLoop_stream hseq]
    rcases streamTurn_cases s with ⟨c, hlt, hpl, hc, ht⟩ | ⟨hlt, hpl, ht⟩ | ⟨hge, ht⟩ | ⟨hlt, hge, ht⟩
    · rw [ht]
      obtain ⟨pc, q, m, h1, h2, h3, h4, hw, hcase⟩ := runGroup_cases (c := c) hpl hq
      rcases hcase with ⟨hgt, he⟩ | he | ⟨rfl, rfl, rfl, he⟩
      · rw [he]
        obtain ⟨pc', q', m', h1', h2', h3', h4', hw', hcase'⟩ :=
          ih (s := s.withCursor { pc := pc, q := q, mem := m }) hseq h2 h4
            (by simp only [State.withCursor_pc, State.withCursor_latch]; omega)
        simp only [State.withCursor_pc, State.withCursor_q, State.withCursor_latch, State.withCursor_mem] at *
        exact ⟨pc', q', m', by omega, h2', by omega, h4',
          (hw.mono (Nat.le_refl _) (by omega)).trans (hw'.mono (by omega) (Nat.le_refl _)), hcase'⟩
      · rw [he]
        exact ⟨pc, q, m, h1, h2, h3, h4, hw, .inr (.inl (streamLoop_command rfl f))⟩
      · rw [he]
        exact ⟨s.pc, s.q, s.mem, h1, h2, h3, h4, hw, .inr (.inr ⟨_, .inr rfl, streamLoop_command rfl f⟩)⟩
    · rw [ht]
      exact ⟨s.pc, s.q, s.mem, Nat.le_refl _, hp, Nat.le_refl _, hq, .refl _ _ _, .inr (.inl (streamLoop_command rfl f))⟩
    · rw [ht]
      exact ⟨s.pc, s.q, s.mem, Nat.le_refl _, hp, Nat.le_refl _, hq, .refl _ _ _, .inl ⟨by omega, streamLoop_command rfl f⟩⟩
    · rw [ht]
      exact ⟨s.pc, s.q, s.mem, Nat.le_refl _, hp, Nat.le_refl _, hq, .refl _ _ _, .inr (.inr ⟨_, .inl rfl, streamLoop_command rfl f⟩)⟩

end Sys2Proof.Machine
end

