-- ==== Sys2Proof/Laws/Step.lean ====
section
/-! SUPPORT. What an instruction, a turn and a step can do, said once. -/

namespace Sys2Proof.Machine

/-- What a command does to a state, however it ends: M, the result registers and the cursors at the values it reached,
then completion or a fault. -/
def Ends (i : Instr) (s t : State) : Prop :=
  ∃ (m : Memory) (p c r : Word) (pc q : Nat),
    (paramsOk i s.latch = true → Memory.Confined s.latch.dst.toNat (s.latch.dst.toNat + dstExtent i s.latch) s.mem m) ∧
    (paramsOk i s.latch = false → m = s.mem) ∧ (r = s.result ∨ r = 0#32 ∨ r = 1#32) ∧
    (t = complete { s with mem := m, produced := p, consumed := c, result := r, pc := pc, q := q } ∨
      ∃ f, t = raise f { s with mem := m, produced := p, consumed := c, result := r, pc := pc, q := q })

theorem Ends.badParam {i : Instr} {s : State} (h : paramsOk i s.latch = false) : Ends i s (raise .badParam s) :=
  ⟨s.mem, s.produced, s.consumed, s.result, s.pc, s.q, fun h' => (by rw [h] at h'; cases h'), fun _ => rfl, .inl rfl,
    .inr ⟨_, rfl⟩⟩

theorem Ends.finish {i : Instr} {s : State} {r : Run Memory} (p c : Nat) (h : paramsOk i s.latch = true)
    (hw : Memory.Within s.latch.dst.toNat (s.latch.dst.toNat + dstExtent i s.latch) s.mem r.reached) :
    Ends i s (finish i s r p c) := by
  rcases finish_cases i s r p c with ⟨m, rfl, he⟩ | ⟨m, rfl, he⟩
  · exact ⟨m, _, _, s.result, s.pc, s.q, fun _ => hw.confined, fun h' => (by rw [h] at h'; cases h'), .inl rfl, .inl he⟩
  · exact ⟨_, _, _, s.result, s.pc, s.q, fun _ => hw.leaveOpen, fun h' => (by rw [h] at h'; cases h'), .inl rfl,
      .inr ⟨_, he⟩⟩

theorem execPbdec_ends (s : State) : ∃ t, execPbdec s = .next t ∧ Ends .pbdec s t := by
  refine ⟨_, rfl, ?_⟩
  split
  · rename_i hp
    obtain ⟨pc, q, m, _, _, _, hq, hw, h⟩ := streamLoop_ends (f := s.latch.srclen.toNat + 1) (s := beginStream s) rfl
      (Nat.zero_le _) (Nat.zero_le _) (by simp)
    simp only [beginStream_latch, beginStream_q, Nat.add_zero] at hw hq
    have hw' : Memory.Within s.latch.dst.toNat (s.latch.dst.toNat + dstExtent .pbdec s.latch) s.mem m :=
      hw.mono (Nat.le_refl _) (by simp only [dstExtent]; omega)
    have hbad : ∀ {P : Prop}, paramsOk .pbdec s.latch = false → P := fun h' => (by rw [hp] at h'; cases h')
    rcases h with ⟨_, he⟩ | he | ⟨k, _, he⟩
    · exact ⟨m, countWord q, countWord pc, s.result, pc, q, fun _ => hw'.confined, hbad, .inl rfl,
        .inl (by rw [he]; rfl)⟩
    · exact ⟨_, countWord q, countWord pc, s.result, pc, q, fun _ => hw'.leaveOpen, hbad, .inl rfl,
        .inr ⟨_, by rw [he]; rfl⟩⟩
    · exact ⟨m, countWord q, countWord pc, s.result, pc, q, fun _ => hw'.confined, hbad, .inl rfl,
        .inr ⟨k, by rw [he]; rfl⟩⟩
  · rename_i hp
    exact ⟨s.mem, 0#32, 0#32, s.result, s.pc, s.q, fun h' => absurd h' hp, fun _ => rfl, .inl rfl, .inr ⟨_, rfl⟩⟩

theorem execPbenc_ends (s : State) : ∃ t, execPbenc s = .next t ∧ Ends .pbenc s t := by
  refine ⟨_, rfl, ?_⟩
  split
  · rename_i hp
    have ha : overlap .pbenc s.latch = false := by simpa [paramsOk] using hp
    rw [overlap_eq_false_iff] at ha
    simp only [srcExtent, dstExtent, pbencBound] at ha
    obtain ⟨hw, _, _⟩ := encodeLoop_within (src := s.latch.src.toNat) (n := s.latch.srclen.toNat)
      (dst := s.latch.dst.toNat) (fuel := s.latch.srclen.toNat) (e := { i := 0, o := 0, mem := s.mem }) rfl
      (Nat.zero_le _) (by omega) (.inl (Nat.zero_le _))
    simp only [Nat.add_zero] at hw
    unfold finishEncode
    split
    · rename_i e he
      rw [he] at hw
      exact Ends.finish _ _ hp hw
    · rename_i e he
      rw [he] at hw
      exact Ends.finish _ _ hp hw
  · rename_i hp
    exact Ends.badParam (by simpa using hp)

theorem reblockCommand_ends {i : Instr} {s : State} (l l' : Layout) (h : paramsOk i s.latch = true)
    (hd : dstExtent i s.latch = s.latch.nplanes.toNat * rowBytes s.latch.width.toNat * s.latch.height.toNat) :
    Ends i s (reblockCommand i l l' s) :=
  Ends.finish _ _ h (by rw [hd]; exact reblock_within (geometry s.latch) l l' s.mem)

/-- 10_state.md R21, R28: every command runs to its end. -/
theorem exec_command_ends {i : Instr} (hi : i.isStream = false) (s : State) : ∃ t, exec i s = .next t ∧ Ends i s t := by
  have hbad : ∀ {i : Instr} {t : State}, (paramsOk i s.latch = true → Ends i s t) →
      Ends i s (if paramsOk i s.latch then t else raise .badParam s) := by
    intro i t h
    split
    · exact h ‹_›
    · rename_i hp
      exact Ends.badParam (by simpa using hp)
  cases i with
  | lit n => cases hi
  | nop => cases hi
  | rep m => cases hi
  | pbdec => exact execPbdec_ends s
  | pbenc => exact execPbenc_ends s
  | deint => exact ⟨_, rfl, hbad fun h => reblockCommand_ends _ _ h rfl⟩
  | intlv => exact ⟨_, rfl, hbad fun h => reblockCommand_ends _ _ h rfl⟩
  | transp =>
    refine ⟨_, rfl, hbad fun h => Ends.finish _ _ h ?_⟩
    simp only [paramsOk, Bool.and_eq_true, decide_eq_true_eq] at h
    exact transpose_within (t := columns s.latch) h.1 s.mem
  | chunky => exact ⟨_, rfl, hbad fun h => Ends.finish _ _ h (chunkyLoop_within (geometry s.latch) _ _ s.mem)⟩
  | paldn =>
    refine ⟨_, rfl, hbad fun h => Ends.finish _ _ h ?_⟩
    rw [show dstExtent .paldn s.latch = 2 * s.latch.ncolors.toNat from Nat.mul_comm _ _]
    exact paldn_within _ _ _ _
  | palup =>
    refine ⟨_, rfl, hbad fun h => Ends.finish _ _ h ?_⟩
    rw [show dstExtent .palup s.latch = 3 * s.latch.ncolors.toNat from Nat.mul_comm _ _]
    exact palup_within _ _ _ _
  | paldef =>
    refine ⟨_, rfl, hbad fun h => Ends.finish _ _ h ?_⟩
    rw [show dstExtent .paldef s.latch = 2 * s.latch.ncolors.toNat from Nat.mul_comm _ _]
    exact paldef_within _ _ _
  | paldet =>
    refine ⟨_, rfl, hbad fun h => ?_⟩
    have hw := (Memory.Within.refl s.latch.dst.toNat (s.latch.dst.toNat + dstExtent .paldet s.latch) s.mem).confined
    simp only [paldetCommand]
    split
    · exact ⟨s.mem, s.produced, s.consumed, 1#32, s.pc, s.q, fun _ => hw, fun _ => rfl, .inr (.inr rfl), .inl rfl⟩
    · exact ⟨s.mem, s.produced, s.consumed, 0#32, s.pc, s.q, fun _ => hw, fun _ => rfl, .inr (.inl rfl), .inl rfl⟩
    · exact ⟨s.mem, s.produced, s.consumed, s.result, s.pc, s.q, fun _ => hw, fun _ => rfl, .inl rfl, .inr ⟨_, rfl⟩⟩

/-- 40_packbits_decode.md R121, R129: the group turn is a turn of PBDEC's loop. -/
theorem groupTurn_eq (s : State) : groupTurn s = .next (streamTurn s) := by
  unfold groupTurn streamTurn
  by_cases hm : moreGroups s
  · simp only [hm, if_true]
    cases s.mem.read (s.latch.src.toNat + s.pc) with
    | none => rfl
    | some c => exact exec_decodeControl c s
  · simp only [hm, Bool.false_eq_true, if_false]

/-- A code that decodes as a command is one of the ten commands. -/
theorem decodeCommand_command {w : Word} {i : Instr} (h : decodeCommand w = .ok i) : i.isStream = false := by
  simp only [decodeCommand, commandTable, lookupCommand] at h
  repeat' split at h
  all_goals first | (cases h; rfl) | cases h

/-- What the sequencer's turn can be. -/
theorem sequencerTurn_cases (s : State) :
    (s.status.busy = false ∧ sequencerTurn s = .next s) ∨
      (s.status.busy = true ∧ s.seq = .command ∧
        ∃ i, decodeCommand s.cmd = .ok i ∧ i.isStream = false ∧ sequencerTurn s = exec i s) ∨
      (s.status.busy = true ∧ s.seq = .command ∧ sequencerTurn s = .next (raise .illegalCommand s)) ∨
      (s.status.busy = true ∧ s.seq = .stream ∧ sequencerTurn s = .next (streamTurn s)) := by
  cases hb : s.status.busy with
  | false => exact .inl ⟨rfl, by simp [sequencerTurn, hb]⟩
  | true =>
    cases hs : s.seq with
    | command =>
      cases hd : decodeCommand s.cmd with
      | error e => exact .inr (.inr (.inl ⟨rfl, rfl, by simp [sequencerTurn, hb, hs, commandTurn, hd]⟩))
      | ok i =>
        exact .inr (.inl ⟨rfl, rfl, i, rfl, decodeCommand_command hd,
          by simp [sequencerTurn, hb, hs, commandTurn, hd]⟩)
    | stream => exact .inr (.inr (.inr ⟨rfl, rfl, by simp [sequencerTurn, hb, hs, groupTurn_eq]⟩))

/-- What the sequencer's group by group turn can be: the ordinary turn, or a PBDEC begun (log 5). -/
theorem groupwiseTurn_cases (s : State) :
    groupwiseTurn s = sequencerTurn s ∨
      (s.status.busy = true ∧ s.seq = .command ∧ s.cmd = 0x01#32 ∧ groupwiseTurn s = .next (beginPbdec s)) := by
  by_cases h : (s.status.busy && (s.seq == .command) && (s.cmd == 0x01#32)) = true
  · refine .inr ?_
    simp only [Bool.and_eq_true, beq_iff_eq] at h
    exact ⟨h.1.1, h.1.2, h.2, by simp [groupwiseTurn, h]⟩
  · exact .inl (by simp only [groupwiseTurn, h, Bool.false_eq_true, if_false])

/-- What a step that goes on can be. -/
theorem step_cases {s t : State} (h : step s = .next t) :
    (s.inputs = [] ∧ sequencerTurn s = .next t) ∨
      ∃ rest, ∃ u : State, u = { s with inputs := rest } ∧
        ((∃ r v, s.inputs = .writeReg r v :: rest ∧ t = writeReg r v u) ∨
          (∃ r, s.inputs = .readReg r :: rest ∧ t = { u with hostData := readReg r u }) ∨
          (∃ a b, s.inputs = .writeMem a b :: rest ∧ s.status.busy = false ∧ a < s.mem.size ∧
            t = { u with mem := s.mem.set a b }) ∨
          (∃ a w, s.inputs = .readMem a :: rest ∧ t = { u with hostData := w }) ∨
          (s.inputs = .reset :: rest ∧ t = assertReset u) ∨
          (s.inputs = .run :: rest ∧ sequencerTurn u = .next t) ∨
          (s.inputs = .runGroups :: rest ∧ groupwiseTurn u = .next t)) := by
  unfold step at h
  split at h
  · rename_i hi
    exact .inl ⟨hi, h⟩
  · rename_i i rest hi
    refine .inr ⟨rest, _, rfl, ?_⟩
    cases i with
    | writeReg r v => exact .inl ⟨r, v, hi, by cases h; rfl⟩
    | readReg r =>
      refine .inr (.inl ⟨r, hi, ?_⟩)
      simp only [turn, hostReadReg] at h
      split at h
      · cases h
      · cases h; rfl
    | writeMem a b =>
      refine .inr (.inr (.inl ⟨a, b, hi, ?_⟩))
      simp only [turn, hostWriteMem] at h
      split at h
      · cases h
      · rename_i hb
        split at h
        · rename_i ha
          cases h
          exact ⟨by simpa using hb, ha, rfl⟩
        · cases h
    | readMem a =>
      refine .inr (.inr (.inr (.inl ⟨a, ?_⟩)))
      simp only [turn, hostReadMem] at h
      split at h
      · cases h
      · split at h
        · cases h; exact ⟨_, hi, rfl⟩
        · cases h
    | reset => exact .inr (.inr (.inr (.inr (.inl ⟨hi, by cases h; rfl⟩))))
    | run => exact .inr (.inr (.inr (.inr (.inr (.inl ⟨hi, h⟩)))))
    | runGroups => exact .inr (.inr (.inr (.inr (.inr (.inr ⟨hi, h⟩)))))

end Sys2Proof.Machine
end

