-- ==== Sys2Proof/Tests/Slice0.lean ====
section
/-! SUPPORT. The model's own tests, with expected results from the spec's vectors (95_test_vectors.md) and examples, and
a witness for the hypotheses of every statement. -/

namespace Sys2Proof.Tests

open Sys2Proof Sys2Proof.Machine Sys2Proof.Claim

/-! ### Helpers -/

/-- 64 bytes of M with `bs` at address `a` and nothing else written. -/
def memAt (a : Nat) (bs : List Byte) : Memory := setBytes { size := 64, epoch := 0, draws := 0, cells := [] } a bs

/-- The command `c` running with latched operands `o` on memory `m`. -/
def running (c : Word) (o : Operands) (m : Memory) : State :=
  { State.reset with cmd := c, latch := o, mem := m, status := { busy := true, done := false, err := false, cause := 0#4 } }

/-- The same, a PBDEC at the group boundary `pc`, `q`. -/
def atGroup (o : Operands) (m : Memory) (pc q : Nat) : State :=
  { running 0x01#32 o m with pc := pc, q := q, seq := .stream }

/-- `p` holds of the next state. -/
def goesTo (r : Host.Outcome State Fault Refusal) (p : State → Bool) : Bool :=
  match r with
  | .next t => p t
  | .fault _ => false
  | .refused _ => false

/-- The next state holds `bs` at `a`, the counts, and STATUS as the host reads it. -/
def leaves (r : Host.Outcome State Fault Refusal) (a : Nat) (bs : List Byte) (produced consumed status : Word) : Bool :=
  goesTo r fun t => (memRead t.mem a bs.length == some bs) && (t.produced == produced) && (t.consumed == consumed) &&
    (statusWord t.status == status)

/-- SRC 0, DST 32. -/
def o32 : Operands := { Operands.zero with dst := 32#32 }

/-- PBDEC's and PBENC's operands: SRC 0, DST 32. -/
def oPb (n l : Nat) : Operands := { o32 with srclen := BitVec.ofNat 32 n, len := BitVec.ofNat 32 l }

/-- The planes' operands: SRC 0, DST 32. -/
def oPlanes (w h np sb flags : Nat) : Operands :=
  { o32 with
    width := BitVec.ofNat 32 w, height := BitVec.ofNat 32 h, nplanes := BitVec.ofNat 32 np, srb := BitVec.ofNat 32 sb,
    flags := BitVec.ofNat 32 flags }

/-- TRANSP's operands: SRC 0, DST 32. -/
def oColumns (cw r c db : Nat) : Operands :=
  { o32 with
    colw := BitVec.ofNat 32 cw, rows := BitVec.ofNat 32 r, cols := BitVec.ofNat 32 c, drb := BitVec.ofNat 32 db }

/-- The palette operands: SRC 0, DST 32. -/
def oColors (nc : Nat) : Operands := { o32 with ncolors := BitVec.ofNat 32 nc }

/-! ### Well-formedness: an ill-formed term for each check -/

theorem test_wf_rep_of_field_zero_refused : Instr.wf (.rep 0#7) = false := by decide
theorem test_wf_group_empty_literal_refused : Group.wf (.lit []) = false := by decide
theorem test_wf_group_long_literal_refused : Group.wf (.lit (List.replicate 129 0#8)) = false := by
  simp [Group.wf, Config.maxRun]
theorem test_wf_group_repeat_of_one_refused : Group.wf (.rep 1 0#8) = false := by decide
theorem test_wf_group_repeat_of_129_refused : Group.wf (.rep 129 0#8) = false := by decide

/-! ### Decoding: words written out from 30_encoding.md R99 and R104 -/

theorem test_decode_lit : decodeTableWord 8 0b00000010 = some (.lit 0b0000010#7) := by decide
theorem test_decode_nop : decodeTableWord 8 0b10000000 = some .nop := by decide
theorem test_decode_rep : decodeTableWord 8 0b11111110 = some (.rep 0b1111110#7) := by decide
theorem test_decode_pbdec : decodeTableWord 32 0b00000000000000000000000000000001 = some .pbdec := by decide
theorem test_decode_pbenc : decodeTableWord 32 0b00000000000000000000000000000010 = some .pbenc := by decide
theorem test_decode_deint : decodeTableWord 32 0b00000000000000000000000000010000 = some .deint := by decide
theorem test_decode_intlv : decodeTableWord 32 0b00000000000000000000000000010001 = some .intlv := by decide
theorem test_decode_transp : decodeTableWord 32 0b00000000000000000000000000010010 = some .transp := by decide
theorem test_decode_chunky : decodeTableWord 32 0b00000000000000000000000000010011 = some .chunky := by decide
theorem test_decode_paldn : decodeTableWord 32 0b00000000000000000000000000100000 = some .paldn := by decide
theorem test_decode_palup : decodeTableWord 32 0b00000000000000000000000000100001 = some .palup := by decide
theorem test_decode_paldef : decodeTableWord 32 0b00000000000000000000000000100010 = some .paldef := by decide
theorem test_decode_paldet : decodeTableWord 32 0b00000000000000000000000000100011 = some .paldet := by decide
/-- R105: no other value, CMD's reset value among them, names a command; all 32 bits count. -/
theorem test_decode_unassigned : (decodeTableWord 32 0x00, decodeTableWord 32 0x03, decodeTableWord 32 0x14,
    decodeTableWord 32 0x24, decodeTableWord 32 0x100, decodeTableWord 32 0x80000001) =
    (none, none, none, none, none, none) := by decide
/-- R96: the counts at the ends of their ranges: c = 0x00, 0x7F, 0xFF, 0x81. -/
theorem test_decode_counts : (litCount 0#7, litCount 127#7, repCount 127#7, repCount 1#7) = (1, 128, 2, 128) := by decide

/-! ### One step of each instruction -/

/-- R122: `02 AA BB CC`, L = 3. -/
theorem test_lit_copies : goesTo (exec (.lit 2#7) (atGroup (oPb 4 3) (memAt 0 [0x02, 0xAA, 0xBB, 0xCC]) 0 0))
    (fun t => (memRead t.mem 32 3 == some [0xAA, 0xBB, 0xCC]) && (t.pc == 4) && (t.q == 3)) = true := by decide
/-- V-D19: `03 01 02` into a row of 3 is RowOverrun, not exhaustion. -/
theorem test_lit_overrun_before_exhaustion :
    goesTo (exec (.lit 3#7) (atGroup (oPb 3 3) (memAt 0 [0x03, 0x01, 0x02]) 0 0))
      (fun t => (statusWord t.status == 0x36#32) && (t.produced == 0#32) && (t.consumed == 0#32)) = true := by decide
/-- R123: `FE 55`, L = 3. -/
theorem test_rep_fills : goesTo (exec (.rep 126#7) (atGroup (oPb 2 3) (memAt 0 [0xFE, 0x55]) 0 0))
    (fun t => (memRead t.mem 32 3 == some [0x55, 0x55, 0x55]) && (t.pc == 2) && (t.q == 3)) = true := by decide
/-- V-D12: `FE` without its value byte consumes the control byte only. -/
theorem test_rep_without_value : goesTo (exec (.rep 126#7) (atGroup (oPb 1 3) (memAt 0 [0xFE]) 0 0))
    (fun t => (t.pc == 1) && (t.q == 0) && t.status.busy) = true := by decide
/-- R124. -/
theorem test_nop_consumes_one_byte : goesTo (exec .nop (atGroup (oPb 3 1) (memAt 0 [0x80, 0x00, 0x11]) 0 0))
    (fun t => (t.pc == 1) && (t.q == 0)) = true := by decide
/-- R129: the inverse of the source's Scenario B. -/
theorem test_pbdec_scenario_b :
    leaves (exec .pbdec (running 0x01#32 (oPb 8 11) (memAt 0 [0xFB, 0x05, 0x04, 0x09, 0x09, 0x01, 0x02, 0x03])))
      32 [0x05, 0x05, 0x05, 0x05, 0x05, 0x05, 0x09, 0x09, 0x01, 0x02, 0x03] 11#32 8#32 0x02#32 = true := by decide
/-- V-D17: `01 AA BB FD 11`, L = 4: the bytes of the first group, then RowOverrun. -/
theorem test_pbdec_overrun :
    leaves (exec .pbdec (running 0x01#32 (oPb 5 4) (memAt 0 [0x01, 0xAA, 0xBB, 0xFD, 0x11])))
      32 [0xAA, 0xBB] 2#32 3#32 0x36#32 = true := by decide
/-- R152: the source's Scenario B. -/
theorem test_pbenc_scenario_b :
    leaves (exec .pbenc (running 0x02#32 (oPb 11 0)
        (memAt 0 [0x05, 0x05, 0x05, 0x05, 0x05, 0x05, 0x09, 0x09, 0x01, 0x02, 0x03])))
      32 [0xFB, 0x05, 0x04, 0x09, 0x09, 0x01, 0x02, 0x03] 8#32 11#32 0x02#32 = true := by decide
/-- V-E8: a literal stops where a run of 3 begins. -/
theorem test_pbenc_literal_stops_at_run :
    leaves (exec .pbenc (running 0x02#32 (oPb 6 0) (memAt 0 [0x01, 0x02, 0x03, 0x03, 0x03, 0x04])))
      32 [0x01, 0x01, 0x02, 0xFE, 0x03, 0x00, 0x04] 7#32 6#32 0x02#32 = true := by decide
/-- V-DI3: rows of 3 bytes, padded to 4. -/
theorem test_deint_pads_rows :
    leaves (exec .deint (running 0x10#32 (oPlanes 20 2 2 3 0)
        (memAt 0 [0x11, 0x12, 0x13, 0x21, 0x22, 0x23, 0x31, 0x32, 0x33, 0x41, 0x42, 0x43])))
      32 [0x11, 0x12, 0x13, 0x00, 0x31, 0x32, 0x33, 0x00, 0x21, 0x22, 0x23, 0x00, 0x41, 0x42, 0x43, 0x00]
      16#32 12#32 0x02#32 = true := by decide
/-- V-G1: SRB = 3 with WIDTH = 10. -/
theorem test_deint_bad_row_bytes :
    goesTo (exec .deint (running 0x10#32 (oPlanes 10 2 2 3 0) (memAt 0 [])))
      (fun t => statusWord t.status == 0x46#32) = true := by decide
/-- V-IL2. -/
theorem test_intlv_pads_rows :
    leaves (exec .intlv (running 0x11#32 (oPlanes 20 2 2 3 0)
        (memAt 0 [0x11, 0x12, 0x13, 0x21, 0x22, 0x23, 0x31, 0x32, 0x33, 0x41, 0x42, 0x43])))
      32 [0x11, 0x12, 0x13, 0x00, 0x31, 0x32, 0x33, 0x00, 0x21, 0x22, 0x23, 0x00, 0x41, 0x42, 0x43, 0x00]
      16#32 12#32 0x02#32 = true := by decide
/-- V-T4: an output row padded to 4. -/
theorem test_transp_pads_rows :
    leaves (exec .transp (running 0x12#32 (oColumns 1 2 3 4) (memAt 0 [0x00, 0x01, 0x10, 0x11, 0x20, 0x21])))
      32 [0x00, 0x10, 0x20, 0x00, 0x01, 0x11, 0x21, 0x00] 8#32 6#32 0x02#32 = true := by decide
/-- V-T3: entries of two bytes. -/
theorem test_transp_wide_entries :
    leaves (exec .transp (running 0x12#32 (oColumns 2 2 3 6)
        (memAt 0 [0xA0, 0xA1, 0xA2, 0xA3, 0xA4, 0xA5, 0xA6, 0xA7, 0xA8, 0xA9, 0xAA, 0xAB])))
      32 [0xA0, 0xA1, 0xA4, 0xA5, 0xA8, 0xA9, 0xA2, 0xA3, 0xA6, 0xA7, 0xAA, 0xAB] 12#32 12#32 0x02#32 = true := by decide
/-- V-CK2, row 0 of buffer B, three planes. -/
theorem test_chunky_gathers_bits :
    leaves (exec .chunky (running 0x13#32 (oPlanes 10 2 3 2 2)
        (memAt 0 [0xB4, 0xC0, 0x6D, 0x40, 0x1E, 0x80, 0xFF, 0xC0, 0x00, 0x00, 0xAA, 0x80])))
      32 [0x01, 0x02, 0x03, 0x05, 0x06, 0x07, 0x04, 0x02, 0x05, 0x03, 0x05, 0x01, 0x05, 0x01, 0x05, 0x01, 0x05, 0x01,
        0x05, 0x01] 20#32 12#32 0x02#32 = true := by decide
/-- V-CK3, row 0: the same with bit doubling. -/
theorem test_chunky_doubles_bits :
    goesTo (exec .chunky (running 0x13#32 (oPlanes 10 2 3 2 3)
        (memAt 0 [0xB4, 0xC0, 0x6D, 0x40, 0x1E, 0x80, 0xFF, 0xC0, 0x00, 0x00, 0xAA, 0x80])))
      (fun t => memRead t.mem 32 10 ==
        some [0x03, 0x0C, 0x0F, 0x33, 0x3C, 0x3F, 0x30, 0x0C, 0x33, 0x0F]) = true := by decide
/-- V-P1, entries 3 to 5. -/
theorem test_paldn_scales_down :
    leaves (exec .paldn (running 0x20#32 (oColors 3) (memAt 0 [0x12, 0x34, 0x56, 0xF0, 0x0F, 0x10, 0x80, 0x7F, 0xFF])))
      32 [0x01, 0x35, 0x0F, 0x01, 0x08, 0x7F] 6#32 9#32 0x02#32 = true := by decide
/-- V-P7. -/
theorem test_paldn_too_many_colors :
    goesTo (exec .paldn (running 0x20#32 (oColors 257) (memAt 0 []))) (fun t => statusWord t.status == 0x46#32) = true := by
  decide
/-- R220 and V-P3: bits 15:12 of a word are ignored. -/
theorem test_palup_scales_up :
    leaves (exec .palup (running 0x21#32 (oColors 2) (memAt 0 [0x01, 0x35, 0xF1, 0x23])))
      32 [0x11, 0x33, 0x55, 0x11, 0x22, 0x33] 6#32 4#32 0x02#32 = true := by decide
/-- V-P4, three entries. -/
theorem test_paldef_black_then_white :
    leaves (exec .paldef (running 0x22#32 (oColors 3) (memAt 0 []))) 32 [0x00, 0x00, 0x0F, 0xFF, 0x0F, 0xFF]
      6#32 0#32 0x02#32 = true := by decide
/-- V-PD1, and V-PD4: the first test wins. -/
theorem test_paldet_present :
    (goesTo (exec .paldet (running 0x23#32 { oColors 16 with filelen := 192#32, pixlen := 160#32 } (memAt 0 [])))
        (fun t => (t.result == 1#32) && (statusWord t.status == 0x02#32)),
      goesTo (exec .paldet (running 0x23#32 { oColors 0 with filelen := 160#32, pixlen := 160#32 } (memAt 0 [])))
        (fun t => t.result == 1#32)) = (true, true) := by decide
/-- V-PD5: no wrap at 2^32; V-PD3: a size mismatch. -/
theorem test_paldet_absent_and_mismatch :
    (goesTo (exec .paldet (running 0x23#32 { oColors 1 with filelen := 0xFFFFFFFF#32, pixlen := 0xFFFFFFFF#32 }
          (memAt 0 []))) (fun t => (t.result == 0#32) && (statusWord t.status == 0x02#32)),
      goesTo (exec .paldet (running 0x23#32 { oColors 16 with filelen := 191#32, pixlen := 160#32 } (memAt 0 [])))
        (fun t => (t.result == 0#32) && (statusWord t.status == 0x26#32))) = (true, true) := by decide

/-! ### The command interface -/

/-- V-C1. -/
theorem test_reset_reads_zero : [Reg.status, .cmd, .produced, .consumed, .result].all
    (fun r => readReg r State.reset == 0#32) = true := by decide
/-- V-C2, V-C3: IllegalCommand, then a legal command is refused. -/
theorem test_illegal_command_then_refusal :
    goesTo (Host.Core.run core 3 { State.reset with inputs := [.writeReg .cmd 0x100#32, .run, .writeReg .cmd 0x22#32] })
      (fun t => (statusWord t.status == 0x56#32) && (t.cmd == 0x100#32)) = true := by decide
/-- V-C6: one byte inside M is produced, then BusError. -/
theorem test_bus_error_in_mid_command :
    goesTo (exec .pbdec (running 0x01#32 { oPb 3 2 with dst := 63#32 } (memAt 0 [0x01, 0xAA, 0xBB])))
      (fun t => (statusWord t.status == 0x66#32) && (t.produced == 1#32) && (t.consumed == 2#32)) = true := by decide
/-- R244, U6: after BusError the destination extent holds free values, and a byte outside it is as before. -/
theorem test_bus_error_leaves_the_destination_open :
    let m := (busFault .pbdec (running 0x01#32 { oPb 3 2 with dst := 63#32 } (memAt 61 [0x11, 0x22, 0x33]))).mem
    m.read 63 = some (Config.openByte 0 63) ∧ m.read 62 = some 0x22 := ⟨rfl, rfl⟩

/-! ### Witnesses: states and operands that meet the hypotheses of the statements -/

/-- Bytes that read back stand in M. -/
theorem holds_of_memRead {m : Memory} {a : Nat} {X : List Byte} (h : memRead m a X.length = some X) : Holds m a X := by
  induction X generalizing a with
  | nil => intro j b hj; simp at hj
  | cons x xs ih =>
    simp only [List.length_cons, memRead] at h
    split at h
    · cases h
    · rename_i b hb
      split at h
      · cases h
      · rename_i bs hbs
        simp only [Option.some.injEq, List.cons.injEq] at h
        obtain ⟨rfl, rfl⟩ := h
        intro j b' hj
        cases j with
        | zero => simp only [List.getElem?_cons_zero, Option.some.injEq] at hj; subst hj; exact hb
        | succ j =>
          have := ih hbs j b' (by simpa using hj)
          rwa [show a + 1 + j = a + (j + 1) by omega] at this

/-- A PBDEC in progress meets the invariant. -/
def decoding : State := atGroup (oPb 4 3) (memAt 0 [0x02, 0xAA, 0xBB, 0xCC]) 0 0

/-- The next state of an instruction: every instruction has one. -/
def nextOf (i : Instr) (s : State) : State :=
  match exec i s with
  | .next t => t
  | .fault _ => s
  | .refused _ => s

theorem exec_nextOf (i : Instr) (s : State) : exec i s = .next (nextOf i s) := by cases i <;> rfl

theorem witness_StepKeepsTheInvariant : BlockInv decoding ∧ ∃ t, step decoding = .next t := by
  refine ⟨⟨by decide, by simp [Status.legal, decoding, atGroup, running], by decide, fun _ => ⟨rfl, rfl, rfl⟩,
    fun _ => ⟨rfl, rfl, by decide, by decide, by decide⟩, fun h => by cases h⟩, ?_⟩
  have h : step decoding = exec (.lit 2#7) decoding := by rfl
  exact ⟨litGroup 2#7 decoding, by rw [h]; rfl⟩

theorem witness_ResetInputClearsTheBlock :
    ({ decoding with inputs := [.reset] } : State).inputs = .reset :: [] := by rfl

theorem witness_StepKeepsMemsize : ∃ t, step State.reset = .next t := ⟨_, rfl⟩

theorem witness_StepRunsTheDecodedCommand :
    let s := running 0x23#32 Operands.zero (memAt 0 [])
    s.inputs = [] ∧ s.status.busy = true ∧ s.seq = .command ∧ decode (.command s.cmd) = .ok .paldet := by
  exact ⟨rfl, rfl, rfl, rfl⟩

theorem witness_StepRunsTheDecodedGroup_fetch :
    decoding.inputs = [] ∧ decoding.status.busy = true ∧ decoding.seq = .stream ∧
      decoding.q < decoding.latch.len.toNat ∧ decoding.pc < decoding.latch.srclen.toNat ∧
      decoding.mem.read (decoding.latch.src.toNat + decoding.pc) = some 0x02 ∧
      decode (.control 0x02) = .ok (.lit 2#7) := by decide

theorem witness_StepRunsTheDecodedGroup_bus :
    let s := atGroup { oPb 4 3 with src := 64#32, dst := 0#32 } (memAt 0 []) 0 0
    s.inputs = [] ∧ s.status.busy = true ∧ s.seq = .stream ∧ s.q < s.latch.len.toNat ∧ s.pc < s.latch.srclen.toNat ∧
      s.mem.size ≤ s.latch.src.toNat + s.pc := by decide

theorem witness_IdleBlockDoesNothing :
    let s := nextOf .paldet (running 0x23#32 (oColors 0) (memAt 0 []))
    s.inputs = [] ∧ s.status.busy = false ∧ s.status.done = true ∧ s.status.err = false := by decide

theorem witness_HostReadsReturnTheRegister :
    decoding.status.busy = true ∧ State.reset.status.busy = false ∧
      (Reg.status ≠ .produced ∧ Reg.status ≠ .consumed ∧ Reg.status ≠ .result) := by decide

theorem witness_StepRunsTheDecodedGroup_full :
    let s := atGroup (oPb 4 3) (memAt 0 []) 4 3
    s.q = s.latch.len.toNat ∧ s.pc ≤ s.latch.srclen.toNat := by decide

theorem witness_StepRunsTheDecodedGroup_short :
    let s := atGroup (oPb 4 3) (memAt 0 []) 4 2
    s.q < s.latch.len.toNat ∧ s.pc = s.latch.srclen.toNat := by decide

theorem witness_PlacedCodeIsRunNext :
    0 < State.reset.mem.size ∧ decodeTableWord 8 0x80 = some .nop ∧ decodeTableWord 32 0x23 = some .paldet := by decide

theorem witness_CmdWriteIssuesOrIsRefused :
    decoding.status.busy = true ∧ (raise .badParam decoding).status.err = true ∧
      State.reset.status.busy = false ∧ State.reset.status.err = false := by decide

theorem witness_RegisterWritesReachOneRegister : IsOperand .src ∧ IsOperand .pixlen := by
  exact ⟨by unfold IsOperand; decide, by unfold IsOperand; decide⟩

theorem witness_OperandWritesDoNotReachTheRunningCommand :
    IsOperand .len ∧ exec .nop decoding = .next (nopGroup decoding) := ⟨by unfold IsOperand; decide, rfl⟩

theorem witness_InstructionsLeaveOperandsAlone : ∃ t, exec .pbdec decoding = .next t := ⟨_, rfl⟩

theorem witness_EveryCommandCompletes :
    Instr.isStream .pbdec = false ∧ (raise .badParam decoding).status.err = true := by decide

theorem witness_FaultStopsTheBlockUntilReset :
    let s : State := { raise .badParam decoding with inputs := [.writeReg .cmd 0x22#32, .readReg .status] }
    s.status.busy = false ∧ s.status.err = true ∧ Input.reset ∉ s.inputs ∧
      (∀ a b, Input.writeMem a b ∉ s.inputs) ∧ ∃ t, Host.Core.run core 2 s = .next t := by
  exact ⟨rfl, rfl, by decide, fun a b => by simp, ⟨_, rfl⟩⟩

/-- The same with a host write at 9 among the moves: no move writes 8. -/
theorem witness_FaultStopsTheBlockUntilReset_write :
    let s : State := { raise .badParam decoding with inputs := [.writeMem 9 0x77, .readMem 9] }
    s.status.busy = false ∧ s.status.err = true ∧ Input.reset ∉ s.inputs ∧
      (∀ b, Input.writeMem 8 b ∉ s.inputs) ∧ ∃ t, Host.Core.run core 2 s = .next t := by
  exact ⟨rfl, rfl, by decide, fun b => by simp, ⟨_, rfl⟩⟩

theorem witness_UnassignedCodeIsIllegalCommand :
    let s : State := { State.reset with inputs := [.writeReg .cmd 0x03#32] }
    s.inputs = [.writeReg .cmd 0x03#32] ∧ s.status.busy = false ∧ s.status.err = false ∧
      (0x03#32).toNat ∉ [0x01, 0x02, 0x10, 0x11, 0x12, 0x13, 0x20, 0x21, 0x22, 0x23] := by decide

theorem witness_IssuedCodeIsDoneAfterOneTurn :
    let s : State := { State.reset with inputs := [.writeReg .cmd 0x22#32] }
    s.inputs = [.writeReg .cmd 0x22#32] ∧ s.status.busy = false ∧ s.status.err = false := by decide

theorem witness_HostReachesMemoryOnlyWhileIdle :
    decoding.status.busy = true ∧ State.reset.status.busy = false ∧ 4294967295 < State.reset.mem.size ∧
      State.reset.mem.size ≤ 4294967296 := by decide

/-- The last byte of M, written by PALDEF, read by the host. -/
theorem witness_HostReachesMemoryOnlyWhileIdle_read :
    let s := nextOf .paldef (running 0x22#32 { oColors 2 with dst := 60#32 } (memAt 0 []))
    s.status.busy = false ∧ s.mem.read 63 = some 0xFF := by decide

theorem witness_DecodeAndEncodeAgree :
    Instr.wf (.rep 1#7) = true ∧ decode (.control 0x81) = .ok (.rep 1#7) ∧ decode (.command 0x02#32) = .ok .pbenc :=
  ⟨rfl, rfl, rfl⟩

theorem witness_ControlBytesPartition :
    sext8 0x00 = 0 ∧ sext8 0x7F = 127 ∧ sext8 0x80 = -128 ∧ sext8 0x81 = -127 ∧ sext8 0xFF = -1 := by decide

theorem witness_GroupBytesReadBack : Group.wf (.rep 2 0x55) = true ∧ Group.wf (.lit [0x00]) = true := by decide

/-! LIT: a row one byte short (overrun), a row of exactly the count, a source cut short, a byte outside M. -/

theorem witness_LitCopiesItsLiteralBytes_overrun :
    let s := atGroup (oPb 4 2) (memAt 0 [0x02, 0xAA, 0xBB, 0xCC]) 0 0
    s.pc < s.latch.srclen.toNat ∧ s.q ≤ s.latch.len.toNat ∧ s.latch.len.toNat < s.q + ((2#7).toNat + 1) := by decide

theorem witness_LitCopiesItsLiteralBytes_copy (n : Nat) (h : n = 4 ∨ n = 3) :
    let s := atGroup (oPb n 3) (memAt 0 [0x02, 0xAA, 0xBB, 0xCC]) 0 0
    let avail := min 3 (s.latch.srclen.toNat - (s.pc + 1))
    s.pc < s.latch.srclen.toNat ∧ s.q ≤ s.latch.len.toNat ∧ s.q + ((2#7).toNat + 1) ≤ s.latch.len.toNat ∧
      Apart (s.latch.src.toNat + s.pc + 1) avail (s.latch.dst.toNat + s.q) avail ∧
      InMem s.mem (s.latch.src.toNat + s.pc + 1) avail ∧ InMem s.mem (s.latch.dst.toNat + s.q) avail := by
  rcases h with rfl | rfl <;> (unfold Apart InMem; decide)

theorem witness_LitCopiesItsLiteralBytes_bus :
    let s := atGroup { oPb 4 3 with dst := 63#32 } (memAt 0 [0x02, 0xAA, 0xBB, 0xCC]) 0 0
    s.q + ((2#7).toNat + 1) ≤ s.latch.len.toNat ∧ 1 < min 3 (s.latch.srclen.toNat - (s.pc + 1)) ∧
      Apart (s.latch.src.toNat + s.pc + 1) 1 (s.latch.dst.toNat + s.q) 1 ∧
      InMem s.mem (s.latch.src.toNat + s.pc + 1) 1 ∧ InMem s.mem (s.latch.dst.toNat + s.q) 1 ∧
      s.mem.size ≤ s.latch.dst.toNat + s.q + 1 := by
  unfold Apart InMem; decide

/-! REP: the same, and the value byte missing or outside M. -/

theorem witness_RepRepeatsItsValueByte_overrun :
    let s := atGroup (oPb 2 2) (memAt 0 [0xFE, 0x55]) 0 0
    s.pc < s.latch.srclen.toNat ∧ s.q ≤ s.latch.len.toNat ∧ s.latch.len.toNat < s.q + (129 - (126#7).toNat) := by decide

theorem witness_RepRepeatsItsValueByte_missing :
    let s := atGroup (oPb 1 3) (memAt 0 [0xFE]) 0 0
    s.pc < s.latch.srclen.toNat ∧ s.q + (129 - (126#7).toNat) ≤ s.latch.len.toNat ∧
      s.pc + 1 = s.latch.srclen.toNat := by decide

theorem witness_RepRepeatsItsValueByte_fill :
    let s := atGroup (oPb 2 3) (memAt 0 [0xFE, 0x55]) 0 0
    s.q + (129 - (126#7).toNat) ≤ s.latch.len.toNat ∧ s.pc + 1 < s.latch.srclen.toNat ∧
      s.latch.src.toNat + s.pc + 1 < s.mem.size ∧ InMem s.mem (s.latch.dst.toNat + s.q) (129 - (126#7).toNat) := by
  unfold InMem; decide

theorem witness_RepRepeatsItsValueByte_read_bus :
    let s := atGroup { oPb 2 3 with src := 63#32 } (memAt 63 [0xFE]) 0 0
    s.q + (129 - (126#7).toNat) ≤ s.latch.len.toNat ∧ s.pc + 1 < s.latch.srclen.toNat ∧
      s.mem.size ≤ s.latch.src.toNat + s.pc + 1 := by decide

theorem witness_RepRepeatsItsValueByte_write_bus :
    let s := atGroup { oPb 2 3 with dst := 62#32 } (memAt 0 [0xFE, 0x55]) 0 0
    s.q + (129 - (126#7).toNat) ≤ s.latch.len.toNat ∧ s.pc + 1 < s.latch.srclen.toNat ∧
      s.latch.src.toNat + s.pc + 1 < s.mem.size ∧ 2 < 129 - (126#7).toNat ∧
      InMem s.mem (s.latch.dst.toNat + s.q) 2 ∧ s.mem.size ≤ s.latch.dst.toNat + s.q + 2 := by
  unfold InMem; decide

/-! PBDEC: the row `55 55 11` from `FF 55`, `00 11`, with a byte left over. -/

theorem witness_PbdecDecodesTheGroupsOfARow :
    let gs : List Group := [.rep 2 0x55, .lit [0x11]]
    let s := running 0x01#32 (oPb 5 3) (memAt 0 [0xFF, 0x55, 0x00, 0x11, 0x80])
    (∀ g ∈ gs, g.wf = true) ∧ FetchesAll gs s.latch.len.toNat ∧ (outputAll gs).length = s.latch.len.toNat ∧
      (assembleAll gs).length ≤ s.latch.srclen.toNat ∧
      Apart s.latch.src.toNat s.latch.srclen.toNat s.latch.dst.toNat s.latch.len.toNat ∧
      Holds s.mem s.latch.src.toNat (assembleAll gs) ∧ InMem s.mem s.latch.dst.toNat s.latch.len.toNat := by
  refine ⟨by decide, by unfold FetchesAll; decide, by decide, by decide, by unfold Apart; decide,
    holds_of_memRead (by decide), by unfold InMem; decide⟩

theorem witness_PbdecRaisesTruncatedData (tail extra : List Byte) (count n : Nat)
    (h : (tail = [] ∧ extra = [] ∧ count = 0 ∧ n = 2) ∨ (tail = [0x01, 0x11] ∧ extra = [0x11] ∧ count = 2 ∧ n = 4) ∨
      (tail = [0x81] ∧ extra = [] ∧ count = 128 ∧ n = 3)) :
    let gs : List Group := [.rep 2 0x55]
    let s : State := running 0x01#32 { oPb n 130 with dst := 62#32 } { memAt 0 ([0xFF, 0x55] ++ tail) with size := 65 }
    (∀ g ∈ gs, g.wf = true) ∧ CutGroup tail extra count ∧ (outputAll gs).length + count ≤ s.latch.len.toNat ∧
      (outputAll gs ++ extra).length < s.latch.len.toNat ∧ (assembleAll gs ++ tail).length = s.latch.srclen.toNat ∧
      Apart s.latch.src.toNat s.latch.srclen.toNat s.latch.dst.toNat s.latch.len.toNat ∧
      Holds s.mem s.latch.src.toNat (assembleAll gs ++ tail) ∧
      InMem s.mem s.latch.dst.toNat (outputAll gs ++ extra).length := by
  rcases h with ⟨rfl, rfl, rfl, rfl⟩ | ⟨rfl, rfl, rfl, rfl⟩ | ⟨rfl, rfl, rfl, rfl⟩
  · exact ⟨by decide, .between, by decide, by decide, by decide, by unfold Apart; decide,
      holds_of_memRead (by decide), by unfold InMem; decide⟩
  · exact ⟨by decide, .literal 2 [0x11] (by decide) (by decide), by decide, by decide, by decide,
      by unfold Apart; decide, holds_of_memRead (by decide), by unfold InMem; decide⟩
  · exact ⟨by decide, .repeated 128 (by decide) (by decide), by decide, by decide, by decide,
      by unfold Apart; decide, holds_of_memRead (by decide), by unfold InMem; decide⟩

theorem witness_PbdecRaisesRowOverrun :
    let gs : List Group := [.lit [0xAA, 0xBB]]
    let g : Group := .rep 4 0x11
    let s := running 0x01#32 (oPb 4 4) (memAt 0 [0x01, 0xAA, 0xBB, 0xFD])
    (∀ g' ∈ gs, g'.wf = true) ∧ g.wf = true ∧ g.assemble.head? = some 0xFD ∧
      (outputAll gs).length < s.latch.len.toNat ∧ s.latch.len.toNat < (outputAll gs ++ g.output).length ∧
      (assembleAll gs).length < s.latch.srclen.toNat ∧
      Apart s.latch.src.toNat s.latch.srclen.toNat s.latch.dst.toNat s.latch.len.toNat ∧
      Holds s.mem s.latch.src.toNat (assembleAll gs ++ [0xFD]) ∧
      InMem s.mem s.latch.dst.toNat (outputAll gs).length := by
  exact ⟨by decide, by decide, by decide, by decide, by decide, by decide, by unfold Apart; decide,
    holds_of_memRead (by decide), by unfold InMem; decide⟩

/-! PBDEC with BusError after `FF 55`: at the fetch, at a LIT's literal byte, at a LIT's write, at a REP's value byte and
at a REP's write. -/

theorem witness_PbdecRaisesBusError (src dst : Nat) (next : List Byte)
    (h : (src = 62 ∧ dst = 0 ∧ next = []) ∨ (src = 60 ∧ dst = 0 ∧ next = [0x02, 0xAA]) ∨
      (src = 0 ∧ dst = 61 ∧ next = [0x02, 0xAA, 0xBB, 0xCC]) ∨ (src = 61 ∧ dst = 0 ∧ next = [0xFE]) ∨
      (src = 0 ∧ dst = 61 ∧ next = [0xFE, 0x66])) :
    let gs : List Group := [.rep 2 0x55]
    let s := running 0x01#32 { oPb 6 5 with src := BitVec.ofNat 32 src, dst := BitVec.ofNat 32 dst }
      (memAt src ([0xFF, 0x55] ++ next))
    (∀ g ∈ gs, g.wf = true) ∧ (outputAll gs).length < s.latch.len.toNat ∧
      (assembleAll gs).length < s.latch.srclen.toNat ∧
      Apart s.latch.src.toNat s.latch.srclen.toNat s.latch.dst.toNat s.latch.len.toNat ∧
      Holds s.mem s.latch.src.toNat (assembleAll gs) ∧ InMem s.mem s.latch.dst.toNat (outputAll gs).length := by
  rcases h with ⟨rfl, rfl, rfl⟩ | ⟨rfl, rfl, rfl⟩ | ⟨rfl, rfl, rfl⟩ | ⟨rfl, rfl, rfl⟩ | ⟨rfl, rfl, rfl⟩ <;>
    exact ⟨by decide, by decide, by decide, by unfold Apart; decide, holds_of_memRead (by decide),
      by unfold InMem; decide⟩

/-- The clauses of the same statement, with `pc` 2 and `q` 2. -/
theorem witness_PbdecRaisesBusError_clauses :
    (memAt 62 [0xFF, 0x55]).size ≤ 62 + 2 ∧
      ((memAt 60 [0xFF, 0x55, 0x02, 0xAA]).read 62 = some 0x02 ∧ decode (.control 0x02) = .ok (.lit 2#7) ∧
        InMem (memAt 0 []) (62 + 1) 1 ∧ InMem (memAt 0 []) (0 + 2) 1 ∧ (memAt 0 []).size ≤ 62 + 1 + 1) ∧
      ((memAt 0 [0xFF, 0x55, 0x02]).read 2 = some 0x02 ∧ InMem (memAt 0 []) (2 + 1) 1 ∧ InMem (memAt 0 []) (61 + 2) 1 ∧
        (memAt 0 []).size ≤ 61 + 2 + 1) ∧
      ((memAt 61 [0xFF, 0x55, 0xFE]).read 63 = some 0xFE ∧ decode (.control 0xFE) = .ok (.rep 126#7) ∧
        2 + (129 - (126#7).toNat) ≤ 5 ∧ (memAt 0 []).size ≤ 63 + 1) ∧
      ((memAt 0 [0xFF, 0x55, 0xFE, 0x66]).read 2 = some 0xFE ∧ 2 + 1 < (memAt 0 []).size ∧ 1 < 129 - (126#7).toNat ∧
        InMem (memAt 0 []) (61 + 2) 1 ∧ (memAt 0 []).size ≤ 61 + 2 + 1) := by
  unfold InMem; decide

theorem witness_PbdecReportsWhatItReached :
    BadParamRow .pbdec (oPb 33 1) ∧ ¬ BadParamRow .pbdec (oPb 32 1) := by
  simp only [BadParamRow, Apart]; decide

theorem witness_PbdecGroupByGroupIsTheWholeCommand :
    let s := running 0x01#32 (oPb 4 3) (memAt 0 [0x02, 0xAA, 0xBB, 0xCC])
    s.inputs = [] ∧ s.status.busy = true ∧ s.seq = .command ∧ s.cmd = 0x01#32 := by decide

/-! PBENC: `07 07 07`, `FE 07`. -/

theorem witness_PbencWritesTheEncodedRow :
    let X : List Byte := [0x07, 0x07, 0x07]
    let s := running 0x02#32 { oPb 3 0 with dst := 62#32 } (memAt 0 X)
    s.mem.size ≤ 4294967296 ∧ X.length = s.latch.srclen.toNat ∧ Holds s.mem s.latch.src.toNat X ∧
      Apart s.latch.src.toNat X.length s.latch.dst.toNat (X.length + X.length / 128 + 1) ∧
      InMem s.mem s.latch.dst.toNat (encodedRow X).length ∧ BadParamRow .pbenc { oPb 3 0 with dst := 2#32 } := by
  exact ⟨by decide, by decide, holds_of_memRead (by decide), by unfold Apart; decide, by unfold InMem; decide,
    by simp only [BadParamRow, Apart]; decide⟩

theorem witness_PbencEmitsGroupsOfTheRow :
    let X : List Byte := [0x07, 0x07, 0x07]
    let s := running 0x02#32 (oPb 3 0) (memAt 0 X)
    s.mem.size ≤ 4294967296 ∧ X.length = s.latch.srclen.toNat ∧ Holds s.mem s.latch.src.toNat X ∧
      ∃ t, exec .pbenc s = .next t ∧ t.status.err = false := by
  exact ⟨by decide, by decide, holds_of_memRead (by decide), _, rfl, by decide⟩

theorem witness_PbencRaisesBusError_source :
    let s := running 0x02#32 { oPb 2 0 with src := 63#32, dst := 0#32 } (memAt 63 [0x07])
    Apart s.latch.src.toNat s.latch.srclen.toNat s.latch.dst.toNat (s.latch.srclen.toNat + s.latch.srclen.toNat / 128 + 1) ∧
      ¬ InMem s.mem s.latch.src.toNat s.latch.srclen.toNat := by
  unfold Apart InMem; decide

theorem witness_PbencRaisesBusError_output :
    let X : List Byte := [0x07, 0x07, 0x07]
    let s := running 0x02#32 { oPb 3 0 with dst := 63#32 } (memAt 0 X)
    Apart s.latch.src.toNat s.latch.srclen.toNat s.latch.dst.toNat (s.latch.srclen.toNat + s.latch.srclen.toNat / 128 + 1) ∧
      X.length = s.latch.srclen.toNat ∧ Holds s.mem s.latch.src.toNat X ∧
      ¬ InMem s.mem s.latch.dst.toNat (encodedRow X).length := by
  exact ⟨by unfold Apart; decide, by decide, holds_of_memRead (by decide), by unfold InMem; decide⟩

theorem witness_PbdecUndoesPbenc :
    let s := running 0x02#32 (oPb 3 0) (memAt 0 [0x07, 0x07, 0x07])
    let t := nextOf .pbenc s
    let u := running 0x01#32 { oPb 2 3 with src := 32#32, dst := 61#32 } t.mem
    s.mem.size ≤ 4294967296 ∧ exec .pbenc s = .next t ∧ t.status.err = false ∧ u.mem = t.mem ∧
      u.latch.src = s.latch.dst ∧ u.latch.srclen = t.produced ∧ u.latch.len = s.latch.srclen ∧
      Apart u.latch.src.toNat u.latch.srclen.toNat u.latch.dst.toNat u.latch.len.toNat ∧
      InMem u.mem u.latch.dst.toNat u.latch.len.toNat := by
  exact ⟨by decide, exec_nextOf _ _, by decide, rfl, rfl, by decide, rfl, by unfold Apart; decide,
    by unfold InMem; decide⟩

/-! The planes: both extents ending at M's end, one byte beyond it, and an illegal operand. -/

theorem witness_DeintReblocksToPlaneMajor_IntlvReblocksToInterleaved :
    let o := { oPlanes 17 1 1 3 0 with dst := 60#32 }
    let s := running 0x10#32 o (memAt 0 [0x11, 0x12, 0x13])
    s.mem.size ≤ 4294967296 ∧ ReblockLegal o ∧ o.src.toNat + planesIn o ≤ s.mem.size ∧
      o.dst.toNat + planesOut o ≤ s.mem.size ∧
      ReblockLegal { o with dst := 61#32 } ∧ s.mem.size < 61 + planesOut o ∧ ¬ ReblockLegal { o with srb := 5#32 } := by
  refine ⟨by decide, ?_, by decide, by decide, ?_, by decide, ?_⟩ <;>
    (unfold ReblockLegal GeometryLegal Apart; decide)

theorem witness_TranspTransposesByteColumns :
    let o := { oColumns 1 2 3 4 with dst := 56#32 }
    let s := running 0x12#32 o (memAt 0 [0x00, 0x01, 0x10, 0x11, 0x20, 0x21])
    s.mem.size ≤ 4294967296 ∧ TransposeLegal o ∧ InMem s.mem o.src.toNat (3 * 2 * 1) ∧ InMem s.mem o.dst.toNat (2 * 4) ∧
      TransposeLegal { o with dst := 57#32 } ∧ ¬ InMem s.mem 57 (2 * 4) ∧ ¬ TransposeLegal { o with drb := 2#32 } := by
  unfold TransposeLegal Apart InMem; decide

/-- One pixel whose plane row ends one byte beyond M: the byte it needs is M's last. -/
theorem witness_ChunkyGathersThePixels :
    let o := { oPlanes 1 1 1 2 3 with src := 63#32, dst := 0#32 }
    let s := running 0x13#32 o (memAt 63 [0x80])
    s.mem.size ≤ 4294967296 ∧ ChunkyLegal o ∧ chunkyLastRead o < s.mem.size ∧
      o.dst.toNat + o.width.toNat * o.height.toNat ≤ s.mem.size ∧
      ChunkyLegal { o with src := 64#32 } ∧ s.mem.size ≤ chunkyLastRead { o with src := 64#32 } ∧
      ¬ ChunkyLegal { o with flags := 4#32 } := by
  unfold ChunkyLegal GeometryLegal Apart; decide

theorem witness_IntlvAndDeintUndoEachOther (i i' : Instr) (h : (i = .deint ∧ i' = .intlv) ∨ (i = .intlv ∧ i' = .deint)) :
    let s := running 0x10#32 (oPlanes 4 2 2 1 0) (memAt 0 [0xF0, 0x0F, 0x00, 0xFF])
    let t := nextOf i s
    let u := running 0x11#32 { oPlanes 4 2 2 2 0 with src := 32#32, dst := 56#32 } t.mem
    s.mem.size ≤ 4294967296 ∧ exec i s = .next t ∧ t.status.err = false ∧ u.mem = t.mem ∧
      u.latch.src = s.latch.dst ∧ u.latch.width = s.latch.width ∧ u.latch.height = s.latch.height ∧
      u.latch.nplanes = s.latch.nplanes ∧ u.latch.srb.toNat = rowBytesOf s.latch.width.toNat ∧
      Apart u.latch.src.toNat (planesIn u.latch) u.latch.dst.toNat (planesOut u.latch) ∧
      u.latch.dst.toNat + planesOut u.latch ≤ u.mem.size := by
  rcases h with ⟨rfl, rfl⟩ | ⟨rfl, rfl⟩ <;>
    exact ⟨by decide, exec_nextOf _ _, by decide, rfl, rfl, rfl, rfl, rfl, by decide, by unfold Apart; decide, by decide⟩

theorem witness_TranspIsSelfInverse :
    let s := running 0x12#32 (oColumns 1 3 2 2) (memAt 0 [0x00, 0x01, 0x02, 0x10, 0x11, 0x12])
    let t := nextOf .transp s
    let u := running 0x12#32 { oColumns 1 2 3 3 with src := 32#32, dst := 58#32 } t.mem
    s.mem.size ≤ 4294967296 ∧ s.latch.drb.toNat = s.latch.cols.toNat * s.latch.colw.toNat ∧ exec .transp s = .next t ∧
      t.status.err = false ∧ u.mem = t.mem ∧ u.latch.src = s.latch.dst ∧ u.latch.colw = s.latch.colw ∧
      u.latch.rows = s.latch.cols ∧ u.latch.cols = s.latch.rows ∧
      u.latch.drb.toNat = s.latch.rows.toNat * s.latch.colw.toNat ∧
      Apart u.latch.src.toNat 6 u.latch.dst.toNat 6 ∧ InMem u.mem u.latch.dst.toNat 6 := by
  exact ⟨by decide, by decide, exec_nextOf _ _, by decide, rfl, rfl, rfl, rfl, rfl, by decide, by unfold Apart; decide,
    by unfold InMem; decide⟩

theorem witness_ChunkySurfaceIsLayoutIndependent :
    let s := running 0x10#32 (oPlanes 4 1 2 1 0) (memAt 0 [0xF0, 0xC0])
    let t := nextOf .deint s
    let c := running 0x13#32 { oPlanes 4 1 2 1 3 with dst := 48#32 } s.mem
    let d := nextOf .chunky c
    let u := running 0x13#32 { oPlanes 4 1 2 2 1 with src := 32#32, dst := 60#32 } t.mem
    s.mem.size ≤ 4294967296 ∧ exec .deint s = .next t ∧ t.status.err = false ∧ c.latch.flags.getLsbD 1 = true ∧
      exec .chunky c = .next d ∧ d.status.err = false ∧ u.latch.srb.toNat = rowBytesOf s.latch.width.toNat ∧
      u.latch.flags.toNat < 4 ∧ u.latch.flags.getLsbD 1 = false ∧
      u.latch.flags.getLsbD 0 = c.latch.flags.getLsbD 0 ∧
      Apart u.latch.src.toNat (planesIn u.latch) u.latch.dst.toNat (s.latch.width.toNat * s.latch.height.toNat) ∧
      u.latch.dst.toNat + s.latch.width.toNat * s.latch.height.toNat ≤ u.mem.size := by
  exact ⟨by decide, exec_nextOf _ _, by decide, by decide, exec_nextOf _ _, by decide, by decide, by decide, by decide,
    by decide, by unfold Apart; decide, by decide⟩

/-! The palettes: both extents ending at M's end, one byte beyond it, and 256 and 257 colours. -/

theorem witness_PaldnScalesTripletsDown :
    BadParamRow .paldn (oColors 257) ∧ ¬ BadParamRow .paldn { oColors 256 with dst := 768#32 } ∧
      ¬ BadParamRow .paldn { oColors 3 with dst := 58#32 } ∧ InMem (memAt 0 []) 0 (3 * 3) ∧
      InMem (memAt 0 []) 58 (2 * 3) ∧ ¬ BadParamRow .paldn { oColors 3 with dst := 59#32 } ∧
      ¬ InMem (memAt 0 []) 59 (2 * 3) := by
  simp only [BadParamRow, Apart, InMem]; decide

theorem witness_PalupExpandsColourWords :
    BadParamRow .palup (oColors 257) ∧ ¬ BadParamRow .palup { oColors 256 with dst := 512#32 } ∧
      ¬ BadParamRow .palup { oColors 3 with dst := 55#32 } ∧ InMem (memAt 0 []) 0 (2 * 3) ∧
      InMem (memAt 0 []) 55 (3 * 3) ∧ ¬ BadParamRow .palup { oColors 3 with dst := 56#32 } ∧
      ¬ InMem (memAt 0 []) 56 (3 * 3) := by
  simp only [BadParamRow, Apart, InMem]; decide

theorem witness_PaldefWritesTheDefaultPalette :
    256 < (oColors 257).ncolors.toNat ∧ (oColors 16).ncolors.toNat ≤ 256 ∧ InMem (memAt 0 []) 32 (2 * 16) ∧
      ¬ InMem (memAt 0 []) 33 (2 * 16) := by
  unfold InMem; decide

theorem witness_PaldetDetectsATrailingPalette :
    let o := { oColors 256 with filelen := 512#32, pixlen := 0#32 }
    o.ncolors.toNat ≤ 256 ∧ o.filelen.toNat = o.pixlen.toNat + o.ncolors.toNat * 2 ∧ 256 < (oColors 257).ncolors.toNat ∧
      (512 ≠ 512 + 1 * 2 ∧ 512 = 512) ∧ (513 ≠ 512 + 1 * 2 ∧ 513 ≠ 512) := by decide

theorem witness_PalupAfterPaldnGivesTheBuckets :
    let s := running 0x20#32 (oColors 2) (memAt 0 [0x12, 0x34, 0x56, 0xFF, 0xFF, 0xFF])
    let t := nextOf .paldn s
    let u := running 0x21#32 { oColors 2 with src := 32#32, dst := 58#32 } t.mem
    exec .paldn s = .next t ∧ t.status.err = false ∧ u.mem = t.mem ∧ u.latch.src = s.latch.dst ∧
      u.latch.ncolors = s.latch.ncolors ∧ Apart u.latch.src.toNat (2 * 2) u.latch.dst.toNat (3 * 2) ∧
      InMem u.mem u.latch.dst.toNat (3 * 2) ∧ s.mem.read (s.latch.src.toNat + 5) = some 0xFF := by
  exact ⟨exec_nextOf _ _, by decide, rfl, rfl, rfl, by unfold Apart; decide, by unfold InMem; decide, by decide⟩

/-! The rules over all commands. -/

theorem witness_CommandsWriteOnlyTheirDestination_CommandsNeverModifyTheirSource :
    let s := running 0x10#32 (oPlanes 4 2 2 1 0) (memAt 0 [0xF0, 0x0F, 0x00, 0xFF])
    Instr.isStream .deint = false ∧ exec .deint s = .next (nextOf .deint s) ∧
      s.latch.src.toNat ≤ 3 ∧ 3 < s.latch.src.toNat + sourceBytes .deint s.latch := by
  exact ⟨rfl, exec_nextOf _ _, by decide, by decide⟩

theorem witness_CommandsReadOnlyTheirOperandRow :
    let s := running 0x23#32 (oColors 1) (memAt 0 [])
    AgreeOnRow .paldet s.latch { oColors 1 with src := 5#32, len := 7#32 } ∧
      exec .paldet s = .next (nextOf .paldet s) := by
  exact ⟨by simp [AgreeOnRow, running], exec_nextOf _ _⟩

theorem witness_CommandsDependOnlyOnOperandsAndSource :
    let s := running 0x21#32 (oColors 1) (memAt 0 [0x01, 0x35])
    let m := s.mem.set 40 0x77
    Instr.isStream .palup = false ∧ exec .palup s = .next (nextOf .palup s) ∧ m.size = s.mem.size ∧ m ≠ s.mem ∧
      (nextOf .palup s).mem.draws = s.mem.draws ∧
      ∀ a, s.latch.src.toNat ≤ a → a < s.latch.src.toNat + sourceBytes .palup s.latch → m.read a = s.mem.read a := by
  refine ⟨rfl, exec_nextOf _ _, rfl, by decide, by decide, fun a _ h => ?_⟩
  have h2 : a < 2 := h
  exact Memory.read_congr rfl (Memory.byteAt_set_ne _ _ (by omega))

theorem witness_CommandsDependOnlyOnOperandsAndSource_bus :
    let s := running 0x22#32 { oColors 1 with dst := 63#32 } (memAt 0 [])
    exec .paldef s = .next (nextOf .paldef s) ∧ (nextOf .paldef s).mem.draws ≠ s.mem.draws ∧ s.status.err = false := by
  exact ⟨exec_nextOf _ _, by decide, rfl⟩

theorem witness_BadParamExactlyByTheTable :
    (running 0x01#32 (oPb 33 1) (memAt 0 [])).status.err = false ∧ BadParamRow .pbdec (oPb 33 1) ∧
      ¬ BadParamRow .pbdec (oPb 32 1) := by
  simp only [BadParamRow, Apart]; decide

end Sys2Proof.Tests
end

section
/-! No step changes MEMSIZE (00_scope.md R15, 10_state.md R33): what each kind of turn does to the size of the buffer
memory, assembled over the cases of a step. -/
namespace Sys2Proof.Machine

/-- Whatever a command ends in, MEMSIZE is kept: its operand check fails and M is untouched, or M is confined to the
destination extent. -/
theorem Ends.mem_size {i : Instr} {s t : State} (h : Ends i s t) : t.mem.size = s.mem.size := by
  obtain ⟨m, p, c, r, pc, q, hconfined, hsame, _, ht⟩ := h
  have hm : m.size = s.mem.size := by
    cases hp : paramsOk i s.latch with
    | true => exact (hconfined hp).size
    | false => rw [hsame hp]
  rcases ht with rfl | ⟨f, rfl⟩ <;> exact hm

/-- A group run under the test of PBDEC's loop (R121) keeps MEMSIZE, however it ends. -/
theorem runGroup_mem_size {c : Byte} {s : State} (hp : s.pc < s.latch.srclen.toNat) (hq : s.q ≤ s.latch.len.toNat) :
    (runGroup c s).mem.size = s.mem.size := by
  obtain ⟨pc, q, m, _, _, _, _, hw, ⟨_, he⟩ | he | ⟨_, _, _, he⟩⟩ := runGroup_cases (c := c) hp hq
  · simp [he, hw.size]
  · simp [he, hw.size]
  · simp [he]

theorem streamTurn_mem_size (s : State) : (streamTurn s).mem.size = s.mem.size := by
  rcases streamTurn_cases s with ⟨c, hq, hp, _, he⟩ | ⟨_, _, he⟩ | ⟨_, he⟩ | ⟨_, _, he⟩
  · rw [he, runGroup_mem_size hp (Nat.le_of_lt hq)]
  · simp [he]
  · simp [he]
  · simp [he]

theorem sequencerTurn_mem_size {s t : State} (h : sequencerTurn s = .next t) : t.mem.size = s.mem.size := by
  rcases sequencerTurn_cases s with ⟨_, he⟩ | ⟨_, _, i, _, hi, he⟩ | ⟨_, _, he⟩ | ⟨_, _, he⟩
  · cases he.symm.trans h; rfl
  · obtain ⟨u, hu, hends⟩ := exec_command_ends hi s
    cases (he.trans hu).symm.trans h
    exact hends.mem_size
  · cases he.symm.trans h; rfl
  · cases he.symm.trans h; exact streamTurn_mem_size s

/-- Beginning a PBDEC group by group touches no byte of M, whether or not the operand check refuses it. -/
@[simp] theorem beginPbdec_mem (s : State) : (beginPbdec s).mem = s.mem := by
  unfold beginPbdec
  split <;> rfl

theorem groupwiseTurn_mem_size {s t : State} (h : groupwiseTurn s = .next t) : t.mem.size = s.mem.size := by
  rcases groupwiseTurn_cases s with he | ⟨_, _, _, he⟩
  · exact sequencerTurn_mem_size (he.symm.trans h)
  · cases he.symm.trans h; rw [beginPbdec_mem]

/-- A host write of a register never reaches M, also where it issues a command. -/
@[simp] theorem writeReg_mem (r : Reg) (v : Word) (s : State) : (writeReg r v s).mem = s.mem := by
  rcases writeReg_cases r v s with ⟨_, he⟩ | ⟨_, he⟩ | ⟨_, _, o, he⟩
  · rcases writeCmd_cases v s with ⟨_, hc⟩ | ⟨_, _, hc⟩ <;> simp [he, hc]
  · rw [he]
  · rw [he]

/-- Settles O4, by the cases of a step: the sequencer's turns keep MEMSIZE, a host move changes at most one byte of M,
and the reset input empties M at the same size. -/
theorem stepKeepsMemsize : Obligations.StepKeepsMemsize := by
  intro s t h
  rcases step_cases h with ⟨_, hrun⟩ | ⟨rest, u, rfl, ⟨r, v, _, rfl⟩ | ⟨r, _, rfl⟩ | ⟨a, b, _, _, _, rfl⟩ |
    ⟨a, w, _, rfl⟩ | ⟨_, rfl⟩ | ⟨_, hrun⟩ | ⟨_, hrun⟩⟩
  · exact sequencerTurn_mem_size hrun
  · rw [writeReg_mem]
  · rfl
  · rfl
  · rfl
  · rfl
  · exact (sequencerTurn_mem_size hrun :)
  · exact (groupwiseTurn_mem_size hrun :)

end Sys2Proof.Machine
end

section
/-! How the sequencer's work on a command comes to an end, and what a turn at a group boundary can do: the one account
of an execution that the invariant, the frames and the liveness statements are read off. -/
namespace Sys2Proof.Machine

/-- `m'` has the MEMSIZE of `m` (00_scope.md R15) and is in canonical form where `m` is. -/
structure Memory.Kept (m m' : Memory) : Prop where
  size : m'.size = m.size
  wf : m.wf = true → m'.wf = true

theorem Memory.Kept.refl (m : Memory) : m.Kept m := ⟨rfl, id⟩

theorem Memory.Confined.kept {lo hi : Nat} {m m' : Memory} (h : Memory.Confined lo hi m m') : m.Kept m' :=
  ⟨h.size, h.wf⟩

theorem Memory.Within.kept {lo hi : Nat} {m m' : Memory} (h : Memory.Within lo hi m m') : m.Kept m' := h.confined.kept

theorem Memory.Kept.trans {m m' m'' : Memory} (h : m.Kept m') (h' : m'.Kept m'') : m.Kept m'' :=
  ⟨h'.size.trans h.size, fun hw => h'.wf (h.wf hw)⟩

theorem Memory.Kept.leaveOpen {m m' : Memory} (h : m.Kept m') (a n : Nat) : m.Kept (m'.leaveOpen a n) :=
  h.trans (m'.confined_leaveOpen a n).kept

/-- The sequencer is through with the command in CMD (10_state.md R28): M, the result registers and the cursors at the
values it reached, then completion or a fault. -/
def Finishes (s t : State) : Prop :=
  ∃ (m : Memory) (p c r : Word) (pc q : Nat), s.mem.Kept m ∧ (r = s.result ∨ r = 0#32 ∨ r = 1#32) ∧
    (t = complete { s with mem := m, produced := p, consumed := c, result := r, pc := pc, q := q } ∨
      ∃ f, t = raise f { s with mem := m, produced := p, consumed := c, result := r, pc := pc, q := q })

theorem Ends.finishes {i : Instr} {s t : State} (h : Ends i s t) : Finishes s t := by
  obtain ⟨m, p, c, r, pc, q, hconfined, hsame, hr, ht⟩ := h
  refine ⟨m, p, c, r, pc, q, ?_, hr, ht⟩
  cases hp : paramsOk i s.latch with
  | true => exact (hconfined hp).kept
  | false => rw [hsame hp]; exact .refl _

theorem finishes_raise (f : FaultKind) (s : State) : Finishes s (raise f s) :=
  ⟨s.mem, s.produced, s.consumed, s.result, s.pc, s.q, .refl _, .inl rfl, .inr ⟨f, rfl⟩⟩

theorem finishes_pbdecRefuse (s : State) : Finishes s (pbdecRefuse s) :=
  ⟨s.mem, 0#32, 0#32, s.result, s.pc, s.q, .refl _, .inl rfl, .inr ⟨.badParam, rfl⟩⟩

theorem finishes_complete_writeCounts (s : State) : Finishes s (complete (writeCounts s)) :=
  ⟨s.mem, countWord s.q, countWord s.pc, s.result, s.pc, s.q, .refl _, .inl rfl, .inl rfl⟩

theorem finishes_streamFault (f : FaultKind) (s : State) : Finishes s (streamFault f s) :=
  ⟨s.mem, countWord s.q, countWord s.pc, s.result, s.pc, s.q, .refl _, .inl rfl, .inr ⟨f, rfl⟩⟩

/-- BusError inside PBDEC after accesses that reached the cursor `c`. -/
theorem finishes_streamBusFault {s : State} {c : Cursor} (h : s.mem.Kept c.mem) :
    Finishes s (streamBusFault (s.withCursor c)) :=
  ⟨_, countWord c.q, countWord c.pc, s.result, c.pc, c.q, h.leaveOpen _ _, .inl rfl, .inr ⟨.busError, rfl⟩⟩

/-- 10_state.md R28: after the last lines of a command the block is done and the sequencer at the start of a command. -/
theorem Finishes.done {s t : State} (h : Finishes s t) :
    t.status.busy = false ∧ t.status.done = true ∧ t.seq = .command := by
  obtain ⟨m, p, c, r, pc, q, _, _, rfl | ⟨f, rfl⟩⟩ := h <;> exact ⟨rfl, rfl, rfl⟩

/-- 60_exceptions.md R245: an error stays with the cause first recorded, and without one CAUSE is as it was. -/
theorem Finishes.first_cause {s t : State} (h : Finishes s t) :
    (s.status.err = true → t.status.err = true ∧ t.status.cause = s.status.cause) ∧
      (t.status.err = false → t.status.cause = s.status.cause) := by
  obtain ⟨m, p, c, r, pc, q, _, _, rfl | ⟨f, rfl⟩⟩ := h
  · exact ⟨fun he => ⟨he, rfl⟩, fun _ => rfl⟩
  · exact ⟨fun he => ⟨rfl, by simp [he]⟩, nofun⟩

/-- What a turn at a group boundary does: it goes on at a boundary of the same PBDEC, its cursors in range
(40_packbits_decode.md R120), or it ends the command. -/
theorem streamTurn_outcome (s : State) :
    (∃ c : Cursor, c.pc ≤ s.latch.srclen.toNat ∧ c.q ≤ s.latch.len.toNat ∧ s.mem.Kept c.mem ∧
        streamTurn s = s.withCursor c) ∨
      Finishes s (streamTurn s) := by
  rcases streamTurn_cases s with ⟨b, hq, hp, _, he⟩ | ⟨_, _, he⟩ | ⟨_, he⟩ | ⟨_, _, he⟩
  · rw [he]
    obtain ⟨pc, q, m, _, hpc, _, hq', hw, ⟨_, hgo⟩ | hbus | ⟨_, _, _, hover⟩⟩ :=
      runGroup_cases (c := b) hp (Nat.le_of_lt hq)
    · exact .inl ⟨_, hpc, hq', hw.kept, hgo⟩
    · exact .inr (hbus ▸ finishes_streamBusFault hw.kept)
    · exact .inr (hover ▸ finishes_streamFault _ _)
  · exact .inr (he ▸ finishes_streamBusFault (c := ⟨s.pc, s.q, s.mem⟩) (.refl _))
  · exact .inr (he ▸ finishes_complete_writeCounts s)
  · exact .inr (he ▸ finishes_streamFault _ _)

/-- The turn on which the sequencer begins PBDEC or refuses its operands (40_packbits_decode.md R129, R132). -/
theorem beginPbdec_cases (s : State) :
    (overlap .pbdec s.latch = false ∧ beginPbdec s = beginStream s) ∨
      (overlap .pbdec s.latch = true ∧ beginPbdec s = pbdecRefuse s) := by
  cases h : overlap .pbdec s.latch <;> simp [beginPbdec, paramsOk, h]

end Sys2Proof.Machine
end

section
/-! The invariant of the block (`BlockInv`): each kind of turn keeps it. -/
namespace Sys2Proof.Machine

/-- 60_exceptions.md R240: the codes of the six faults are 1 to 6. -/
theorem causeCode_range (f : FaultKind) : 1 ≤ (causeCode f).toNat ∧ (causeCode f).toNat ≤ 6 := by
  cases f <;> decide

theorem Status.legal.complete {st : Status} (h : st.legal) (hb : st.busy = true) :
    Status.legal { st with busy := false, done := true } := by
  obtain ⟨hbusy, _, hclear⟩ := h
  obtain ⟨_, herr⟩ := hbusy hb
  exact ⟨nofun, fun h => (nomatch herr.symm.trans h), hclear⟩

theorem Status.legal.raise {st : Status} (h : st.legal) (hb : st.busy = true) (f : FaultKind) :
    Status.legal { recordFault f st with busy := false, done := true } := by
  obtain ⟨_, herr⟩ := h.1 hb
  refine ⟨nofun, fun _ => ⟨rfl, ?_⟩, nofun⟩
  simpa [herr] using causeCode_range f

/-- The operand registers, the moves still to come and what the host last read are no part of the invariant. -/
theorem BlockInv.hostSide {s : State} (h : BlockInv s) (o : Operands) (is : List Input) (w : Word) :
    BlockInv { s with regs := o, inputs := is, hostData := w } :=
  ⟨h.memory, h.status, h.verdict, h.cleared, h.stream, h.unissued⟩

theorem BlockInv.setByte {s : State} (h : BlockInv s) {a : Nat} (b : Byte) (ha : a < s.mem.size) :
    BlockInv { s with mem := s.mem.set a b } :=
  ⟨Memory.wf_set b h.memory ha, h.status, h.verdict, h.cleared, h.stream, h.unissued⟩

theorem BlockInv.finishes {s t : State} (h : BlockInv s) (hb : s.status.busy = true) (hf : Finishes s t) :
    BlockInv t := by
  obtain ⟨m, p, c, r, pc, q, hm, hr, ht⟩ := hf
  have hverdict : r.toNat ≤ 1 := by
    rcases hr with rfl | rfl | rfl
    · exact h.verdict
    · decide
    · decide
  rcases ht with rfl | ⟨f, rfl⟩
  · exact ⟨hm.wf h.memory, h.status.complete hb, hverdict, nofun, nofun, fun _ => nofun⟩
  · exact ⟨hm.wf h.memory, h.status.raise hb f, hverdict, nofun, nofun, fun _ => nofun⟩

theorem BlockInv.streamTurn {s : State} (h : BlockInv s) (hb : s.status.busy = true) (hs : s.seq = .stream) :
    BlockInv (streamTurn s) := by
  rcases streamTurn_outcome s with ⟨c, hpc, hq, hm, he⟩ | hf
  · obtain ⟨_, hcmd, hapart, _, _⟩ := h.stream hs
    rw [he]
    exact ⟨hm.wf h.memory, h.status, h.verdict, h.cleared, fun _ => ⟨hb, hcmd, hapart, hpc, hq⟩, h.unissued⟩
  · exact h.finishes hb hf

theorem BlockInv.sequencerTurn {s t : State} (h : BlockInv s) (ht : sequencerTurn s = .next t) : BlockInv t := by
  rcases sequencerTurn_cases s with ⟨_, he⟩ | ⟨hb, _, i, _, hi, he⟩ | ⟨hb, _, he⟩ | ⟨hb, hs, he⟩
  · cases he.symm.trans ht; exact h
  · obtain ⟨u, hu, hends⟩ := exec_command_ends hi s
    cases (he.trans hu).symm.trans ht
    exact h.finishes hb hends.finishes
  · cases he.symm.trans ht; exact h.finishes hb (finishes_raise _ _)
  · cases he.symm.trans ht; exact h.streamTurn hb hs

theorem BlockInv.beginPbdec {s : State} (h : BlockInv s) (hb : s.status.busy = true) (hcmd : s.cmd = 0x01#32) :
    BlockInv (beginPbdec s) := by
  rcases beginPbdec_cases s with ⟨hapart, he⟩ | ⟨_, he⟩
  · rw [he]
    exact ⟨h.memory, h.status, h.verdict, h.cleared,
      fun _ => ⟨hb, hcmd, hapart, Nat.zero_le _, Nat.zero_le _⟩, h.unissued⟩
  · rw [he]; exact h.finishes hb (finishes_pbdecRefuse s)

theorem BlockInv.groupwiseTurn {s t : State} (h : BlockInv s) (ht : groupwiseTurn s = .next t) : BlockInv t := by
  rcases groupwiseTurn_cases s with he | ⟨hb, _, hcmd, he⟩
  · exact h.sequencerTurn (he.symm.trans ht)
  · cases he.symm.trans ht; exact h.beginPbdec hb hcmd

/-- 10_state.md R27: an issue starts from a legal idle STATUS without an error, so CAUSE is 0. -/
theorem BlockInv.issue {s : State} (h : BlockInv s) (herr : s.status.err = false) (c : Word) :
    BlockInv (issue c s) := by
  obtain ⟨_, _, hclear⟩ := h.status
  refine ⟨h.memory, ⟨fun _ => ⟨rfl, herr⟩, fun he => ?_, hclear⟩, by simp, fun _ => ⟨rfl, rfl, rfl⟩,
    nofun, nofun⟩
  cases herr.symm.trans he

theorem BlockInv.writeReg {s : State} (h : BlockInv s) (r : Reg) (v : Word) : BlockInv (writeReg r v s) := by
  rcases writeReg_cases r v s with ⟨_, he⟩ | ⟨_, he⟩ | ⟨_, _, o, he⟩
  · rcases writeCmd_cases v s with ⟨_, hc⟩ | ⟨_, herr, hc⟩
    · rwa [he, hc]
    · rw [he, hc]; exact h.issue herr v
  · rwa [he]
  · rw [he]; exact h.hostSide o s.inputs s.hostData

/-- 10_state.md R35: the block as reset leaves it, whatever the canonical M. -/
theorem blockInv_reset {m : Memory} (hm : m.wf = true) (is : List Input) (w : Word) :
    BlockInv { State.reset with mem := m, inputs := is, hostData := w } :=
  ⟨hm, ⟨nofun, nofun, fun _ => rfl⟩, Nat.zero_le 1, nofun, nofun, fun _ _ => ⟨rfl, rfl, rfl, rfl⟩⟩

theorem BlockInv.assertReset {s : State} (h : BlockInv s) : BlockInv (assertReset s) := by
  have hwf := h.memory
  simp only [Memory.wf, Bool.and_eq_true] at hwf
  obtain ⟨hsize, _⟩ := hwf
  exact blockInv_reset (by simp only [Memory.wf, cellsSorted, Bool.and_true, Bool.and_eq_true]; exact hsize) _ _

/-- Settles O3, by the cases of a step: the sequencer's turns keep the invariant because an execution finishes legally or
stops at a group boundary with its cursors in range, and the host's moves because they reach only their own part. -/
theorem stepKeepsTheInvariant : Obligations.StepKeepsTheInvariant := by
  intro s t h hstep
  have hhost (is : List Input) (w : Word) : BlockInv { s with inputs := is, hostData := w } := h.hostSide s.regs is w
  rcases step_cases hstep with ⟨_, hrun⟩ | ⟨rest, u, rfl, ⟨r, v, _, rfl⟩ | ⟨r, _, rfl⟩ | ⟨a, b, _, _, ha, rfl⟩ |
    ⟨a, w, _, rfl⟩ | ⟨_, rfl⟩ | ⟨_, hrun⟩ | ⟨_, hrun⟩⟩
  · exact h.sequencerTurn hrun
  · exact (hhost rest s.hostData).writeReg r v
  · exact hhost rest _
  · exact (hhost rest s.hostData).setByte b ha
  · exact hhost rest w
  · exact (hhost rest s.hostData).assertReset
  · exact (hhost rest s.hostData).sequencerTurn hrun
  · exact (hhost rest s.hostData).groupwiseTurn hrun

/-- Settles O2: M is empty at reset, so it is in canonical form. -/
theorem resetStateMeetsTheInvariant : Obligations.ResetStateMeetsTheInvariant :=
  blockInv_reset reset_memory_wf _ _

end Sys2Proof.Machine
end

section
/-! PBDEC group by group and PBDEC in one step (10_state.md R21): the run of the machine from the first group boundary is
`streamLoop`, turn for turn. -/
namespace Sys2Proof.Machine

theorem coreRun_of_step {M : Host.Core} {s t : M.State} (h : M.step s = .next t) (k : Nat) :
    M.run (k + 1) s = M.run k t := by
  rw [Host.Core.run, h]

theorem run_of_step {s t : State} (h : step s = .next t) (k : Nat) :
    Host.Core.run core (k + 1) s = Host.Core.run core k t :=
  coreRun_of_step (M := core) h k

theorem step_of_no_inputs {s : State} (hi : s.inputs = []) : step s = sequencerTurn s := by simp only [step, hi]

theorem step_of_idle {s : State} (hi : s.inputs = []) (hb : s.status.busy = false) : step s = .next s := by
  rw [step_of_no_inputs hi]
  simp [sequencerTurn, hb]

theorem step_of_command {s : State} (hi : s.inputs = []) (hb : s.status.busy = true) (hs : s.seq = .command) :
    step s = commandTurn s := by
  rw [step_of_no_inputs hi]
  simp [sequencerTurn, hb, hs]

theorem step_of_stream {s : State} (hi : s.inputs = []) (hb : s.status.busy = true) (hs : s.seq = .stream) :
    step s = .next (streamTurn s) := by
  rw [step_of_no_inputs hi, ← groupTurn_eq]
  simp [sequencerTurn, hb, hs]

/-- No host move waits, and the block is busy exactly while it stands at a group boundary: the states between the first
boundary of a PBDEC and its end. -/
def BetweenGroups (s : State) : Prop := s.inputs = [] ∧ (s.status.busy = true ↔ s.seq = .stream)

theorem Finishes.betweenGroups {s t : State} (h : Finishes s t) (hi : s.inputs = []) : BetweenGroups t := by
  obtain ⟨m, p, c, r, pc, q, _, _, rfl | ⟨f, rfl⟩⟩ := h <;> exact ⟨hi, by simp⟩

theorem BetweenGroups.streamTurn {s : State} (h : BetweenGroups s) : BetweenGroups (streamTurn s) := by
  rcases streamTurn_outcome s with ⟨c, _, _, _, he⟩ | hf
  · rw [he]; exact h
  · exact hf.betweenGroups h.1

/-- The machine's run between group boundaries is PBDEC's loop; a loop that has ended is a block that idles. -/
theorem run_eq_streamLoop (f : Nat) {s : State} (h : BetweenGroups s) :
    Host.Core.run core f s = .next (streamLoop f s) := by
  induction f generalizing s with
  | zero => rfl
  | succ f ih =>
    obtain ⟨hi, hbusy⟩ := h
    cases hs : s.seq with
    | command =>
      have hb : s.status.busy = false := by simpa [hs] using hbusy
      rw [run_of_step (step_of_idle hi hb), ih ⟨hi, hbusy⟩, streamLoop_command hs, streamLoop_command hs]
    | stream =>
      rw [run_of_step (step_of_stream hi (hbusy.mpr hs) hs), ih (BetweenGroups.streamTurn ⟨hi, hbusy⟩),
        streamLoop_stream hs]

theorem beginPbdec_betweenGroups {s : State} (hi : s.inputs = []) (hb : s.status.busy = true) :
    BetweenGroups (beginPbdec s) := by
  rcases beginPbdec_cases s with ⟨_, he⟩ | ⟨_, he⟩
  · rw [he]; exact ⟨hi, by simp [hb]⟩
  · rw [he]; exact (finishes_pbdecRefuse s).betweenGroups hi

/-- 40_packbits_decode.md R129: the whole command is its beginning and then its loop; a refused PBDEC has no turn left. -/
theorem execPbdec_eq_streamLoop (s : State) :
    execPbdec s = .next (streamLoop (s.latch.srclen.toNat + 1) (beginPbdec s)) := by
  unfold execPbdec beginPbdec
  split
  · rfl
  · rw [streamLoop_command rfl]

/-- Settles O31: the turn `runGroups` begins the PBDEC, and SRCLEN + 1 turns run its loop to the end. -/
theorem pbdecGroupByGroupIsTheWholeCommand : Obligations.PbdecGroupByGroupIsTheWholeCommand := by
  intro s hi hb hs hc
  have hbegin : step { s with inputs := [.runGroups] } = .next (beginPbdec s) := by
    have hmove : ({ s with inputs := [] } : State) = s := by rw [← hi]
    have hturn : step { s with inputs := [.runGroups] } = groupwiseTurn { s with inputs := [] } := rfl
    rw [hturn, hmove]
    simp [groupwiseTurn, hb, hs, hc]
  have hwhole : step s = execPbdec s := by
    rw [step_of_command hi hb hs, commandTurn, hc]
    rfl
  refine ⟨s.latch.srclen.toNat + 1 + 1, ?_⟩
  rw [run_of_step hbegin, run_eq_streamLoop _ (beginPbdec_betweenGroups hi hb), hwhole, execPbdec_eq_streamLoop]
  rfl

end Sys2Proof.Machine
end

section
/-! The frame of an execution (10_state.md R23) and its end (R28): what an instruction leaves to the host, and that a
command is done when it has run. -/
namespace Sys2Proof.Machine

/-- What executing an instruction does: it moves PBDEC's cursor on (a stream instruction inside a row), or it finishes
the command. Both leave everything on the host's side as it is. -/
def Proceeds (s t : State) : Prop := (∃ c : Cursor, s.mem.Kept c.mem ∧ t = s.withCursor c) ∨ Finishes s t

theorem copyByte_kept (src dst : Nat) (c : Cursor) : c.mem.Kept (copyByte src dst c).reached.mem := by
  unfold copyByte
  split
  · exact .refl _
  · rename_i b _
    rcases put_cases (dst + c.q) b c.mem with ⟨ha, he⟩ | ⟨_, he⟩
    · rw [he]; exact ⟨rfl, fun hw => Memory.wf_set b hw ha⟩
    · rw [he]; exact .refl _

theorem copyLiteral_kept (src n dst k : Nat) (c : Cursor) :
    c.mem.Kept (copyLiteral src n dst k c).reached.mem := by
  induction k generalizing c with
  | zero => exact .refl _
  | succ k ih =>
    unfold copyLiteral
    split
    · exact .refl _
    · exact Run.reached_andThen (P := fun c' : Cursor => c.mem.Kept c'.mem) (copyByte_kept src dst c)
        fun c' _ hc => hc.trans (ih c')

theorem fillRun_kept (dst : Nat) (v : Byte) (k : Nat) (c : Cursor) : c.mem.Kept (fillRun dst v k c).reached.mem := by
  obtain ⟨j, m, he, _, hw, _⟩ := fillRun_reached dst v k c
  rw [he]
  exact hw.kept

theorem litGroup_proceeds (n : BitVec 7) (s : State) : Proceeds s (litGroup n s) := by
  unfold litGroup
  split
  · exact .inr (finishes_streamFault _ s)
  · have hkept := copyLiteral_kept s.latch.src.toNat s.latch.srclen.toNat s.latch.dst.toNat (litCount n)
      { pc := s.pc + 1, q := s.q, mem := s.mem }
    cases hr : copyLiteral s.latch.src.toNat s.latch.srclen.toNat s.latch.dst.toNat (litCount n)
      { pc := s.pc + 1, q := s.q, mem := s.mem } with
    | ok c => rw [hr] at hkept; exact .inl ⟨c, hkept, rfl⟩
    | bus c => rw [hr] at hkept; exact .inr (finishes_streamBusFault hkept)

theorem repGroup_proceeds (m : BitVec 7) (s : State) : Proceeds s (repGroup m s) := by
  unfold repGroup
  split
  · exact .inr (finishes_streamFault _ s)
  · split
    · exact .inl ⟨⟨s.pc + 1, s.q, s.mem⟩, .refl _, rfl⟩
    · split
      · exact .inr (finishes_streamBusFault (c := ⟨s.pc, s.q, s.mem⟩) (.refl _))
      · rename_i v _
        have hkept := fillRun_kept s.latch.dst.toNat v (repCount m) { pc := s.pc, q := s.q, mem := s.mem }
        split
        · rename_i c hr
          rw [hr] at hkept
          exact .inl ⟨⟨s.pc + 2, c.q, c.mem⟩, hkept, rfl⟩
        · rename_i c hr
          rw [hr] at hkept
          exact .inr (finishes_streamBusFault hkept)

theorem exec_proceeds {i : Instr} {s t : State} (h : exec i s = .next t) : Proceeds s t := by
  cases hi : i.isStream with
  | false =>
    obtain ⟨u, hu, hends⟩ := exec_command_ends hi s
    cases hu.symm.trans h
    exact .inr hends.finishes
  | true =>
    cases i with
    | lit n => cases h; exact litGroup_proceeds n s
    | nop => cases h; exact .inl ⟨⟨s.pc + 1, s.q, s.mem⟩, .refl _, rfl⟩
    | rep m => cases h; exact repGroup_proceeds m s
    | _ => cases hi

/-- 10_state.md R23, R24: an execution leaves the operand registers, their latched copies, CMD and MEMSIZE alone. -/
theorem Proceeds.frame {s t : State} (h : Proceeds s t) :
    t.regs = s.regs ∧ t.latch = s.latch ∧ t.cmd = s.cmd ∧ t.inputs = s.inputs ∧ t.hostData = s.hostData ∧
      t.mem.size = s.mem.size := by
  rcases h with ⟨c, hm, rfl⟩ | ⟨m, p, c, r, pc, q, hm, _, rfl | ⟨f, rfl⟩⟩ <;> exact ⟨rfl, rfl, rfl, rfl, rfl, hm.size⟩

/-- Settles O12, by the frame of what an execution can do. -/
theorem instructionsLeaveOperandsAlone : Obligations.InstructionsLeaveOperandsAlone :=
  fun _ _ _ h => (exec_proceeds h).frame

/-- Settles O15: every command runs to its end, and every end is a completion or a fault. -/
theorem everyCommandCompletes : Obligations.EveryCommandCompletes := by
  intro i s hi
  obtain ⟨t, ht, hends⟩ := exec_command_ends hi s
  have hf := hends.finishes
  obtain ⟨hb, hd, hs⟩ := hf.done
  exact ⟨t, ht, hb, hd, hs, hf.first_cause⟩

/-- 30_encoding.md R105, 10_state.md R21: the code in CMD, whether or not it names a command, is through after its turn. -/
theorem commandTurn_finishes (s : State) : ∃ t, commandTurn s = .next t ∧ Finishes s t := by
  unfold commandTurn
  split
  · rename_i i hd
    obtain ⟨t, ht, hends⟩ := exec_command_ends (decodeCommand_command hd) s
    exact ⟨t, ht, hends.finishes⟩
  · exact ⟨_, rfl, finishes_raise _ s⟩

theorem step_of_move {s : State} {i : Input} {rest : List Input} (hi : s.inputs = i :: rest) :
    step s = turn i { s with inputs := rest } := by
  simp only [step, hi]

theorem writeCmd_of_busy_or_err {s : State} (h : s.status.busy = true ∨ s.status.err = true) (c : Word) :
    writeCmd c s = s := by
  rcases h with h | h <;> simp [writeCmd, h]

theorem writeCmd_of_idle {s : State} (hb : s.status.busy = false) (he : s.status.err = false) (c : Word) :
    writeCmd c s = issue c s := by
  simp [writeCmd, hb, he]

/-- Settles O18: the first step issues the code, the second is the turn that finishes it. -/
theorem issuedCodeIsDoneAfterOneTurn : Obligations.IssuedCodeIsDoneAfterOneTurn := by
  intro s c hi hb he
  have hissue : step s = .next (issue c { s with inputs := [] }) :=
    (step_of_move hi).trans (congrArg _ (writeCmd_of_idle (s := { s with inputs := [] }) hb he c))
  obtain ⟨t, hturn, hf⟩ := commandTurn_finishes (issue c { s with inputs := [] })
  have hrun : step (issue c { s with inputs := [] }) = .next t := by rw [step_of_command rfl rfl rfl, hturn]
  obtain ⟨hbusy, hdone, _⟩ := hf.done
  obtain ⟨_, _, hcmd, _⟩ := Proceeds.frame (.inr hf)
  exact ⟨t, by rw [run_of_step hissue, run_of_step hrun]; rfl, hbusy, hdone, hcmd⟩

end Sys2Proof.Machine
end

section
/-! The operand registers and a running instruction (10_state.md R23, R27): every operation of an execution works on the
latched copies, so it commutes with replacing the registers. -/
namespace Sys2Proof.Machine

/-- `s` with the operand registers `o`, the latched copies as they are. -/
def State.withRegs (s : State) (o : Operands) : State := { s with regs := o }

@[simp] theorem State.withRegs_latch (s : State) (o : Operands) : (s.withRegs o).latch = s.latch := rfl
@[simp] theorem State.withRegs_pc (s : State) (o : Operands) : (s.withRegs o).pc = s.pc := rfl
@[simp] theorem State.withRegs_q (s : State) (o : Operands) : (s.withRegs o).q = s.q := rfl
@[simp] theorem State.withRegs_mem (s : State) (o : Operands) : (s.withRegs o).mem = s.mem := rfl

theorem isOperand_ne_cmd {r : Reg} (hr : Claim.IsOperand r) : r ≠ .cmd := by
  rintro rfl
  exact absurd hr.1 (by decide)

/-- R22, R23: every register write but one to CMD comes down to new values of the operand registers, which depend on
nothing but the old ones. -/
theorem writeReg_eq_withRegs {r : Reg} (hr : r ≠ .cmd) (v : Word) (s : State) :
    writeReg r v s = s.withRegs (writeReg r v (State.reset.withRegs s.regs)).regs := by
  cases r with
  | cmd => exact absurd rfl hr
  | _ => rfl

theorem afterGroup_withRegs (s : State) (o : Operands) (r : Run Cursor) :
    afterGroup (s.withRegs o) r = (afterGroup s r).withRegs o := by
  cases r <;> rfl

theorem litGroup_withRegs (n : BitVec 7) (s : State) (o : Operands) :
    litGroup n (s.withRegs o) = (litGroup n s).withRegs o := by
  unfold litGroup
  rw [apply_ite (State.withRegs · o), ← afterGroup_withRegs]
  rfl

theorem repGroup_withRegs (m : BitVec 7) (s : State) (o : Operands) :
    repGroup m (s.withRegs o) = (repGroup m s).withRegs o := by
  unfold repGroup
  rw [apply_ite (State.withRegs · o), apply_ite (State.withRegs · o)]
  refine if_congr Iff.rfl rfl (if_congr Iff.rfl rfl ?_)
  simp only [State.withRegs_latch, State.withRegs_pc, State.withRegs_q, State.withRegs_mem]
  split
  · rfl
  · split <;> rfl

theorem runGroup_withRegs (c : Byte) (s : State) (o : Operands) :
    runGroup c (s.withRegs o) = (runGroup c s).withRegs o := by
  unfold runGroup
  split
  · exact litGroup_withRegs _ s o
  · split
    · rfl
    · exact repGroup_withRegs _ s o

theorem endStream_withRegs (s : State) (o : Operands) : endStream (s.withRegs o) = (endStream s).withRegs o := by
  unfold endStream
  rw [apply_ite (State.withRegs · o)]
  rfl

theorem streamTurn_withRegs (s : State) (o : Operands) : streamTurn (s.withRegs o) = (streamTurn s).withRegs o := by
  have hmore : moreGroups (s.withRegs o) = moreGroups s := rfl
  simp only [streamTurn, hmore, State.withRegs_latch, State.withRegs_pc, State.withRegs_mem]
  split
  · split
    · rfl
    · exact runGroup_withRegs _ s o
  · exact endStream_withRegs s o

theorem streamLoop_withRegs (f : Nat) (s : State) (o : Operands) :
    streamLoop f (s.withRegs o) = (streamLoop f s).withRegs o := by
  induction f generalizing s with
  | zero => rfl
  | succ f ih =>
    cases hs : s.seq with
    | command => rw [streamLoop_command hs, streamLoop_command (s := s.withRegs o) hs]
    | stream => rw [streamLoop_stream hs, streamLoop_stream (s := s.withRegs o) hs, streamTurn_withRegs, ih]

theorem finish_withRegs (i : Instr) (s : State) (o : Operands) (r : Run Memory) (p c : Nat) :
    finish i (s.withRegs o) r p c = (finish i s r p c).withRegs o := by
  cases r <;> rfl

theorem finishEncode_withRegs (s : State) (o : Operands) (r : Run Enc) :
    finishEncode (s.withRegs o) r = (finishEncode s r).withRegs o := by
  cases r <;> rfl

theorem paldetCommand_withRegs (s : State) (o : Operands) :
    paldetCommand (s.withRegs o) = (paldetCommand s).withRegs o := by
  simp only [paldetCommand, State.withRegs]
  split <;> rfl

theorem exec_withRegs {i : Instr} {s t : State} (h : exec i s = .next t) (o : Operands) :
    exec i (s.withRegs o) = .next (t.withRegs o) := by
  have hcheck {p : Bool} {u v u' v' : State} (hu : u' = u.withRegs o) (hv : v' = v.withRegs o) :
      (if p then u' else v') = (if p then u else v).withRegs o := by
    rw [apply_ite (State.withRegs · o), hu, hv]
  have hnext {u v : State} (hu : u = v.withRegs o) :
      (.next u : Host.Outcome State Fault Refusal) = .next (v.withRegs o) := congrArg _ hu
  cases i with
  | lit n => cases h; exact hnext (litGroup_withRegs n s o)
  | nop => cases h; rfl
  | rep m => cases h; exact hnext (repGroup_withRegs m s o)
  | pbdec => cases h; exact hnext (hcheck (streamLoop_withRegs _ (beginStream s) o) rfl)
  | pbenc => cases h; exact hnext (hcheck (finishEncode_withRegs s o _) rfl)
  | deint => cases h; exact hnext (hcheck (finish_withRegs _ s o _ _ _) rfl)
  | intlv => cases h; exact hnext (hcheck (finish_withRegs _ s o _ _ _) rfl)
  | transp => cases h; exact hnext (hcheck (finish_withRegs _ s o _ _ _) rfl)
  | chunky => cases h; exact hnext (hcheck (finish_withRegs _ s o _ _ _) rfl)
  | paldn => cases h; exact hnext (hcheck (finish_withRegs _ s o _ _ _) rfl)
  | palup => cases h; exact hnext (hcheck (finish_withRegs _ s o _ _ _) rfl)
  | paldef => cases h; exact hnext (hcheck (finish_withRegs _ s o _ _ _) rfl)
  | paldet => cases h; exact hnext (hcheck (paldetCommand_withRegs s o) rfl)

/-- Settles O11: an operand write is a replacement of the registers, the same one before and after the execution, which
leaves them alone. -/
theorem operandWritesDoNotReachTheRunningCommand : Obligations.OperandWritesDoNotReachTheRunningCommand := by
  intro i r v s t hr h
  have hcmd := isOperand_ne_cmd hr
  obtain ⟨hregs, _⟩ := (exec_proceeds h).frame
  rw [writeReg_eq_withRegs hcmd v s, writeReg_eq_withRegs hcmd v t, hregs]
  exact exec_withRegs h _

end Sys2Proof.Machine
end

section
/-! The sequencer's next instruction (10_state.md R21, R27): the command in CMD, the group under the cursor, and the code a
check has placed. -/
namespace Sys2Proof.Machine

open Sys2Proof.Claim

theorem commandTurn_of_decode {s : State} {i : Instr} (h : decodeCommand s.cmd = .ok i) : commandTurn s = exec i s := by
  simp only [commandTurn, h]

/-- Settles O5: `decode` of a command code is `decodeCommand`, which the turn looks CMD up with. -/
theorem stepRunsTheDecodedCommand : Obligations.StepRunsTheDecodedCommand := by
  intro s i hi hb hs hd
  rw [step_of_command hi hb hs, commandTurn_of_decode hd]

/-- 40_packbits_decode.md R121: under the loop's test the group whose control byte is fetched runs next. -/
theorem step_of_group {s : State} {c : Byte} (hi : s.inputs = []) (hb : s.status.busy = true) (hs : s.seq = .stream)
    (hq : s.q < s.latch.len.toNat) (hp : s.pc < s.latch.srclen.toNat)
    (hc : s.mem.read (s.latch.src.toNat + s.pc) = some c) : step s = exec (decodeControl c) s := by
  rw [step_of_stream hi hb hs, streamTurn_group hq hp hc, exec_decodeControl]

/-- R129: counters that are in range fit the result registers. -/
theorem writeCounts_eq {s : State} (hq : s.q ≤ s.latch.len.toNat) (hp : s.pc ≤ s.latch.srclen.toNat) :
    writeCounts s = { s with produced := BitVec.ofNat 32 s.q, consumed := BitVec.ofNat 32 s.pc } := by
  have hlen := s.latch.len.isLt
  have hsrclen := s.latch.srclen.isLt
  rw [writeCounts, countWord_eq (by omega), countWord_eq (by omega)]

theorem sameOutside_leaveOpen (m : Memory) (a n : Nat) : SameOutside m (m.leaveOpen a n) a n :=
  have h := m.confined_leaveOpen a n
  ⟨h.size, fun _ hx => h.read hx⟩

/-- Settles O6, by the four branches of a turn at a group boundary. -/
theorem stepRunsTheDecodedGroup : Obligations.StepRunsTheDecodedGroup := by
  intro s hi hb hs
  refine ⟨fun c i hq hp hc hd => ?_, fun hq hp hout => ?_, fun hq hp => ?_, fun hq hp => ?_⟩
  · cases hd
    exact step_of_group hi hb hs hq hp hc
  · refine ⟨_, ?_, sameOutside_leaveOpen s.mem s.latch.dst.toNat s.latch.len.toNat⟩
    rw [step_of_stream hi hb hs, streamTurn_bus hq hp hout, streamBusFault,
      writeCounts_eq (Nat.le_of_lt hq) (Nat.le_of_lt hp)]
    rfl
  · rw [step_of_stream hi hb hs, streamTurn_full hq, writeCounts_eq (Nat.le_of_eq hq) hp]
  · rw [step_of_stream hi hb hs, streamTurn_short hq hp, streamFault,
      writeCounts_eq (Nat.le_of_lt hq) (Nat.le_of_eq hp)]

/-- Bytes stored from `a` on leave MEMSIZE and every byte below `a` alone. -/
theorem setBytes_below {x a : Nat} (hx : x < a) (bs : List Byte) (m : Memory) :
    (setBytes m a bs).size = m.size ∧ (setBytes m a bs).byteAt x = m.byteAt x := by
  induction bs generalizing m a with
  | nil => exact ⟨rfl, rfl⟩
  | cons b bs ih =>
    obtain ⟨hsize, hbyte⟩ := ih (a := a + 1) (by omega) (m.set a b)
    exact ⟨hsize, hbyte.trans (Memory.byteAt_set_ne m b (by omega))⟩

/-- The first of the bytes stored from `a` on is read at `a`. -/
theorem setBytes_cons_read {m : Memory} {a : Nat} (ha : a < m.size) (b : Byte) (bs : List Byte) :
    (setBytes m a (b :: bs)).read a = some b := by
  obtain ⟨hsize, hbyte⟩ := setBytes_below (x := a) (a := a + 1) (by omega) bs (m.set a b)
  exact Memory.read_eq_some_iff.mpr ⟨by rw [setBytes, hsize]; exact ha, by rw [setBytes, hbyte, Memory.byteAt_set_self]⟩

/-- 30_encoding.md R90, R95: the two widths of a code that names an instruction. -/
theorem decodeTableWord_cases {nbits w : Nat} {i : Instr} (h : decodeTableWord nbits w = some i) :
    (nbits = 8 ∧ i = decodeControl (BitVec.ofNat 8 w)) ∨ (nbits = 32 ∧ decodeCommand (BitVec.ofNat 32 w) = .ok i) := by
  unfold decodeTableWord at h
  split at h
  · split at h
    · exact .inl ⟨‹_›, (Option.some.inj h).symm⟩
    · cases h
  · split at h
    · split at h
      · split at h
        · rename_i hd
          cases h
          exact .inr ⟨‹_›, hd⟩
        · cases h
      · cases h
    · cases h

theorem step_withControlByte {s : State} (hm : 0 < s.mem.size) (c : Byte) :
    step (withControlByte s c) = exec (decodeControl c) (withControlByte s c) :=
  step_of_group rfl rfl rfl (show 0 < (BitVec.ofNat 32 Config.maxRun).toNat by decide)
    (show 0 < (BitVec.ofNat 32 longestGroup).toNat by decide) (setBytes_cons_read hm c _)

theorem step_withCommand {w : Word} {i : Instr} (h : decodeCommand w = .ok i) (s : State) :
    step (withCommand s w) = exec i (withCommand s w) := by
  rw [step_of_command rfl rfl rfl, commandTurn_of_decode h]

/-- Settles O7: a control byte stands under the cursor of a PBDEC in progress, a command code in CMD. -/
theorem placedCodeIsRunNext : Obligations.PlacedCodeIsRunNext := by
  intro s nbits w i hm hd
  rcases decodeTableWord_cases hd with ⟨rfl, rfl⟩ | ⟨rfl, hcommand⟩
  · exact step_withControlByte hm _
  · exact step_withCommand hcommand s

end Sys2Proof.Machine
end

section
/-! The host's moves on the registers and on M (10_state.md R22, R23, R27, R33; 20_memory.md R76, R77), STATUS as it reads
it (R24), and the reset input (R35). -/
namespace Sys2Proof.Machine

open Sys2Proof.Claim

theorem statusWord_reset : statusWord State.reset.status = 0#32 := by decide

/-- Settles O1: the reset input's values are read off it, and with no move waiting the block it leaves is idle. -/
theorem resetInputClearsTheBlock : Obligations.ResetInputClearsTheBlock := by
  intro s rest hi
  exact ⟨assertReset { s with inputs := rest }, step_of_move hi, rfl, statusWord_reset, rfl, rfl, rfl, fun _ => rfl, rfl, rfl,
    fun hrest => step_of_idle hrest rfl⟩

/-- Settles O9, by the two branches of R27; the fields written are those of `issue`. -/
theorem cmdWriteIssuesOrIsRefused : Obligations.CmdWriteIssuesOrIsRefused := fun c _ =>
  ⟨fun h => congrArg _ (writeCmd_of_busy_or_err h c), fun hb he => congrArg _ (writeCmd_of_idle hb he c)⟩

/-- R23: an operand register reads back what was written. -/
theorem readReg_writeReg_self {r : Reg} (hr : IsOperand r) (v : Word) (s : State) : readReg r (writeReg r v s) = v := by
  obtain ⟨hlo, hhi⟩ := hr
  cases r with
  | cmd => exact absurd hlo (by decide)
  | status => exact absurd hlo (by decide)
  | produced => exact absurd hhi (by decide)
  | consumed => exact absurd hhi (by decide)
  | result => exact absurd hhi (by decide)
  | _ => rfl

/-- R22, R23: a write other than to CMD reaches no register but its own. -/
theorem readReg_writeReg_ne {r r' : Reg} (hr : r ≠ .cmd) (hne : r' ≠ r) (v : Word) (s : State) :
    readReg r' (writeReg r v s) = readReg r' s := by
  cases r with
  | cmd => exact absurd rfl hr
  | _ => cases r' <;> first | rfl | exact absurd rfl hne

/-- Settles O10: an operand write is a replacement of one operand register; the other writes are ignored. -/
theorem registerWritesReachOneRegister : Obligations.RegisterWritesReachOneRegister := by
  intro r v s
  refine ⟨fun hr => ?_, ?_⟩
  · have hcmd := isOperand_ne_cmd hr
    refine ⟨writeReg r v s, rfl, readReg_writeReg_self hr v s, fun r' hne => readReg_writeReg_ne hcmd hne v s, ?_⟩
    rw [writeReg_eq_withRegs hcmd]
    rfl
  · rintro (rfl | rfl | rfl | rfl) <;> rfl

theorem isResultReg_iff (r : Reg) : isResultReg r = true ↔ r = .produced ∨ r = .consumed ∨ r = .result := by
  simp [isResultReg, or_assoc]

/-- Settles O55, by the test of R76. -/
theorem hostReadsReturnTheRegister : Obligations.HostReadsReturnTheRegister := by
  intro r s
  refine ⟨fun h => ?_, fun hb hr => ?_⟩
  · have hfree : (s.status.busy && isResultReg r) = false := by
      rcases h with hb | ⟨hp, hc, hr⟩
      · rw [hb, Bool.false_and]
      · have hno : isResultReg r = false := by
          rw [← Bool.not_eq_true, isResultReg_iff]
          simp [hp, hc, hr]
        rw [hno, Bool.and_false]
    simp [turn, hostReadReg, hfree]
  · simp [turn, hostReadReg, hb, (isResultReg_iff r).mpr hr]

theorem hostWriteMem_of_idle {s : State} {a : Nat} (hb : s.status.busy = false) (ha : a < s.mem.size) (b : Byte) :
    hostWriteMem a b s = .next { s with mem := s.mem.set a b } := by
  simp [hostWriteMem, hb, ha]

theorem hostReadMem_of_read {s : State} {a : Nat} {b : Byte} (hb : s.status.busy = false)
    (hr : s.mem.read a = some b) : hostReadMem a s = .next { s with hostData := BitVec.ofNat 32 b.toNat } := by
  obtain ⟨ha, hbyte⟩ := Memory.read_eq_some_iff.mp hr
  simp [hostReadMem, hb, ha, hbyte]

/-- Settles O19, by the two tests of a host access: BUSY, then the address against MEMSIZE. -/
theorem hostReachesMemoryOnlyWhileIdle : Obligations.HostReachesMemoryOnlyWhileIdle := by
  intro s a b
  refine ⟨fun hb => ?_, fun hb ha => ?_, fun hb hr => hostReadMem_of_read hb hr, fun hb ha => ?_⟩
  · simp [turn, hostWriteMem, hostReadMem, hb]
  · have hwritten : (s.mem.set a b).read a = some b :=
      Memory.read_eq_some_iff.mpr ⟨ha, Memory.byteAt_set_self s.mem a b⟩
    have hwithin := Memory.within_set s.mem b ha (Nat.le_refl a) (Nat.lt_succ_self a)
    exact ⟨s.mem.set a b, hostWriteMem_of_idle hb ha b, hwritten, ⟨rfl, fun _ hx => hwithin.read hx⟩,
      hostReadMem_of_read (s := { s with mem := s.mem.set a b }) hb hwritten⟩
  · simp [turn, hostWriteMem, hostReadMem, hb, Nat.not_lt.mpr ha]

theorem bitAt_getLsbD (b : Bool) {j : Nat} (hj : j < 32) (k : Nat) :
    (bitAt b j).getLsbD k = (b && decide (k = j)) := by
  cases b with
  | false => simp [bitAt]
  | true =>
    simp only [bitAt, if_true, BitVec.getLsbD_ofNat, Nat.testBit_two_pow, Bool.true_and]
    by_cases hk : k = j
    · simp [hk, hj]
    · simp [hk, Ne.symm hk]

/-- R24: CAUSE in bits 7:4. -/
theorem causeField_getLsbD (c : BitVec 4) (k : Nat) :
    (BitVec.ofNat 32 (c.toNat * 16)).getLsbD k = (decide (4 ≤ k ∧ k ≤ 7) && c.getLsbD (k - 4)) := by
  rw [BitVec.getLsbD_ofNat, show c.toNat * 16 = c.toNat * 2 ^ 4 from rfl, Nat.testBit_mul_two_pow]
  by_cases hk : k ≤ 7
  · have hk32 : k < 32 := by omega
    simp [hk, hk32, BitVec.getLsbD]
  · have hout : c.toNat.testBit (k - 4) = false := BitVec.getLsbD_of_ge c _ (by omega)
    simp [hk, hout]

/-- Settles O13: the four fields stand at bits of their own, so the OR has each of them at its place. -/
theorem statusWordHasTheFieldsOfR24 : Obligations.StatusWordHasTheFieldsOfR24 := by
  intro st k
  simp only [statusWord, BitVec.getLsbD_or, bitAt_getLsbD _ (show 0 < 32 by decide),
    bitAt_getLsbD _ (show 1 < 32 by decide), bitAt_getLsbD _ (show 2 < 32 by decide), causeField_getLsbD]
  by_cases h0 : k = 0
  · subst h0; simp
  by_cases h1 : k = 1
  · subst h1; simp
  by_cases h2 : k = 2
  · subst h2; simp
  by_cases h4 : 4 ≤ k ∧ k ≤ 7 <;> simp [h0, h1, h2, h4]

end Sys2Proof.Machine
end

section
/-! What a command leaves of buffer memory (20_memory.md R78, R80): the destination extent is all it writes, and its
source extent stays as it was. -/
namespace Sys2Proof.Machine

open Sys2Proof.Claim

/-! ### The extents of R78 in the words of the claims -/

theorem dstExtent_eq_destinationBytes (i : Instr) (o : Operands) : dstExtent i o = destinationBytes i o := by
  cases i <;> simp only [dstExtent, destinationBytes, pbencBound, planesOut, Nat.mul_comm] <;> rfl

theorem srcExtent_eq_sourceBytes (i : Instr) (o : Operands) : srcExtent i o = sourceBytes i o := by
  cases i <;> simp only [srcExtent, sourceBytes, planesIn, Nat.mul_comm]

/-- 60_exceptions.md R243: the operand check for intersecting extents is the negation of `Apart`. -/
theorem overlap_eq_false_iff_apart (i : Instr) (o : Operands) :
    overlap i o = false ↔ Apart o.src.toNat (sourceBytes i o) o.dst.toNat (destinationBytes i o) := by
  rw [overlap_eq_false_iff, srcExtent_eq_sourceBytes, dstExtent_eq_destinationBytes, Apart]

/-- R243: a command that is let through has extents that do not intersect. PALDEF and PALDET have no source. -/
theorem overlap_of_paramsOk {i : Instr} {o : Operands} (h : paramsOk i o = true) : overlap i o = false := by
  have hnosource : srcExtent i o = 0 → overlap i o = false := fun h0 => (overlap_eq_false_iff i o).mpr (.inl h0)
  cases i with
  | lit _ | nop | rep _ | paldef | paldet => exact hnosource rfl
  | pbdec | pbenc => simpa [paramsOk] using h
  | deint | intlv | transp | chunky | paldn | palup =>
    simp only [paramsOk, Bool.and_eq_true, Bool.not_eq_true'] at h
    exact h.2

/-! ### What every command leaves unchanged -/

theorem Memory.Confined.sameOutside {a n : Nat} {m m' : Memory} (h : Memory.Confined a (a + n) m m') :
    SameOutside m m' a n :=
  ⟨h.size, fun _ hx => h.read hx⟩

/-- A refused command leaves M alone. -/
theorem Ends.mem_of_refused {i : Instr} {s t : State} (h : Ends i s t) (hp : paramsOk i s.latch = false) :
    t.mem = s.mem := by
  obtain ⟨m, p, c, r, pc, q, _, hbad, _, rfl | ⟨f, rfl⟩⟩ := h <;> exact hbad hp

/-- R78: a command that is let through writes its destination extent at most; a refused one writes nothing. -/
theorem Ends.sameOutside {i : Instr} {s t : State} (h : Ends i s t) :
    SameOutside s.mem t.mem s.latch.dst.toNat (destinationBytes i s.latch) := by
  rw [← dstExtent_eq_destinationBytes]
  cases hp : paramsOk i s.latch with
  | true => obtain ⟨m, p, c, r, pc, q, hok, _, _, rfl | ⟨f, rfl⟩⟩ := h <;> exact (hok hp).sameOutside
  | false => rw [h.mem_of_refused hp]; exact ⟨rfl, fun _ _ => rfl⟩

/-- Settles O49: every command ends as `Ends` says. -/
theorem commandsWriteOnlyTheirDestination : Obligations.CommandsWriteOnlyTheirDestination := by
  intro i s t hi h
  obtain ⟨u, hu, hends⟩ := exec_command_ends hi s
  cases hu.symm.trans h
  exact hends.sameOutside

/-- Settles O50: a command that is let through writes nothing outside its destination extent, which lies apart from its
source; a refused one writes nothing. -/
theorem commandsNeverModifyTheirSource : Obligations.CommandsNeverModifyTheirSource := by
  intro i s t hi h a hlo hhi
  obtain ⟨u, hu, hends⟩ := exec_command_ends hi s
  cases hu.symm.trans h
  cases hp : paramsOk i s.latch with
  | true =>
    refine hends.sameOutside.2 a ?_
    rcases (overlap_eq_false_iff_apart i s.latch).mp (overlap_of_paramsOk hp) with h | h | h | h <;> omega
  | false => rw [hends.mem_of_refused hp]

end Sys2Proof.Machine
end

section
/-! Two runs of one computation on memories that agree on what it reads (20_memory.md R68): `Run.Pair` says that the runs
go in step, `Memory.Twins` what the two memories have in common. -/
namespace Sys2Proof.Machine

/-! ### Runs in step -/

/-- Both runs lie inside M, or both end in BusError, and what they reach is related. -/
inductive Run.Pair {σ : Type} (R : σ → σ → Prop) : Run σ → Run σ → Prop
  | ok {s s' : σ} : R s s' → Run.Pair R (.ok s) (.ok s')
  | bus {s s' : σ} : R s s' → Run.Pair R (.bus s) (.bus s')

theorem Run.Pair.andThen {σ : Type} {R : σ → σ → Prop} {r r' : Run σ} {k k' : σ → Run σ} (hr : Run.Pair R r r')
    (hk : ∀ s s', r = .ok s → R s s' → Run.Pair R (k s) (k' s')) :
    Run.Pair R (r.andThen k) (r'.andThen k') := by
  cases hr with
  | ok h => exact hk _ _ rfl h
  | bus h => exact .bus h

theorem loopFrom_pair {σ : Type} {R : σ → σ → Prop} {body : Nat → σ → Run σ} {n start : Nat} {s s' : σ} (h : R s s')
    (hb : ∀ i s s', start ≤ i → i < start + n → R s s' → Run.Pair R (body i s) (body i s')) :
    Run.Pair R (loopFrom body n start s) (loopFrom body n start s') := by
  induction n generalizing start s s' with
  | zero => exact .ok h
  | succ n ih =>
    exact (hb start s s' (Nat.le_refl _) (by omega) h).andThen fun s1 s1' _ h1 =>
      ih h1 fun i s s' hi hi' => hb i s s' (by omega) (by omega)

theorem loop_pair {σ : Type} {R : σ → σ → Prop} {body : Nat → σ → Run σ} {n : Nat} {s s' : σ} (h : R s s')
    (hb : ∀ i s s', i < n → R s s' → Run.Pair R (body i s) (body i s')) :
    Run.Pair R (loop n body s) (loop n body s') :=
  loopFrom_pair h fun i s s' _ hi => hb i s s' (by omega)

/-! ### Twin memories -/

/-- `x` and `y` are `a` and `b` after the same writes: every byte is the same in both, or untouched in both. -/
structure Memory.Twins (a b x y : Memory) : Prop where
  size : y.size = x.size
  draws_left : x.draws = a.draws
  draws_right : y.draws = b.draws
  read : ∀ k, y.read k = x.read k ∨ (x.read k = a.read k ∧ y.read k = b.read k)

theorem Memory.Twins.refl {a b : Memory} (h : b.size = a.size) : Memory.Twins a b a b :=
  ⟨h, rfl, rfl, fun _ => .inr ⟨rfl, rfl⟩⟩

theorem Memory.read_set_self {m : Memory} {k : Nat} (h : k < m.size) (v : Byte) : (m.set k v).read k = some v :=
  Memory.read_eq_some_iff.mpr ⟨h, Memory.byteAt_set_self m k v⟩

theorem Memory.read_set_ne {m : Memory} {k j : Nat} (v : Byte) (h : j ≠ k) : (m.set k v).read j = m.read j :=
  Memory.read_congr rfl (Memory.byteAt_set_ne m v h)

/-- A write inside both memories makes their bytes there the same. -/
theorem Memory.Twins.set {a b x y : Memory} (h : Memory.Twins a b x y) {k : Nat} (hk : k < x.size) (v : Byte) :
    Memory.Twins a b (x.set k v) (y.set k v) where
  size := h.size
  draws_left := h.draws_left
  draws_right := h.draws_right
  read := fun j => by
    by_cases hj : j = k
    · rw [hj, Memory.read_set_self hk, Memory.read_set_self (h.size.symm ▸ hk)]
      exact .inl rfl
    · rw [Memory.read_set_ne v hj, Memory.read_set_ne v hj]
      exact h.read j

theorem put_twins {a b x y : Memory} (h : Memory.Twins a b x y) (k : Nat) (v : Byte) :
    Run.Pair (Memory.Twins a b) (put k v x) (put k v y) := by
  have hs := h.size
  rcases put_cases k v x with ⟨hk, he⟩ | ⟨hk, he⟩
  · rw [he, put_of_lt v (by omega)]
    exact .ok (h.set hk v)
  · rw [he, put_of_le v (by omega)]
    exact .bus h

theorem store_twins {a b x y : Memory} (h : Memory.Twins a b x y) {v v' : Option Byte} (hv : v' = v) (k : Nat) :
    Run.Pair (Memory.Twins a b) (store k v x) (store k v' y) := by
  subst hv
  cases v' with
  | none => exact .bus h
  | some v => exact put_twins h k v

/-- `b` reads as `a` in `[lo, lo+n)`: the premise about a command's source extent. -/
def Memory.AgreeOn (lo n : Nat) (a b : Memory) : Prop := ∀ k, lo ≤ k → k < lo + n → b.read k = a.read k

/-- Where `a` and `b` agree, so do `x` and `y`. -/
theorem Memory.Twins.read_eq {a b x y : Memory} (h : Memory.Twins a b x y) {lo n k : Nat}
    (hab : Memory.AgreeOn lo n a b) (hlo : lo ≤ k) (hhi : k < lo + n) : y.read k = x.read k := by
  rcases h.read k with he | ⟨hx, hy⟩
  · exact he
  · rw [hx, hy, hab k hlo hhi]

/-! ### The palette unit -/

theorem putWord_twins {a b x y : Memory} (h : Memory.Twins a b x y) (k : Nat) (w : BitVec 16) :
    Run.Pair (Memory.Twins a b) (putWord k w x) (putWord k w y) :=
  (put_twins h _ _).andThen fun _ _ _ h => put_twins h _ _

theorem putTriplet_twins {a b x y : Memory} (h : Memory.Twins a b x y) (k : Nat) (c : Byte × Byte × Byte) :
    Run.Pair (Memory.Twins a b) (putTriplet k c x) (putTriplet k c y) :=
  ((put_twins h _ _).andThen fun _ _ _ h => put_twins h _ _).andThen fun _ _ _ h => put_twins h _ _

theorem paldn_twins {a b : Memory} (hs : b.size = a.size) (src dst : Nat) {nc : Nat}
    (hab : Memory.AgreeOn src (3 * nc) a b) :
    Run.Pair (Memory.Twins a b) (loop nc (paldnEntry src dst) a) (loop nc (paldnEntry src dst) b) := by
  refine loop_pair (.refl hs) fun i x y hi h => ?_
  simp only [paldnEntry, h.read_eq hab (k := src + 3 * i) (by omega) (by omega),
    h.read_eq hab (k := src + 3 * i + 1) (by omega) (by omega), h.read_eq hab (k := src + 3 * i + 2) (by omega) (by omega)]
  split
  · exact putWord_twins h _ _
  · exact .bus h

theorem palup_twins {a b : Memory} (hs : b.size = a.size) (src dst : Nat) {nc : Nat}
    (hab : Memory.AgreeOn src (2 * nc) a b) :
    Run.Pair (Memory.Twins a b) (loop nc (palupEntry src dst) a) (loop nc (palupEntry src dst) b) := by
  refine loop_pair (.refl hs) fun i x y hi h => ?_
  simp only [palupEntry, h.read_eq hab (k := src + 2 * i) (by omega) (by omega),
    h.read_eq hab (k := src + 2 * i + 1) (by omega) (by omega)]
  split
  · exact putTriplet_twins h _ _
  · exact .bus h

theorem paldef_twins {a b : Memory} (hs : b.size = a.size) (dst nc : Nat) :
    Run.Pair (Memory.Twins a b) (loop nc (paldefEntry dst) a) (loop nc (paldefEntry dst) b) :=
  loop_pair (.refl hs) fun _ _ _ _ h => putWord_twins h _ _

/-! ### The plane layout unit -/

/-- 20_memory.md R81: a row read reads the source extent only. -/
theorem rowRead_twins {a b x y : Memory} (h : Memory.Twins a b x y) {g : Geometry} (l : Layout) {row p : Nat}
    (hab : Memory.AgreeOn g.src (g.np * g.sb * g.h) a b) (hrow : row < g.h) (hp : p < g.np) (k : Nat) :
    rowRead g l row p k y = rowRead g l row p k x := by
  unfold rowRead
  split
  · rename_i hk
    have hoff := Geometry.off_lt (l := l) hrow hp hk
    exact h.read_eq hab (by omega) (by omega)
  · rfl

theorem reblock_twins {a b : Memory} (hs : b.size = a.size) {g : Geometry} (l l' : Layout)
    (hab : Memory.AgreeOn g.src (g.np * g.sb * g.h) a b) :
    Run.Pair (Memory.Twins a b) (reblock g l l' a) (reblock g l l' b) :=
  loop_pair (.refl hs) fun _ _ _ hrow h => loop_pair h fun _ _ _ hp h => loop_pair h fun k _ _ _ h =>
    store_twins h (rowRead_twins h l hab hrow hp k) _

theorem transpose_twins {a b : Memory} (hs : b.size = a.size) {t : Columns}
    (hab : Memory.AgreeOn t.src (t.cols * t.rows * t.cw) a b) :
    Run.Pair (Memory.Twins a b) (loop t.rows (transposeRow t) a) (loop t.rows (transposeRow t) b) := by
  refine loop_pair (.refl hs) fun row _ _ hrow h => Run.Pair.andThen ?_ fun _ _ _ h => ?_
  · refine loop_pair h fun c _ _ hc h => loop_pair h fun k _ _ hk h => store_twins h ?_ _
    have hentry := Columns.source_lt hrow hc hk
    exact h.read_eq hab (by omega) (by omega)
  · exact loopFrom_pair h fun _ _ _ _ _ h => put_twins h _ _

theorem chunkyLoop_twins {a b : Memory} (hs : b.size = a.size) {g : Geometry} (l : Layout) (dbl : Bool)
    (hab : Memory.AgreeOn g.src (g.np * g.sb * g.h) a b) :
    Run.Pair (Memory.Twins a b) (chunkyLoop g l dbl a) (chunkyLoop g l dbl b) := by
  refine loop_pair (.refl hs) fun row _ _ hrow h => loop_pair h fun col _ _ _ h => store_twins h ?_ _
  rw [pixel_congr fun p hp => rowRead_twins h l hab hrow hp (col / 8)]

/-! ### PBENC -/

/-- R151: the end of a literal depends on the row only. -/
theorem literalEnd_congr {src n : Nat} {m m' : Memory} (h : ∀ i, i < n → m'.read (src + i) = m.read (src + i))
    (room j : Nat) : literalEnd src n m' room j = literalEnd src n m room j := by
  induction room generalizing j with
  | zero => rfl
  | succ room ih =>
    by_cases hj : j < n
    · simp only [literalEnd, if_pos hj, runLength_congr hj h, ih]
    · simp only [literalEnd, if_neg hj]

/-- The encoder's indices are the same in both runs, its memories twins. -/
def Enc.Twins (a b : Memory) (e e' : Enc) : Prop := e'.i = e.i ∧ e'.o = e.o ∧ Memory.Twins a b e.mem e'.mem

theorem Enc.after_twins {a b : Memory} {e e' : Enc} (h : Enc.Twins a b e e') {r r' : Run Memory}
    (hr : Run.Pair (Memory.Twins a b) r r') (i o : Nat) :
    Run.Pair (Enc.Twins a b) (e.after r i o) (e'.after r' i o) := by
  obtain ⟨hi, ho, _⟩ := h
  cases hr with
  | ok hm => exact .ok ⟨rfl, rfl, hm⟩
  | bus hm => exact .bus ⟨hi, ho, hm⟩

theorem encodeRepeat_twins {a b : Memory} {e e' : Enc} (h : Enc.Twins a b e e') {src n : Nat}
    (hab : Memory.AgreeOn src n a b) (hi : e.i < n) (dst r : Nat) :
    Run.Pair (Enc.Twins a b) (encodeRepeat src dst r e) (encodeRepeat src dst r e') := by
  have ⟨hie, hoe, hm⟩ := h
  simp only [encodeRepeat, hie, hoe]
  refine Enc.after_twins h ((put_twins hm _ _).andThen fun _ _ _ hm => store_twins hm ?_ _) _ _
  exact hm.read_eq hab (by omega) (by omega)

theorem encodeLiteral_twins {a b : Memory} {e e' : Enc} (h : Enc.Twins a b e e') {src n j : Nat}
    (hab : Memory.AgreeOn src n a b) (hj : j ≤ n) (dst : Nat) :
    Run.Pair (Enc.Twins a b) (encodeLiteral src dst j e) (encodeLiteral src dst j e') := by
  have ⟨hie, hoe, hm⟩ := h
  simp only [encodeLiteral, hie, hoe]
  refine Enc.after_twins h ((put_twins hm _ _).andThen fun _ _ _ hm => loop_pair hm fun t x y ht hm => ?_) _ _
  exact store_twins hm (hm.read_eq hab (by omega) (by omega)) _

theorem encodeGroup_twins {a b : Memory} {e e' : Enc} (h : Enc.Twins a b e e') {src n : Nat}
    (hab : Memory.AgreeOn src n a b) (hi : e.i < n) (dst : Nat) :
    Run.Pair (Enc.Twins a b) (encodeGroup src n dst e) (encodeGroup src n dst e') := by
  have ⟨hie, _, hm⟩ := h
  have hrow : ∀ i, i < n → e'.mem.read (src + i) = e.mem.read (src + i) := fun i hi =>
    hm.read_eq hab (by omega) (by omega)
  simp only [encodeGroup, hie, runLength_congr hi hrow, literalEnd_congr hrow]
  split
  · exact .bus h
  · split
    · exact encodeRepeat_twins h hab hi dst _
    · split
      · exact .bus h
      · rename_i hend
        obtain ⟨_, _, hj, _⟩ := literalEnd_some (Nat.le_of_lt hi) hend
        exact encodeLiteral_twins h hab hj dst

theorem encodeLoop_twins {a b : Memory} {src n : Nat} (hab : Memory.AgreeOn src n a b) (dst fuel : Nat) {e e' : Enc}
    (h : Enc.Twins a b e e') : Run.Pair (Enc.Twins a b) (encodeLoop src n dst fuel e) (encodeLoop src n dst fuel e') := by
  induction fuel generalizing e e' with
  | zero => exact .ok h
  | succ fuel ih =>
    simp only [encodeLoop, h.1]
    split
    · rename_i hi
      exact (encodeGroup_twins h hab hi dst).andThen fun _ _ _ h => ih h
    · exact .ok h

/-! ### The loops of LIT and REP -/

/-- The cursors of both runs are the same, their memories twins. -/
def Cursor.Twins (a b : Memory) (c c' : Cursor) : Prop := c'.pc = c.pc ∧ c'.q = c.q ∧ Memory.Twins a b c.mem c'.mem

theorem copyByte_twins {a b : Memory} {c c' : Cursor} (h : Cursor.Twins a b c c') {src n : Nat}
    (hab : Memory.AgreeOn src n a b) (hp : c.pc < n) (dst : Nat) :
    Run.Pair (Cursor.Twins a b) (copyByte src dst c) (copyByte src dst c') := by
  have ⟨hpc, hq, hm⟩ := h
  simp only [copyByte, hpc, hq, hm.read_eq hab (k := src + c.pc) (by omega) (by omega)]
  split
  · exact .bus h
  · rename_i v _
    match put (dst + c.q) v c.mem, put (dst + c.q) v c'.mem, put_twins hm (dst + c.q) v with
    | _, _, .ok hm' => exact .ok ⟨rfl, rfl, hm'⟩
    | _, _, .bus _ => exact .bus h

theorem copyByte_pc {src dst : Nat} {c c' : Cursor} (h : copyByte src dst c = .ok c') : c'.pc = c.pc + 1 := by
  unfold copyByte at h
  split at h
  · cases h
  · split at h <;> cases h
    rfl

theorem copyLiteral_twins {a b : Memory} {src n : Nat} (hab : Memory.AgreeOn src n a b) (dst k : Nat) {c c' : Cursor}
    (h : Cursor.Twins a b c c') (hp : c.pc ≤ n) :
    Run.Pair (Cursor.Twins a b) (copyLiteral src n dst k c) (copyLiteral src n dst k c') := by
  induction k generalizing c c' with
  | zero => exact .ok h
  | succ k ih =>
    simp only [copyLiteral, h.1]
    split
    · exact .ok h
    · have hlt : c.pc < n := by omega
      exact (copyByte_twins h hab hlt dst).andThen fun c1 _ hc1 h1 => ih h1 (copyByte_pc hc1 ▸ hlt)

theorem fillRun_twins {a b : Memory} (dst : Nat) (v : Byte) (k : Nat) {c c' : Cursor} (h : Cursor.Twins a b c c') :
    Run.Pair (Cursor.Twins a b) (fillRun dst v k c) (fillRun dst v k c') := by
  induction k generalizing c c' with
  | zero => exact .ok h
  | succ k ih =>
    obtain ⟨hpc, hq, hm⟩ := h
    simp only [fillRun, hpc, hq]
    match put (dst + c.q) v c.mem, put (dst + c.q) v c'.mem, put_twins hm (dst + c.q) v with
    | _, _, .ok hm' => exact ih ⟨rfl, rfl, hm'⟩
    | _, _, .bus _ => exact .bus ⟨hpc, hq, hm⟩

end Sys2Proof.Machine
end

section
/-! Two runs of one command from states that differ in M alone (20_memory.md R68, R80): `Alike` says how their ends
compare. -/
namespace Sys2Proof.Machine

open Sys2Proof.Claim

/-- `s` with `m` for its buffer memory. -/
def State.withMem (s : State) (m : Memory) : State := { s with mem := m }

@[simp] theorem State.withMem_latch (s : State) (m : Memory) : (s.withMem m).latch = s.latch := rfl
@[simp] theorem State.withMem_pc (s : State) (m : Memory) : (s.withMem m).pc = s.pc := rfl
@[simp] theorem State.withMem_q (s : State) (m : Memory) : (s.withMem m).q = s.q := rfl
@[simp] theorem State.withMem_mem (s : State) (m : Memory) : (s.withMem m).mem = m := rfl

/-- 60_exceptions.md R244, R245: `t` is the end of a command in BusError, begun with STATUS `st` on the memory `a`; the
draw counter shows that the destination was left open (log 10). -/
def BusEnd (a : Memory) (st : Status) (t : State) : Prop :=
  t.seq = .command ∧ t.mem.draws ≠ a.draws ∧ t.status = { recordFault .busError st with busy := false, done := true }

/-- `u` is what one computation makes of the memory `b` where it makes `t` of `a`: the same but for M, and M in twins
unless BusError left the destination open. -/
def Alike (a b : Memory) (st : Status) (t u : State) : Prop :=
  ∃ m', u = t.withMem m' ∧ (Memory.Twins a b t.mem m' ∨ BusEnd a st t)

theorem Alike.of_twins {a b : Memory} {st : Status} {t : State} {m : Memory} (h : Memory.Twins a b t.mem m) :
    Alike a b st t (t.withMem m) :=
  ⟨m, rfl, .inl h⟩

/-- Both runs take the same branch of a test that does not look at M. -/
theorem Alike.ite {a b : Memory} {st : Status} {p : Prop} [Decidable p] {t u t' u' : State} (ht : p → Alike a b st t u)
    (hf : ¬ p → Alike a b st t' u') : Alike a b st (if p then t else t') (if p then u else u') := by
  split
  · exact ht ‹_›
  · exact hf ‹_›

theorem finish_alike (i : Instr) (s : State) (p c : Nat) {a b : Memory} {r r' : Run Memory}
    (h : Run.Pair (Memory.Twins a b) r r') :
    Alike a b s.status (finish i s r p c) (finish i (s.withMem b) r' p c) := by
  cases h with
  | ok h => exact ⟨_, rfl, .inl h⟩
  | @bus x _ h =>
    refine ⟨_, rfl, .inr ⟨rfl, ?_, rfl⟩⟩
    have hd := h.draws_left
    simp only [finish, busFault_mem, Memory.leaveOpen_draws]
    omega

/-- The end of PBENC: its counts are the encoder's indices, the same in both runs. -/
theorem finishEncode_alike (s : State) {a b : Memory} {r r' : Run Enc} (h : Run.Pair (Enc.Twins a b) r r') :
    Alike a b s.status (finishEncode s r) (finishEncode (s.withMem b) r') := by
  cases h with
  | ok h =>
    obtain ⟨hi, ho, hm⟩ := h
    simp only [finishEncode, hi, ho]
    exact finish_alike .pbenc s _ _ (.ok hm)
  | bus h => exact finish_alike .pbenc s 0 0 (.bus h.2.2)

/-! ### PBDEC -/

theorem streamBusFault_alike {a b : Memory} {s : State} {m : Memory} (h : Memory.Twins a b s.mem m) :
    Alike a b s.status (streamBusFault s) (streamBusFault (s.withMem m)) := by
  refine ⟨_, rfl, .inr ⟨rfl, ?_, rfl⟩⟩
  have hd := h.draws_left
  rw [streamBusFault_mem, Memory.leaveOpen_draws]
  omega

theorem withCursor_alike {a b : Memory} (s : State) {m : Memory} {c c' : Cursor} (h : Cursor.Twins a b c c') (st : Status) :
    Alike a b st (s.withCursor c) ((s.withMem m).withCursor c') := by
  obtain ⟨hpc, hq, hm⟩ := h
  exact ⟨c'.mem, by simp only [State.withCursor, State.withMem, hpc, hq], .inl hm⟩

theorem withCursor_busFault_alike {a b : Memory} (s : State) {m : Memory} {c c' : Cursor} (h : Cursor.Twins a b c c') :
    Alike a b s.status (streamBusFault (s.withCursor c)) (streamBusFault ((s.withMem m).withCursor c')) := by
  obtain ⟨hpc, hq, hm⟩ := h
  have he : (s.withMem m).withCursor c' = (s.withCursor c).withMem c'.mem := by
    simp only [State.withCursor, State.withMem, hpc, hq]
  rw [he]
  exact streamBusFault_alike (s := s.withCursor c) hm

theorem afterGroup_alike {a b : Memory} (s : State) (m : Memory) {r r' : Run Cursor}
    (h : Run.Pair (Cursor.Twins a b) r r') :
    Alike a b s.status (afterGroup s r) (afterGroup (s.withMem m) r') := by
  cases h with
  | ok h => exact withCursor_alike s h _
  | bus h => exact withCursor_busFault_alike s h

theorem litGroup_alike {a b : Memory} {s : State} {m : Memory} (h : Memory.Twins a b s.mem m)
    (hab : Memory.AgreeOn s.latch.src.toNat s.latch.srclen.toNat a b) (hp : s.pc < s.latch.srclen.toNat) (n : BitVec 7) :
    Alike a b s.status (litGroup n s) (litGroup n (s.withMem m)) := by
  unfold litGroup
  refine Alike.ite (fun _ => .of_twins (t := streamFault .rowOverrun s) h) fun _ => afterGroup_alike s m ?_
  exact copyLiteral_twins hab _ _ (c := ⟨s.pc + 1, s.q, s.mem⟩) ⟨rfl, rfl, h⟩ hp

theorem repGroup_alike {a b : Memory} {s : State} {m : Memory} (h : Memory.Twins a b s.mem m)
    (hab : Memory.AgreeOn s.latch.src.toNat s.latch.srclen.toNat a b) (hp : s.pc < s.latch.srclen.toNat) (k : BitVec 7) :
    Alike a b s.status (repGroup k s) (repGroup k (s.withMem m)) := by
  unfold repGroup
  refine Alike.ite (fun _ => .of_twins (t := streamFault .rowOverrun s) h) fun _ =>
    Alike.ite (fun _ => .of_twins (t := nopGroup s) h) fun hvalue => ?_
  simp only [State.withMem_latch, State.withMem_pc, State.withMem_q, State.withMem_mem,
    h.read_eq hab (k := s.latch.src.toNat + s.pc + 1) (by omega) (by omega)]
  split
  · exact streamBusFault_alike h
  · rename_i v _
    have hrun := fillRun_twins s.latch.dst.toNat v (repCount k) (c := ⟨s.pc, s.q, s.mem⟩) (c' := ⟨s.pc, s.q, m⟩)
      ⟨rfl, rfl, h⟩
    match fillRun s.latch.dst.toNat v (repCount k) ⟨s.pc, s.q, s.mem⟩,
      fillRun s.latch.dst.toNat v (repCount k) ⟨s.pc, s.q, m⟩, hrun with
    | .ok c, .ok c', .ok ⟨_, hq, hm⟩ =>
      exact withCursor_alike s (c := ⟨s.pc + 2, c.q, c.mem⟩) (c' := ⟨s.pc + 2, c'.q, c'.mem⟩) ⟨rfl, hq, hm⟩ _
    | .bus _, .bus _, .bus hc => exact withCursor_busFault_alike s hc

theorem runGroup_alike {a b : Memory} {s : State} {m : Memory} (h : Memory.Twins a b s.mem m)
    (hab : Memory.AgreeOn s.latch.src.toNat s.latch.srclen.toNat a b) (hp : s.pc < s.latch.srclen.toNat) (c : Byte) :
    Alike a b s.status (runGroup c s) (runGroup c (s.withMem m)) := by
  unfold runGroup
  split
  · exact litGroup_alike h hab hp _
  split
  · exact .of_twins (t := nopGroup s) h
  · exact repGroup_alike h hab hp _

theorem endStream_alike {a b : Memory} {s : State} {m : Memory} (h : Memory.Twins a b s.mem m) (st : Status) :
    Alike a b st (endStream s) (endStream (s.withMem m)) :=
  Alike.ite (fun _ => .of_twins (t := streamFault .truncatedData s) h)
    fun _ => .of_twins (t := complete (writeCounts s)) h

theorem streamTurn_alike {a b : Memory} {s : State} {m : Memory} (h : Memory.Twins a b s.mem m)
    (hab : Memory.AgreeOn s.latch.src.toNat s.latch.srclen.toNat a b) :
    Alike a b s.status (streamTurn s) (streamTurn (s.withMem m)) := by
  have hmore : moreGroups (s.withMem m) = moreGroups s := rfl
  simp only [streamTurn, hmore, State.withMem_latch, State.withMem_pc, State.withMem_mem]
  split
  · rename_i hgo
    obtain ⟨_, hp⟩ := (moreGroups_iff s).mp hgo
    rw [h.read_eq hab (k := s.latch.src.toNat + s.pc) (by omega) (by omega)]
    split
    · exact streamBusFault_alike h
    · exact runGroup_alike h hab hp _
  · exact endStream_alike h _

/-- A turn that goes on has not touched STATUS or the operands. -/
theorem streamTurn_goes_on {s : State} (h : (streamTurn s).seq = .stream) :
    (streamTurn s).status = s.status ∧ (streamTurn s).latch = s.latch := by
  rcases streamTurn_outcome s with ⟨c, _, _, _, he⟩ | hf
  · rw [he]; exact ⟨rfl, rfl⟩
  · obtain ⟨_, _, hs⟩ := hf.done
    rw [hs] at h; cases h

theorem streamLoop_alike {a b : Memory} (f : Nat) {s : State} {m : Memory} (h : Memory.Twins a b s.mem m)
    (hab : Memory.AgreeOn s.latch.src.toNat s.latch.srclen.toNat a b) :
    Alike a b s.status (streamLoop f s) (streamLoop f (s.withMem m)) := by
  induction f generalizing s m with
  | zero => exact .of_twins h
  | succ f ih =>
    cases hseq : s.seq with
    | command => rw [streamLoop_command hseq, streamLoop_command (s := s.withMem m) hseq]; exact .of_twins h
    | stream =>
      rw [streamLoop_stream hseq, streamLoop_stream (s := s.withMem m) hseq]
      obtain ⟨m', he, hend⟩ := streamTurn_alike h hab
      rw [he]
      cases hseq' : (streamTurn s).seq with
      | command =>
        rw [streamLoop_command hseq', streamLoop_command (s := (streamTurn s).withMem m') hseq']
        exact ⟨m', rfl, hend⟩
      | stream =>
        obtain ⟨hst, hl⟩ := streamTurn_goes_on hseq'
        rcases hend with htwins | ⟨hcommand, _⟩
        · rw [← hst]
          exact ih htwins (by rwa [hl])
        · rw [hseq'] at hcommand; cases hcommand

/-! ### Every command -/

/-- Both runs pass the operand check or neither does. -/
theorem checked_alike {i : Instr} {s : State} {m : Memory} (hs : m.size = s.mem.size) {t u : State}
    (h : Alike s.mem m s.status t u) :
    Alike s.mem m s.status (if paramsOk i s.latch then t else raise .badParam s)
      (if paramsOk i s.latch then u else raise .badParam (s.withMem m)) :=
  .ite (fun _ => h) fun _ => .of_twins (t := raise .badParam s) (.refl hs)

theorem paldetCommand_alike {s : State} {m : Memory} (hs : m.size = s.mem.size) :
    Alike s.mem m s.status (paldetCommand s) (paldetCommand (s.withMem m)) := by
  simp only [paldetCommand, State.withMem_latch]
  split
  · exact .of_twins (t := complete { s with result := 1#32 }) (.refl hs)
  · exact .of_twins (t := complete { s with result := 0#32 }) (.refl hs)
  · exact .of_twins (t := raise .sizeMismatch s) (.refl hs)

/-- 20_memory.md R68, R80: a command makes the same of memories that agree on its source extent. -/
theorem exec_alike {i : Instr} (hi : i.isStream = false) {s : State} {m : Memory} (hs : m.size = s.mem.size)
    (hab : Memory.AgreeOn s.latch.src.toNat (sourceBytes i s.latch) s.mem m) :
    ∃ t u, exec i s = .next t ∧ exec i (s.withMem m) = .next u ∧ Alike s.mem m s.status t u := by
  have htwins := Memory.Twins.refl hs
  cases i with
  | lit n => cases hi
  | nop => cases hi
  | rep k => cases hi
  | pbdec =>
    exact ⟨_, _, rfl, rfl, .ite (fun _ => streamLoop_alike _ (s := beginStream s) htwins hab)
      fun _ => .of_twins (t := pbdecRefuse s) htwins⟩
  | pbenc =>
    exact ⟨_, _, rfl, rfl, checked_alike hs (finishEncode_alike s (encodeLoop_twins hab _ _ ⟨rfl, rfl, htwins⟩))⟩
  | deint =>
    exact ⟨_, _, rfl, rfl, checked_alike hs (finish_alike .deint s _ _ (reblock_twins (g := geometry s.latch) hs _ _ hab))⟩
  | intlv =>
    exact ⟨_, _, rfl, rfl, checked_alike hs (finish_alike .intlv s _ _ (reblock_twins (g := geometry s.latch) hs _ _ hab))⟩
  | transp =>
    exact ⟨_, _, rfl, rfl, checked_alike hs (finish_alike .transp s _ _ (transpose_twins (t := columns s.latch) hs hab))⟩
  | chunky =>
    exact ⟨_, _, rfl, rfl, checked_alike hs
      (finish_alike .chunky s _ _ (chunkyLoop_twins (g := geometry s.latch) hs _ _ hab))⟩
  | paldn => exact ⟨_, _, rfl, rfl, checked_alike hs (finish_alike .paldn s _ _ (paldn_twins hs _ _ hab))⟩
  | palup => exact ⟨_, _, rfl, rfl, checked_alike hs (finish_alike .palup s _ _ (palup_twins hs _ _ hab))⟩
  | paldef => exact ⟨_, _, rfl, rfl, checked_alike hs (finish_alike .paldef s _ _ (paldef_twins hs _ _))⟩
  | paldet => exact ⟨_, _, rfl, rfl, checked_alike hs (paldetCommand_alike hs)⟩

/-- Settles O53: by `exec_alike` the second run ends as the first but for M, and M in twins unless BusError left the
destination open. -/
theorem commandsDependOnlyOnOperandsAndSource : Obligations.CommandsDependOnlyOnOperandsAndSource := by
  intro i s t m hi h hs hab
  obtain ⟨u, v, hu, hv, m', rfl, hend⟩ := exec_alike hi hs hab
  cases hu.symm.trans h
  refine ⟨m', hv, ?_⟩
  rcases hend with htwins | ⟨_, hd, hst⟩
  · exact ⟨fun _ => ⟨htwins.draws_right, htwins.read⟩, fun hne => absurd htwins.draws_left hne⟩
  · exact ⟨fun heq => absurd heq hd, fun _ => ⟨by rw [hst]; rfl, fun herr => by simp [hst, herr, causeCode]⟩⟩

end Sys2Proof.Machine
end

section
/-! BusError inside PBDEC (20_memory.md R66; 60_exceptions.md R244; 40_packbits_decode.md R121 to R123, R129): the loop
runs whole groups and stops at the first access outside M. -/
namespace Sys2Proof.Machine

open Sys2Proof.Claim

/-! ### One group -/

/-- R122: a LIT whose access number `j` is the first outside M. -/
theorem litGroup_bus {n : BitVec 7} {s : State} {j : Nat} (hlen : s.q + litCount n ≤ s.latch.len.toNat)
    (hj : j < litCount n) (hn : s.pc + 1 + j < s.latch.srclen.toNat)
    (hs : InMem s.mem (s.latch.src.toNat + s.pc + 1) j) (hd : InMem s.mem (s.latch.dst.toNat + s.q) j)
    (ha : Apart (s.latch.src.toNat + s.pc + 1) j (s.latch.dst.toNat + s.q) j)
    (hout : s.mem.size ≤ s.latch.src.toNat + s.pc + 1 + j ∨ s.mem.size ≤ s.latch.dst.toNat + s.q + j) :
    ∃ m', litGroup n s = streamBusFault (s.withCursor { pc := s.pc + 1 + j, q := s.q + j, mem := m' }) ∧
      Memory.Within (s.latch.dst.toNat + s.q) (s.latch.dst.toNat + s.q + j) s.mem m' := by
  simp only [InMem, Apart] at hs hd ha
  obtain ⟨m', he, _, hw⟩ := copyLiteral_bus (src := s.latch.src.toNat) (n := s.latch.srclen.toNat)
    (dst := s.latch.dst.toNat) (c := { pc := s.pc + 1, q := s.q, mem := s.mem }) hj hn (by simp only; omega) hd
    (by simp only; omega) (by simp only; omega)
  exact ⟨m', by rw [litGroup, if_neg (by omega), he]; rfl, hw⟩

/-- R123, R66: a REP whose value byte lies outside M. -/
theorem repGroup_bus_value {m : BitVec 7} {s : State} (hlen : s.q + repCount m ≤ s.latch.len.toNat)
    (hn : s.pc + 1 < s.latch.srclen.toNat) (hout : s.mem.size ≤ s.latch.src.toNat + s.pc + 1) :
    repGroup m s = streamBusFault s := by
  rw [repGroup, if_neg (by omega), if_neg (by omega), Memory.read_eq_none_iff.mpr hout]

/-- R123: a REP whose write number `j` is the first access outside M. -/
theorem repGroup_bus_write {m : BitVec 7} {s : State} {j : Nat} (hlen : s.q + repCount m ≤ s.latch.len.toNat)
    (hn : s.pc + 1 < s.latch.srclen.toNat) (hs : s.latch.src.toNat + s.pc + 1 < s.mem.size) (hj : j < repCount m)
    (hd : InMem s.mem (s.latch.dst.toNat + s.q) j) (hout : s.mem.size ≤ s.latch.dst.toNat + s.q + j) :
    ∃ m', repGroup m s = streamBusFault (s.withCursor { pc := s.pc, q := s.q + j, mem := m' }) ∧
      Memory.Within (s.latch.dst.toNat + s.q) (s.latch.dst.toNat + s.q + j) s.mem m' := by
  obtain ⟨m', he, _, hw⟩ := fillRun_bus (dst := s.latch.dst.toNat) (v := s.mem.byteAt (s.latch.src.toNat + s.pc + 1))
    (c := { pc := s.pc, q := s.q, mem := s.mem }) hj hd hout
  exact ⟨m', by rw [repGroup, if_neg (by omega), if_neg (by omega), Memory.read_of_lt hs]; simp only [he], hw⟩

/-! ### After whole groups -/

/-- The state of PBDEC at the group boundary that `c` describes. -/
def State.atBoundary (s : State) (c : Cursor) : State := (beginStream s).withCursor c

@[simp] theorem State.atBoundary_latch (s : State) (c : Cursor) : (s.atBoundary c).latch = s.latch := rfl
@[simp] theorem State.atBoundary_pc (s : State) (c : Cursor) : (s.atBoundary c).pc = c.pc := rfl
@[simp] theorem State.atBoundary_q (s : State) (c : Cursor) : (s.atBoundary c).q = c.q := rfl
@[simp] theorem State.atBoundary_mem (s : State) (c : Cursor) : (s.atBoundary c).mem = c.mem := rfl

/-- A turn that ends PBDEC is the last one of its loop. -/
theorem streamLoop_of_last_turn {s t : State} (hs : s.seq = .stream) (ht : streamTurn s = t) (hend : t.seq = .command)
    (f : Nat) : streamLoop (f + 1) s = t := by
  rw [streamLoop_stream hs, ht, streamLoop_command hend]

/-- PBDEC on a source that begins with the whole groups `gs`: it has written their outputs and nothing else when it
reaches the boundary after them, with one turn left at least. -/
theorem execPbdec_after_groups {s : State} {gs : List Group} (hwf : ∀ g ∈ gs, g.wf = true)
    (hfetch : FetchesAll gs s.latch.len.toNat) (hq : (outputAll gs).length ≤ s.latch.len.toNat)
    (hp : (assembleAll gs).length ≤ s.latch.srclen.toNat)
    (ha : Apart s.latch.src.toNat s.latch.srclen.toNat s.latch.dst.toNat s.latch.len.toNat)
    (hb : Holds s.mem s.latch.src.toNat (assembleAll gs)) (hd : InMem s.mem s.latch.dst.toNat (outputAll gs).length) :
    ∃ m f, exec .pbdec s = .next (streamLoop (f + 1) (s.atBoundary ⟨(assembleAll gs).length, (outputAll gs).length, m⟩)) ∧
      (∀ j b, (outputAll gs)[j]? = some b → m.byteAt (s.latch.dst.toNat + j) = b) ∧
      Memory.Within s.latch.dst.toNat (s.latch.dst.toNat + (outputAll gs).length) s.mem m := by
  have hok : paramsOk .pbdec s.latch = true := by
    simpa [paramsOk] using (overlap_eq_false_iff_apart .pbdec s.latch).mpr ha
  have hcount := length_le_assembleAll gs
  obtain ⟨f, hfuel⟩ : ∃ f, s.latch.srclen.toNat + 1 = gs.length + (f + 1) :=
    ⟨s.latch.srclen.toNat - gs.length, by omega⟩
  obtain ⟨m, he, hout, hw⟩ := streamLoop_groups hwf (f := f + 1) (s := beginStream s) rfl
    (by simpa [FetchesAll] using hfetch) (by simpa using hp) (by simpa using hq) hb hd ha
  simp only [beginStream_latch, beginStream_pc, beginStream_q, Nat.zero_add, Nat.add_zero] at he hout hw
  refine ⟨m, f, ?_, hout, hw⟩
  simp only [exec, execPbdec, if_pos hok, hfuel, he]
  rfl

/-- R129, R244: what BusError at the cursor `c` leaves of a PBDEC that has written its row only. -/
theorem pbdecBusErrors_of_streamBusFault {s : State} {c : Cursor}
    (h : exec .pbdec s = .next (streamBusFault (s.atBoundary c))) (hp : c.pc ≤ s.latch.srclen.toNat)
    (hq : c.q ≤ s.latch.len.toNat)
    (hw : Memory.Within s.latch.dst.toNat (s.latch.dst.toNat + s.latch.len.toNat) s.mem c.mem) :
    PbdecBusErrors s c.pc c.q := by
  refine ⟨c.mem.leaveOpen s.latch.dst.toNat s.latch.len.toNat, ?_, hw.leaveOpen.sameOutside⟩
  rw [h, streamBusFault, writeCounts_eq (s := s.atBoundary c) hq hp]
  rfl

/-- Settles O56: the whole groups leave the source as it was, so the first access outside M comes in the turn at the
boundary after them, and each of the four kinds of access ends that turn in BusError. -/
theorem pbdecRaisesBusError : Obligations.PbdecRaisesBusError := by
  intro s gs hwf hq hp ha hb hd pc q from_ to_
  have hfetches : FetchesAll gs s.latch.len.toNat := fun i _ => (length_outputAll_take gs i).trans_lt hq
  obtain ⟨m, f, hexec, _, hw⟩ :=
    execPbdec_after_groups hwf hfetches (Nat.le_of_lt hq) (Nat.le_of_lt hp) ha hb hd
  have hsize := hw.size
  have hin : ∀ {x j}, InMem s.mem x j → InMem m x j := fun h => by rwa [InMem, hsize]
  have hout : ∀ {x}, s.mem.size ≤ x → m.size ≤ x := fun h => by rwa [hsize]
  have hcontrol : m.read from_ = s.mem.read from_ := hw.read (by rcases ha with h | h | h | h <;> omega)
  have hgroup : ∀ c, s.mem.read from_ = some c →
      streamTurn (s.atBoundary ⟨pc, q, m⟩) = runGroup c (s.atBoundary ⟨pc, q, m⟩) := fun _ hc =>
    streamTurn_group hq hp (hcontrol.trans hc)
  have hend : ∀ {pc' j m'}, streamTurn (s.atBoundary ⟨pc, q, m⟩) = streamBusFault (s.atBoundary ⟨pc', q + j, m'⟩) →
      pc' < s.latch.srclen.toNat → q + j ≤ s.latch.len.toNat → Memory.Within to_ (to_ + j) m m' →
      PbdecBusErrors s pc' (q + j) := fun hbus hpc' hqj hw' =>
    pbdecBusErrors_of_streamBusFault (streamLoop_of_last_turn rfl hbus rfl f ▸ hexec) (Nat.le_of_lt hpc') hqj
      ((hw.mono (Nat.le_refl _) (by omega)).trans (hw'.mono (by omega) (by omega)))
  refine ⟨fun hfetch => ?fetch, fun c n j hc hdec hlen hj hn hs hd' hacc => ?literal, fun c k hc hdec hlen hn =>
    ⟨fun hvalue => ?value, fun j hs hj hd' hacc => ?write⟩⟩
  case fetch => exact hend (j := 0) (streamTurn_bus hq hp (hout hfetch)) hp (Nat.le_of_lt hq) (.refl _ _ _)
  case literal =>
    have happart : Apart (from_ + 1) j to_ j := by
      rcases ha with h | h | h | h <;> simp only [Apart] <;> omega
    obtain ⟨m', he, hw'⟩ := litGroup_bus (s := s.atBoundary ⟨pc, q, m⟩) hlen hj hn (hin hs) (hin hd') happart
      (hacc.imp hout hout)
    refine hend ?_ hn (by omega) hw'
    rw [hgroup c hc, runGroup_lit (Except.ok.inj hdec)]
    exact he
  case value =>
    refine hend (j := 0) ?_ hp (Nat.le_of_lt hq) (.refl _ _ _)
    rw [hgroup c hc, runGroup_rep (Except.ok.inj hdec)]
    exact repGroup_bus_value hlen hn (hout hvalue)
  case write =>
    obtain ⟨m', he, hw'⟩ := repGroup_bus_write (s := s.atBoundary ⟨pc, q, m⟩) hlen hn (hsize ▸ hs) hj (hin hd')
      (hout hacc)
    refine hend ?_ hp (by omega) hw'
    rw [hgroup c hc, runGroup_rep (Except.ok.inj hdec)]
    exact he

end Sys2Proof.Machine
end

section
/-! What PBENC's loop computes for a row (41_packbits_encode.md R150 to R154): its scan takes the groups of the claims'
`groupsOf`, one a pass, and their bytes stay below the size bound. -/
namespace Sys2Proof.Machine

open Sys2Proof.Claim

/-! ### The groups of a row -/

theorem runOf_le (X : List Byte) : runOf X ≤ X.length := by
  cases X with
  | nil => exact Nat.le_refl _
  | cons v rest =>
    have := (List.takeWhile_sublist (l := rest) (· == v)).length_le
    simp only [runOf, List.length_cons]
    omega

theorem literalOf_le (room : Nat) (X : List Byte) : literalOf room X ≤ X.length ∧ literalOf room X ≤ room := by
  induction room generalizing X with
  | zero => simp [literalOf]
  | succ room ih =>
    cases X with
    | nil => simp [literalOf]
    | cons v rest =>
      have := ih rest
      simp only [literalOf, List.length_cons]
      split <;> omega

/-- R152: after a literal comes the row's end, a full literal, or a run of 3 or more. -/
theorem literalOf_stops (room : Nat) (X : List Byte) :
    literalOf room X = X.length ∨ literalOf room X = room ∨ 3 ≤ runOf (X.drop (literalOf room X)) := by
  induction room generalizing X with
  | zero => simp [literalOf]
  | succ room ih =>
    cases X with
    | nil => simp [literalOf]
    | cons v rest =>
      by_cases hrun : runOf (v :: rest) < 3
      · simp only [literalOf, if_pos hrun, List.length_cons, Nat.add_comm 1, List.drop_succ_cons]
        have := ih rest
        omega
      · simp only [literalOf, if_neg hrun, List.drop_zero]
        omega

theorem literalOf_pos {room : Nat} {X : List Byte} (hroom : 0 < room) (hX : 0 < X.length) (h : runOf X < 3) :
    0 < literalOf room X := by
  obtain ⟨room, rfl⟩ := Nat.exists_eq_add_of_lt hroom
  cases X with
  | nil => cases hX
  | cons v rest => simp only [literalOf, Nat.zero_add, if_pos h]; omega

theorem groupsOf_repeat {v : Byte} {rest : List Byte} (h : 3 ≤ runOf (v :: rest)) (fuel : Nat) :
    groupsOf (fuel + 1) (v :: rest) = .rep (runOf (v :: rest)) v :: groupsOf fuel ((v :: rest).drop (runOf (v :: rest))) := by
  rw [groupsOf, if_pos h]

theorem groupsOf_literal {v : Byte} {rest : List Byte} (h : runOf (v :: rest) < 3) (fuel : Nat) :
    groupsOf (fuel + 1) (v :: rest) = .lit ((v :: rest).take (literalOf 128 (v :: rest))) ::
      groupsOf fuel ((v :: rest).drop (literalOf 128 (v :: rest))) := by
  rw [groupsOf, if_neg (Nat.not_le.mpr h)]

@[simp] theorem groupsOf_nil (fuel : Nat) : groupsOf fuel [] = [] := by cases fuel <;> rfl

/-- The bytes of a repeat at the head of a row, and of what follows. -/
theorem length_assembleAll_repeat {v : Byte} {rest : List Byte} (h : 3 ≤ runOf (v :: rest)) (fuel : Nat) :
    (assembleAll (groupsOf (fuel + 1) (v :: rest))).length =
      2 + (assembleAll (groupsOf fuel ((v :: rest).drop (runOf (v :: rest))))).length := by
  simp only [groupsOf_repeat h, assembleAll, Group.assemble, List.length_append, List.length_cons, List.length_nil]

/-- The bytes of a literal at the head of a row, and of what follows. -/
theorem length_assembleAll_literal {v : Byte} {rest : List Byte} (h : runOf (v :: rest) < 3) (fuel : Nat) :
    (assembleAll (groupsOf (fuel + 1) (v :: rest))).length =
      1 + literalOf 128 (v :: rest) +
        (assembleAll (groupsOf fuel ((v :: rest).drop (literalOf 128 (v :: rest))))).length := by
  have hle := (literalOf_le 128 (v :: rest)).1
  simp only [groupsOf_literal h, assembleAll, Group.assemble, List.length_append, List.length_cons (a := literalControl _),
    List.length_take, Nat.min_eq_left hle]
  omega

/-- R154: the size bound, with the byte less that a row saves which is empty or begins with a repeat. -/
theorem length_assembleAll_groupsOf_le (fuel : Nat) (X : List Byte) :
    (assembleAll (groupsOf fuel X)).length ≤ X.length + X.length / 128 + 1 ∧
      (X = [] ∨ 3 ≤ runOf X → (assembleAll (groupsOf fuel X)).length ≤ X.length + X.length / 128) := by
  induction fuel generalizing X with
  | zero => simp [groupsOf, assembleAll]
  | succ fuel ih =>
    cases X with
    | nil => simp [assembleAll]
    | cons v rest =>
      by_cases hrun : 3 ≤ runOf (v :: rest)
      · obtain ⟨hbound, _⟩ := ih ((v :: rest).drop (runOf (v :: rest)))
        rw [length_assembleAll_repeat hrun]
        simp only [List.length_drop] at hbound
        have hle := runOf_le (v :: rest)
        omega
      · have hlit : runOf (v :: rest) < 3 := Nat.lt_of_not_le hrun
        obtain ⟨hbound, hsaved⟩ := ih ((v :: rest).drop (literalOf 128 (v :: rest)))
        rw [length_assembleAll_literal hlit]
        simp only [List.length_drop, ← List.length_eq_zero_iff] at hbound hsaved
        have hle := (literalOf_le 128 (v :: rest)).1
        refine ⟨?_, fun h => by rcases h with h | h <;> [cases h; exact absurd h hrun]⟩
        rcases literalOf_stops 128 (v :: rest) with hend | hfull | hnext
        · have := hsaved (.inl (by omega)); omega
        · omega
        · have := hsaved (.inr hnext); omega

/-! ### The scan -/

theorem holds_cons_iff {m : Memory} {a : Nat} {b : Byte} {X : List Byte} :
    Holds m a (b :: X) ↔ m.read a = some b ∧ Holds m (a + 1) X := by
  refine ⟨fun h => ⟨h 0 b rfl, fun j c hj => ?_⟩, fun ⟨h0, h⟩ j c hj => ?_⟩
  · rw [Nat.add_assoc, Nat.add_comm 1]
    exact h (j + 1) c hj
  · cases j with
    | zero => cases hj; exact h0
    | succ j =>
      have := h j c hj
      rwa [Nat.add_assoc, Nat.add_comm 1] at this

theorem holds_drop {m : Memory} {a : Nat} {X : List Byte} (h : Holds m a X) (k : Nat) : Holds m (a + k) (X.drop k) := by
  intro j b hj
  rw [Nat.add_assoc]
  exact h (k + j) b (by rwa [List.getElem?_drop] at hj)

/-- Bytes at addresses that read as before stand there still. -/
theorem holds_congr {m m' : Memory} {a : Nat} {X : List Byte} (h : Holds m a X)
    (hr : ∀ k, a ≤ k → k < a + X.length → m'.read k = m.read k) : Holds m' a X := by
  intro j b hj
  obtain ⟨hlt, _⟩ := List.getElem?_eq_some_iff.mp hj
  rw [hr _ (by omega) (by omega)]
  exact h j b hj

theorem countEqual_of_holds {src : Nat} {m : Memory} (v : Byte) {limit j : Nat} {X : List Byte}
    (h : Holds m (src + j) X) (hl : limit ≤ X.length) :
    countEqual src m v limit j = some (min limit (X.takeWhile (· == v)).length) := by
  induction limit generalizing j X with
  | zero => simp [countEqual]
  | succ limit ih =>
    cases X with
    | nil => simp at hl
    | cons b rest =>
      obtain ⟨hb, hrest⟩ := holds_cons_iff.mp h
      simp only [countEqual, srcByte, hb]
      by_cases hbv : b = v
      · simp [hbv, ih (j := j + 1) hrest (by simpa using hl), Nat.succ_min_succ]
      · simp [hbv]

/-- R151: `run(j)` is the run at the head of what is left of the row. -/
theorem runLength_of_holds {src n : Nat} {m : Memory} {j : Nat} {X : List Byte} (h : Holds m (src + j) X)
    (hX : X.length = n - j) (hj : j < n) : runLength src n m j = some (runOf X) := by
  cases X with
  | nil => simp at hX; omega
  | cons v rest =>
    obtain ⟨hv, hrest⟩ := holds_cons_iff.mp h
    have hle := (List.takeWhile_sublist (l := rest) (· == v)).length_le
    simp only [List.length_cons] at hX
    simp only [runLength, srcByte, hv, Config.maxRun, runOf,
      countEqual_of_holds (j := j + 1) v hrest (limit := min 128 (n - j) - 1) (by omega), Option.some.injEq]
    omega

/-- R152: the literal branch takes the bytes that `literalOf` counts. -/
theorem literalEnd_of_holds {src n : Nat} {m : Memory} {room j : Nat} {X : List Byte} (h : Holds m (src + j) X)
    (hX : X.length = n - j) : literalEnd src n m room j = some (j + literalOf room X) := by
  induction room generalizing j X with
  | zero => rfl
  | succ room ih =>
    cases X with
    | nil =>
      have hj : ¬ j < n := by simp at hX; omega
      simp [literalEnd, hj, literalOf]
    | cons v rest =>
      have hj : j < n := by simp at hX; omega
      obtain ⟨_, hrest⟩ := holds_cons_iff.mp h
      by_cases hrun : runOf (v :: rest) < 3
      · simp only [literalEnd, if_pos hj, runLength_of_holds h hX hj, Config.minRep, hrun, if_true, literalOf,
          ih (j := j + 1) hrest (by simp at hX; omega), Option.some.injEq]
        omega
      · simp [literalEnd, hj, runLength_of_holds h hX hj, Config.minRep, hrun, literalOf]

theorem encodeGroup_repeat {src n dst : Nat} {e : Enc} {X : List Byte} (h : Holds e.mem (src + e.i) X)
    (hX : X.length = n - e.i) (hi : e.i < n) (hrun : 3 ≤ runOf X) :
    encodeGroup src n dst e = encodeRepeat src dst (runOf X) e := by
  simp only [encodeGroup, runLength_of_holds h hX hi, if_pos (show Config.minRep ≤ runOf X from hrun)]

theorem encodeGroup_literal {src n dst : Nat} {e : Enc} {X : List Byte} (h : Holds e.mem (src + e.i) X)
    (hX : X.length = n - e.i) (hi : e.i < n) (hrun : runOf X < 3) :
    encodeGroup src n dst e = encodeLiteral src dst (e.i + literalOf 128 X) e := by
  have hmin : ¬ Config.minRep ≤ runOf X := Nat.not_le.mpr hrun
  simp only [encodeGroup, runLength_of_holds h hX hi, if_neg hmin, Config.maxRun, literalEnd_of_holds h hX]

/-! ### Passes that lie inside M -/

theorem Run.andThen_eq_ok {σ : Type} {r : Run σ} {k : σ → Run σ} {t : σ} (h : r.andThen k = .ok t) :
    ∃ s, r = .ok s ∧ k s = .ok t := by
  cases r with
  | ok s => exact ⟨s, rfl, h⟩
  | bus s => cases h

theorem Enc.after_eq_ok {e e' : Enc} {r : Run Memory} {i o : Nat} (h : e.after r i o = .ok e') :
    ∃ m, r = .ok m ∧ e' = { i := i, o := o, mem := m } := by
  cases r with
  | ok m => exact ⟨m, rfl, (Run.ok.inj h).symm⟩
  | bus m => cases h

theorem store_lt {a : Nat} {v : Option Byte} {m m' : Memory} (h : store a v m = .ok m') : a < m.size := by
  rcases store_cases a v m with ⟨_, _, ha, _⟩ | ⟨_, he⟩
  · exact ha
  · rw [he] at h; cases h

/-- A loop of stores that lies inside M: so does its last store. -/
theorem loop_store_lt {n a : Nat} {v : Nat → Memory → Option Byte} {m m' : Memory}
    (h : loop n (fun t m => store (a + t) (v t m) m) m = .ok m') (hn : 0 < n) : a + n ≤ m.size := by
  refine Nat.le_of_not_lt fun hlt => ?_
  obtain ⟨_, he⟩ := loop_bus (P := fun x => x.size = m.size) (s := m)
    (body := fun t m => store (a + t) (v t m) m) rfl (fun _ _ _ hs hb => (store_size hb).trans hs) (show n - 1 < n by omega)
    fun s hs => by
      rcases store_cases (a + (n - 1)) (v (n - 1) s) s with ⟨_, _, ha, _⟩ | ⟨_, he⟩
      · omega
      · exact ⟨s, he⟩
  rw [he] at h; cases h

theorem encodeRepeat_ok {src dst r : Nat} {e e' : Enc} (h : encodeRepeat src dst r e = .ok e') :
    e'.i = e.i + r ∧ e'.o = e.o + 2 ∧ dst + e'.o ≤ e.mem.size := by
  obtain ⟨m, hm, rfl⟩ := Enc.after_eq_ok h
  obtain ⟨m1, hput, hstore⟩ := Run.andThen_eq_ok hm
  have hlt := store_lt hstore
  have hsize := store_size (v := some _) hput
  exact ⟨rfl, rfl, by simp only; omega⟩

theorem encodeLiteral_ok {src dst j : Nat} {e e' : Enc} (hj : e.i < j) (h : encodeLiteral src dst j e = .ok e') :
    e'.i = j ∧ e'.o = e.o + 1 + (j - e.i) ∧ dst + e'.o ≤ e.mem.size := by
  obtain ⟨m, hm, rfl⟩ := Enc.after_eq_ok h
  obtain ⟨m1, hput, hloop⟩ := Run.andThen_eq_ok hm
  have hlt := loop_store_lt hloop (by omega)
  have hsize := store_size (v := some _) hput
  exact ⟨rfl, rfl, by simp only; omega⟩

/-- A pass that lies inside M: it moves on in the row, and the bytes read and written lie inside M. -/
theorem encodeGroup_ok {src n dst : Nat} {e e' : Enc} (hi : e.i < n) (h : encodeGroup src n dst e = .ok e') :
    e.i < e'.i ∧ e'.i ≤ n ∧ src + e'.i ≤ e.mem.size ∧ dst + e'.o ≤ e.mem.size ∧ e'.mem.size = e.mem.size := by
  rcases encodeGroup_cases (src := src) (dst := dst) hi with ⟨_, he⟩ | ⟨r, hr, _, he⟩ |
    ⟨j, hij, _, hjn, hlow, _, he⟩
  · rw [he] at h; cases h
  · rw [he] at h
    obtain ⟨hei, heo, hfit⟩ := encodeRepeat_ok h
    have hsize := (encodeRepeat_within src dst r e).size
    rw [h] at hsize
    obtain ⟨_, _, hrn, v, hv, _⟩ := runLength_some hi hr
    have hlast := (Memory.read_eq_some_iff.mp (hv (r - 1) (by omega))).1
    exact ⟨by omega, by omega, by omega, hfit, hsize⟩
  · rw [he] at h
    obtain ⟨hei, heo, hfit⟩ := encodeLiteral_ok hij h
    have hsize := (encodeLiteral_within (src := src) (dst := dst) (j := j) (e := e)).size
    rw [h] at hsize
    obtain ⟨r, hr, _⟩ := hlow (j - 1) (by omega) (by omega)
    obtain ⟨_, _, _, v, hv, _⟩ := runLength_some (by omega) hr
    have hlast := (Memory.read_eq_some_iff.mp (hv 0 (by omega))).1
    exact ⟨by omega, by omega, by omega, hfit, hsize⟩

/-- At the row's end PBENC's loop stops. -/
theorem encodeLoop_of_done {src n dst : Nat} {e : Enc} (hi : e.i = n) (fuel : Nat) :
    encodeLoop src n dst fuel e = .ok e := by
  cases fuel with
  | zero => rfl
  | succ fuel => rw [encodeLoop, if_neg (by omega)]

/-- A run of PBENC's loop that lies inside M: the rest of the row, if any, does, and every byte written. -/
theorem encodeLoop_ok {src n dst fuel : Nat} {e e' : Enc} (hi : e.i < n) (hf : n - e.i ≤ fuel)
    (h : encodeLoop src n dst fuel e = .ok e') : src + n ≤ e.mem.size ∧ dst + e'.o ≤ e.mem.size := by
  induction fuel generalizing e with
  | zero => omega
  | succ fuel ih =>
    rw [encodeLoop, if_pos hi] at h
    obtain ⟨e1, hgroup, hrest⟩ := Run.andThen_eq_ok h
    obtain ⟨hgt, hle, hsrc, hdst, hsize⟩ := encodeGroup_ok hi hgroup
    rcases Nat.eq_or_lt_of_le hle with hend | hmore
    · cases (encodeLoop_of_done hend fuel).symm.trans hrest
      exact ⟨by omega, hdst⟩
    · rw [← hsize]
      exact ih hmore (by omega) hrest

/-- R152: a pass inside M that takes `k` bytes of the row's rest `X` and writes the `c` bytes of its first group. -/
theorem encodeGroup_ok_of_holds {src n dst : Nat} {e e' : Enc} {X : List Byte} (hold : Holds e.mem (src + e.i) X)
    (hX : X.length = n - e.i) (hi : e.i < n) (h : encodeGroup src n dst e = .ok e') :
    ∃ k c, k ≤ X.length ∧ e'.i = e.i + k ∧ e'.o = e.o + c ∧
      Memory.Within (dst + e.o) (dst + e'.o) e.mem e'.mem ∧
      ∀ fuel, (assembleAll (groupsOf (fuel + 1) X)).length = c + (assembleAll (groupsOf fuel (X.drop k))).length := by
  obtain ⟨v, rest, rfl⟩ : ∃ v rest, X = v :: rest := List.exists_cons_of_length_pos (by omega)
  by_cases hrun : 3 ≤ runOf (v :: rest)
  · rw [encodeGroup_repeat hold hX hi hrun] at h
    obtain ⟨hei, heo, _⟩ := encodeRepeat_ok h
    have hw := encodeRepeat_within src dst (runOf (v :: rest)) e
    rw [h] at hw
    exact ⟨_, 2, runOf_le _, hei, heo, heo ▸ hw, length_assembleAll_repeat hrun⟩
  · have hlit : runOf (v :: rest) < 3 := Nat.lt_of_not_le hrun
    have hpos := literalOf_pos (room := 128) (by omega) (by simp) hlit
    rw [encodeGroup_literal hold hX hi hlit] at h
    obtain ⟨hei, heo, _⟩ := encodeLiteral_ok (by omega) h
    have hw := encodeLiteral_within (src := src) (dst := dst) (j := e.i + literalOf 128 (v :: rest)) (e := e)
    rw [h] at hw
    exact ⟨_, 1 + literalOf 128 (v :: rest), (literalOf_le 128 _).1, hei, by omega, heo ▸ hw,
      length_assembleAll_literal hlit⟩

/-- R152: a run of PBENC's loop that lies inside M writes as many bytes as the groups of the row's rest `X` have. -/
theorem encodeLoop_ok_length {src n dst bound fuel : Nat} {e e' : Enc} {X : List Byte}
    (h : encodeLoop src n dst fuel e = .ok e') (hX : X.length = n - e.i) (hi : e.i ≤ n)
    (hold : Holds e.mem (src + e.i) X) (hbound : e.o + (assembleAll (groupsOf fuel X)).length ≤ bound)
    (ha : src + n ≤ dst ∨ dst + bound ≤ src) : e'.o = e.o + (assembleAll (groupsOf fuel X)).length := by
  induction fuel generalizing e X with
  | zero => cases h; simp [groupsOf, assembleAll]
  | succ fuel ih =>
    rcases Nat.eq_or_lt_of_le hi with hend | hlt
    · cases (encodeLoop_of_done hend _).symm.trans h
      simp [List.length_eq_zero_iff.mp (show X.length = 0 by omega), assembleAll]
    · rw [encodeLoop, if_pos hlt] at h
      obtain ⟨e1, hgroup, hrest⟩ := Run.andThen_eq_ok h
      obtain ⟨k, c, hk, hei, heo, hw, hlength⟩ := encodeGroup_ok_of_holds hold hX hlt hgroup
      rw [hlength] at hbound ⊢
      have hold1 : Holds e1.mem (src + e1.i) (X.drop k) := by
        rw [hei, ← Nat.add_assoc]
        refine holds_congr (holds_drop hold k) fun a hlo hhi => hw.read ?_
        rw [List.length_drop] at hhi
        omega
      have := ih hrest (by rw [List.length_drop]; omega) (by omega) hold1 (by omega)
      omega

/-! ### The command -/

/-- The accesses of PBENC, its operand check passed. -/
def pbencRun (s : State) : Run Enc :=
  encodeLoop s.latch.src.toNat s.latch.srclen.toNat s.latch.dst.toNat s.latch.srclen.toNat { i := 0, o := 0, mem := s.mem }

theorem exec_pbenc {s : State} (ha : Apart s.latch.src.toNat s.latch.srclen.toNat s.latch.dst.toNat
    (s.latch.srclen.toNat + s.latch.srclen.toNat / 128 + 1)) : exec .pbenc s = .next (finishEncode s (pbencRun s)) := by
  have hok : paramsOk .pbenc s.latch = true := by
    simpa [paramsOk] using (overlap_eq_false_iff_apart .pbenc s.latch).mpr ha
  simp only [exec, execPbenc, if_pos hok, pbencRun]

/-- PBENC that does not end in BusError has read its row inside M and written there as many bytes as `encodedRow` has. -/
theorem pbencRun_ok {s : State} {e : Enc} (h : pbencRun s = .ok e) :
    InMem s.mem s.latch.src.toNat s.latch.srclen.toNat ∧
      ∀ X : List Byte, X.length = s.latch.srclen.toNat → Holds s.mem s.latch.src.toNat X →
        Apart s.latch.src.toNat s.latch.srclen.toNat s.latch.dst.toNat
          (s.latch.srclen.toNat + s.latch.srclen.toNat / 128 + 1) →
        InMem s.mem s.latch.dst.toNat (encodedRow X).length := by
  rcases Nat.eq_zero_or_pos s.latch.srclen.toNat with hzero | hpos
  · refine ⟨.inl hzero, fun X hX _ _ => .inl ?_⟩
    rw [List.length_eq_zero_iff.mp (hX.trans hzero)]
    rfl
  · obtain ⟨hrow, hout⟩ := encodeLoop_ok (e := { i := 0, o := 0, mem := s.mem }) hpos (Nat.le_refl _) h
    refine ⟨.inr hrow, fun X hX hold ha => .inr ?_⟩
    have hbound := (length_assembleAll_groupsOf_le s.latch.srclen.toNat X).1
    rw [hX] at hbound
    have hlength := encodeLoop_ok_length (bound := s.latch.srclen.toNat + s.latch.srclen.toNat / 128 + 1) h hX
      (Nat.zero_le _) hold (by simpa using hbound) (by rcases ha with h | h | h | h <;> omega)
    rwa [hlength, ← hX, Nat.zero_add] at hout

/-- Settles O34: PBENC whose accesses do not all lie inside M writes its destination extent at most, and by `pbencRun_ok`
they cannot all lie there. -/
theorem pbencRaisesBusError : Obligations.PbencRaisesBusError := by
  intro s ha
  have hbus : (∀ e, pbencRun s ≠ .ok e) →
      BusErrors .pbenc s s.latch.dst.toNat (s.latch.srclen.toNat + s.latch.srclen.toNat / 128 + 1) := fun hnot => by
    have hexec := exec_pbenc ha
    have hframe := commandsWriteOnlyTheirDestination .pbenc s _ rfl hexec
    cases hrun : pbencRun s with
    | ok e => exact absurd hrun (hnot e)
    | bus e => rw [hrun] at hexec hframe; exact ⟨_, hexec, hframe⟩
  exact ⟨fun hrow => hbus fun _ hrun => hrow (pbencRun_ok hrun).1,
    fun X hX hold hout => hbus fun _ hrun => hout ((pbencRun_ok hrun).2 X hX hold ha)⟩

end Sys2Proof.Machine
end

section
/-! The encoding tables (30_encoding.md R90, R91, R99, R104): the decoder and the encoder invert each other on control
bytes and on command codes. -/
namespace Sys2Proof.Machine

/-! ### Control bytes -/

/-- R91: LIT is 0x00 to 0x7F. -/
theorem decodeControl_of_le {c : Byte} (h : c.toNat ≤ 127) : decodeControl c = .lit (controlField c) := if_pos h

/-- R91: NOP is 0x80. -/
theorem decodeControl_of_eq {c : Byte} (h : c.toNat = 128) : decodeControl c = .nop := by simp [decodeControl, h]

/-- R91: REP is 0x81 to 0xFF. -/
theorem decodeControl_of_ge {c : Byte} (h : 129 ≤ c.toNat) : decodeControl c = .rep (controlField c) := by
  rw [decodeControl, if_neg (by omega), if_neg (by omega)]

@[simp] theorem controlField_toNat (c : Byte) : (controlField c).toNat = c.toNat % 128 := by simp [controlField]

theorem controlField_eq_iff {c : Byte} {n : BitVec 7} : controlField c = n ↔ c.toNat % 128 = n.toNat := by
  rw [← BitVec.toNat_inj, controlField_toNat]

/-- R99: a LIT's control byte is its field. -/
theorem decodeControl_lit (n : BitVec 7) : decodeControl (BitVec.ofNat 8 n.toNat) = .lit n := by
  have hn := n.isLt
  have hbyte : (BitVec.ofNat 8 n.toNat).toNat = n.toNat := by rw [BitVec.toNat_ofNat]; omega
  rw [decodeControl_of_le (by omega), (controlField_eq_iff (n := n)).mpr (by omega)]

/-- R99: a REP's control byte is 128 more than its field, which is not 0 since 0x80 is NOP. -/
theorem decodeControl_rep {m : BitVec 7} (hm : m ≠ 0#7) :
    decodeControl (BitVec.ofNat 8 (128 + m.toNat)) = .rep m := by
  have hlt := m.isLt
  have hpos : m.toNat ≠ 0 := fun h => hm (BitVec.eq_of_toNat_eq h)
  have hbyte : (BitVec.ofNat 8 (128 + m.toNat)).toNat = 128 + m.toNat := by rw [BitVec.toNat_ofNat]; omega
  rw [decodeControl_of_ge (by omega), (controlField_eq_iff (n := m)).mpr (by omega)]

/-- R91: a control byte decodes to a well-formed instruction, a REP's field not being 0. -/
theorem decodeControl_wf (c : Byte) : (decodeControl c).wf = true := by
  have hc := c.isLt
  rcases (by omega : c.toNat ≤ 127 ∨ c.toNat = 128 ∨ 129 ≤ c.toNat) with h | h | h
  · rw [decodeControl_of_le h]; rfl
  · rw [decodeControl_of_eq h]; rfl
  · rw [decodeControl_of_ge h]
    have hfield : controlField c ≠ 0#7 := by
      rw [Ne, controlField_eq_iff, BitVec.toNat_zero]
      omega
    exact bne_iff_ne.mpr hfield

/-- R99: a control byte is the code of the instruction it decodes to. -/
theorem encode_decodeControl (c : Byte) : encode (decodeControl c) = .control c := by
  have hc := c.isLt
  rcases (by omega : c.toNat ≤ 127 ∨ c.toNat = 128 ∨ 129 ≤ c.toNat) with h | h | h
  · rw [decodeControl_of_le h]
    refine congrArg Code.control (BitVec.eq_of_toNat_eq ?_)
    rw [BitVec.toNat_ofNat, controlField_toNat]
    omega
  · rw [decodeControl_of_eq h]
    exact congrArg Code.control (BitVec.eq_of_toNat_eq h.symm)
  · rw [decodeControl_of_ge h]
    refine congrArg Code.control (BitVec.eq_of_toNat_eq ?_)
    rw [BitVec.toNat_ofNat, controlField_toNat]
    omega

/-! ### Command codes -/

/-- R105: a code that names a command stands in the table with it. -/
theorem mem_of_lookupCommand {w : Word} {i : Instr} {rows : List (Word × Instr)} (h : lookupCommand w rows = .ok i) :
    (w, i) ∈ rows := by
  induction rows with
  | nil => cases h
  | cons row rest ih =>
    rw [lookupCommand] at h
    split at h
    · rename_i hw
      cases h
      exact hw ▸ List.mem_cons_self
    · exact List.mem_cons_of_mem _ (ih h)

/-- R104: each row of the table holds a well-formed command and its code. -/
theorem encode_of_mem_commandTable :
    ∀ row ∈ commandTable, row.2.wf = true ∧ encode row.2 = .command row.1 := by decide

/-! ### Every instruction and every code -/

theorem decode_encode {i : Instr} (hi : i.wf = true) : decode (encode i) = .ok i := by
  cases i with
  | lit n => exact congrArg Except.ok (decodeControl_lit n)
  | rep m => exact congrArg Except.ok (decodeControl_rep (bne_iff_ne.mp hi))
  | _ => rfl

theorem encode_of_decode {c : Code} {i : Instr} (h : decode c = .ok i) : i.wf = true ∧ encode i = c := by
  cases c with
  | control c => cases h; exact ⟨decodeControl_wf c, encode_decodeControl c⟩
  | command w => exact encode_of_mem_commandTable (w, i) (mem_of_lookupCommand h)

/-- Settles O21: a control byte's value and its instruction's field determine each other, and a command code and its
instruction share a row of the table. -/
theorem decodeAndEncodeAgree : Obligations.DecodeAndEncodeAgree :=
  ⟨fun _ => decode_encode, fun _ _ => encode_of_decode⟩

/-- Settles O20, by evaluating the decoder on each code. -/
theorem writtenOutCodesDecode : Obligations.WrittenOutCodesDecode :=
  ⟨rfl, rfl, rfl, rfl, rfl, rfl, rfl, rfl, rfl, rfl⟩

/-! ### The signed control byte -/

/-- 00_scope.md R17: a byte of 128 or more stands for a negative value. -/
theorem sext8_cases (c : Byte) :
    (c.toNat ≤ 127 ∧ sext8 c = c.toNat) ∨ (128 ≤ c.toNat ∧ sext8 c = (c.toNat : Int) - 256) := by
  unfold sext8
  split
  · exact .inl ⟨‹_›, rfl⟩
  · exact .inr ⟨by omega, rfl⟩

/-- Settles O22: the three ranges of the signed value are those of the byte by which it decodes. -/
theorem controlBytesPartition : Obligations.ControlBytesPartition := by
  intro c
  have hc := c.isLt
  have hsext := sext8_cases c
  have hlit : litCount (controlField c) = c.toNat % 128 + 1 := by rw [litCount, controlField_toNat]
  have hrep : repCount (controlField c) = 129 - c.toNat % 128 := by rw [repCount, controlField_toNat]
  refine ⟨by omega, fun hn => ?_, fun hn => ?_, fun hlo hhi => ?_⟩
  · exact ⟨_, congrArg Except.ok (decodeControl_of_le (by omega)), by omega, by omega, by omega, by omega⟩
  · exact congrArg Except.ok (decodeControl_of_eq (by omega))
  · exact ⟨_, congrArg Except.ok (decodeControl_of_ge (by omega)), by omega, by omega, by omega, by omega⟩

/-! ### Groups -/

/-- R90: a whole LIT at the front of the bytes. -/
theorem parse_lit {c : Byte} {n : BitVec 7} (h : decodeControl c = .lit n) {bytes : List Byte}
    (hlen : litCount n = bytes.length) (rest : List Byte) :
    Group.parse (c :: (bytes ++ rest)) = some (.lit bytes, rest) := by
  simp [Group.parse, h, hlen]

/-- R90: a whole REP at the front of the bytes. -/
theorem parse_rep {c : Byte} {m : BitVec 7} (h : decodeControl c = .rep m) (v : Byte) (rest : List Byte) :
    Group.parse (c :: v :: rest) = some (.rep (repCount m) v, rest) := by
  simp [Group.parse, h]

/-- Settles O23, by the group's form: its control byte decodes to its instruction, with its count (R97). -/
theorem groupBytesReadBack : Obligations.GroupBytesReadBack := by
  intro g rest hg
  cases g with
  | lit bytes =>
    simp only [Group.wf, Bool.and_eq_true, decide_eq_true_eq] at hg
    obtain ⟨hmin, hmax⟩ := hg
    obtain ⟨hd, hcount⟩ := decodeControl_literal hmin hmax
    exact ⟨parse_lit hd hcount rest, _, _, rfl, congrArg Except.ok hd, rfl⟩
  | rep count v =>
    simp only [Group.wf, Bool.and_eq_true, decide_eq_true_eq] at hg
    obtain ⟨hmin, hmax⟩ := hg
    obtain ⟨hd, hcount⟩ := decodeControl_repeat hmin hmax
    have hparse := parse_rep hd v rest
    have hwf := decodeControl_wf (repeatControl count)
    rw [hcount] at hparse
    rw [hd] at hwf
    exact ⟨hparse, _, _, rfl, congrArg Except.ok hd, hwf⟩
  | nop => exact ⟨rfl, _, _, rfl, rfl, rfl⟩

end Sys2Proof.Machine
end

section
/-! The operand registers an instruction reads (30_encoding.md R104): every operation of an execution reads the latched
copies through the instruction's row alone, so it commutes with replacing them by copies that agree on the row. -/
namespace Sys2Proof.Machine

open Sys2Proof.Claim

/-- `s` with the latched operands `o`. -/
def State.withLatch (s : State) (o : Operands) : State := { s with latch := o }

@[simp] theorem State.withLatch_latch (s : State) (o : Operands) : (s.withLatch o).latch = o := rfl
@[simp] theorem State.withLatch_pc (s : State) (o : Operands) : (s.withLatch o).pc = s.pc := rfl
@[simp] theorem State.withLatch_q (s : State) (o : Operands) : (s.withLatch o).q = s.q := rfl
@[simp] theorem State.withLatch_mem (s : State) (o : Operands) : (s.withLatch o).mem = s.mem := rfl

section
variable {i : Instr} {s : State} {o : Operands}

/-! ### The extents and the operand check -/

/-- 20_memory.md R78: a destination extent is made of operands in the row. -/
theorem dstExtent_of_agreeOnRow {o' : Operands} (h : AgreeOnRow i o o') :
    dstExtent i o' = dstExtent i o := by
  cases i <;> simp only [AgreeOnRow] at h <;> simp only [dstExtent, h]

/-- 60_exceptions.md R243: a command's conditions are about operands in its row. -/
theorem paramsOk_of_agreeOnRow {o' : Operands} (h : AgreeOnRow i o o') : paramsOk i o' = paramsOk i o := by
  cases i <;> simp only [AgreeOnRow] at h <;>
    simp only [paramsOk, geometryOk, colorsOk, overlap, srcExtent, dstExtent, h]

theorem checked_withLatch (h : AgreeOnRow i s.latch o) {t u r r' : State}
    (ht : u = t.withLatch o) (hr : r' = r.withLatch o) :
    (if paramsOk i o then u else r') = (if paramsOk i s.latch then t else r).withLatch o := by
  rw [apply_ite (State.withLatch · o), paramsOk_of_agreeOnRow h, ht, hr]

/-! ### Ends of commands -/

theorem busFault_withLatch (h : AgreeOnRow i s.latch o)
    (hdst : s.latch.dst = o.dst) : busFault i (s.withLatch o) = (busFault i s).withLatch o := by
  simp only [busFault, State.withLatch_latch, State.withLatch_mem, dstExtent_of_agreeOnRow h, ← hdst]
  rfl

theorem finish_withLatch (h : AgreeOnRow i s.latch o) (hdst : s.latch.dst = o.dst)
    (r : Run Memory) (p c : Nat) : finish i (s.withLatch o) r p c = (finish i s r p c).withLatch o := by
  cases r with
  | ok m => rfl
  | bus m => exact busFault_withLatch (s := { s with mem := m, produced := 0#32, consumed := 0#32 }) h hdst

theorem finishEncode_withLatch (h : AgreeOnRow .pbenc s.latch o) (r : Run Enc) :
    finishEncode (s.withLatch o) r = (finishEncode s r).withLatch o := by
  have ⟨_, _, hdst⟩ := h
  cases r with
  | ok e => exact finish_withLatch h hdst (.ok e.mem) e.o e.i
  | bus e => exact finish_withLatch h hdst (.bus e.mem) 0 0

/-! ### PBDEC and its groups -/

theorem streamBusFault_withLatch (h : AgreeOnRow .pbdec s.latch o) :
    streamBusFault (s.withLatch o) = (streamBusFault s).withLatch o :=
  have ⟨_, _, hdst, _⟩ := h
  busFault_withLatch (s := writeCounts s) h hdst

theorem afterGroup_withLatch (h : AgreeOnRow .pbdec s.latch o) (r : Run Cursor) :
    afterGroup (s.withLatch o) r = (afterGroup s r).withLatch o := by
  cases r with
  | ok c => rfl
  | bus c => exact streamBusFault_withLatch (s := s.withCursor c) h

theorem litGroup_withLatch (n : BitVec 7) (h : AgreeOnRow .pbdec s.latch o) :
    litGroup n (s.withLatch o) = (litGroup n s).withLatch o := by
  have ⟨hsrc, hsrclen, hdst, hlen⟩ := h
  simp only [litGroup, State.withLatch_latch, State.withLatch_pc, State.withLatch_q, State.withLatch_mem,
    ← hsrc, ← hsrclen, ← hdst, ← hlen]
  rw [apply_ite (State.withLatch · o), ← afterGroup_withLatch h]
  rfl

theorem repGroup_withLatch (m : BitVec 7) (h : AgreeOnRow .pbdec s.latch o) :
    repGroup m (s.withLatch o) = (repGroup m s).withLatch o := by
  have ⟨hsrc, hsrclen, hdst, hlen⟩ := h
  simp only [repGroup, State.withLatch_latch, State.withLatch_pc, State.withLatch_q, State.withLatch_mem,
    ← hsrc, ← hsrclen, ← hdst, ← hlen]
  rw [apply_ite (State.withLatch · o), apply_ite (State.withLatch · o)]
  refine if_congr Iff.rfl rfl (if_congr Iff.rfl rfl ?_)
  split
  · exact streamBusFault_withLatch h
  · split
    · rfl
    · exact streamBusFault_withLatch (s := s.withCursor _) h

theorem runGroup_withLatch (c : Byte) (h : AgreeOnRow .pbdec s.latch o) :
    runGroup c (s.withLatch o) = (runGroup c s).withLatch o := by
  unfold runGroup
  split
  · exact litGroup_withLatch _ h
  · split
    · rfl
    · exact repGroup_withLatch _ h

theorem endStream_withLatch (h : AgreeOnRow .pbdec s.latch o) :
    endStream (s.withLatch o) = (endStream s).withLatch o := by
  obtain ⟨_, _, _, hlen⟩ := h
  simp only [endStream, State.withLatch_latch, State.withLatch_q, ← hlen]
  rw [apply_ite (State.withLatch · o)]
  rfl

theorem streamTurn_withLatch (h : AgreeOnRow .pbdec s.latch o) :
    streamTurn (s.withLatch o) = (streamTurn s).withLatch o := by
  have ⟨hsrc, hsrclen, _, hlen⟩ := h
  have hmore : moreGroups (s.withLatch o) = moreGroups s := by
    rw [moreGroups, State.withLatch_latch, ← hsrclen, ← hlen]
    rfl
  simp only [streamTurn, hmore, State.withLatch_latch, State.withLatch_pc, State.withLatch_mem, ← hsrc]
  split
  · split
    · exact streamBusFault_withLatch h
    · exact runGroup_withLatch _ h
  · exact endStream_withLatch h

/-- 10_state.md R23: a turn at a group boundary leaves the latched copies alone. -/
@[simp] theorem streamTurn_latch (s : State) : (streamTurn s).latch = s.latch := by
  have hproceeds : Proceeds s (streamTurn s) :=
    (streamTurn_outcome s).imp_left fun ⟨c, _, _, hm, he⟩ => ⟨c, hm, he⟩
  obtain ⟨_, hlatch, _⟩ := hproceeds.frame
  exact hlatch

theorem streamLoop_withLatch (f : Nat) (h : AgreeOnRow .pbdec s.latch o) :
    streamLoop f (s.withLatch o) = (streamLoop f s).withLatch o := by
  induction f generalizing s with
  | zero => rfl
  | succ f ih =>
    cases hs : s.seq with
    | command => rw [streamLoop_command hs, streamLoop_command (s := s.withLatch o) hs]
    | stream =>
      rw [streamLoop_stream hs, streamLoop_stream (s := s.withLatch o) hs, streamTurn_withLatch h,
        ih (by rwa [streamTurn_latch])]

/-! ### Every instruction -/

theorem geometry_of_agreeOnRow {o' : Operands} (h : AgreeOnRow .deint o o') : geometry o' = geometry o := by
  obtain ⟨hsrc, hdst, hwidth, hheight, hnplanes, hsrb⟩ := h
  simp only [geometry, hsrc, hdst, hwidth, hheight, hnplanes, hsrb]

theorem columns_of_agreeOnRow {o' : Operands} (h : AgreeOnRow .transp o o') : columns o' = columns o := by
  obtain ⟨hsrc, hdst, hcolw, hrows, hcols, hdrb⟩ := h
  simp only [columns, hsrc, hdst, hcolw, hrows, hcols, hdrb]

theorem reblockCommand_withLatch (l l' : Layout) (h : AgreeOnRow i s.latch o)
    (hgeometry : AgreeOnRow .deint s.latch o) :
    reblockCommand i l l' (s.withLatch o) = (reblockCommand i l l' s).withLatch o := by
  simp only [reblockCommand, State.withLatch_latch, State.withLatch_mem, geometry_of_agreeOnRow hgeometry]
  have ⟨_, hdst, _⟩ := hgeometry
  exact finish_withLatch h hdst _ _ _

theorem transposeCommand_withLatch (h : AgreeOnRow .transp s.latch o) :
    transposeCommand (s.withLatch o) = (transposeCommand s).withLatch o := by
  simp only [transposeCommand, State.withLatch_latch, State.withLatch_mem, columns_of_agreeOnRow h]
  have ⟨_, hdst, _⟩ := h
  exact finish_withLatch h hdst _ _ _

theorem chunkyCommand_withLatch (h : AgreeOnRow .chunky s.latch o) :
    chunkyCommand (s.withLatch o) = (chunkyCommand s).withLatch o := by
  have ⟨hsrc, hdst, hwidth, hheight, hnplanes, hflags, hsrb⟩ := h
  simp only [chunkyCommand, State.withLatch_latch, State.withLatch_mem, ← hflags,
    geometry_of_agreeOnRow ⟨hsrc, hdst, hwidth, hheight, hnplanes, hsrb⟩]
  exact finish_withLatch h hdst _ _ _

theorem paldetCommand_withLatch (h : AgreeOnRow .paldet s.latch o) :
    paldetCommand (s.withLatch o) = (paldetCommand s).withLatch o := by
  obtain ⟨hfilelen, hpixlen, hncolors⟩ := h
  simp only [paldetCommand, State.withLatch_latch, ← hfilelen, ← hpixlen, ← hncolors]
  split <;> rfl

theorem exec_withLatch {t : State} (hrow : AgreeOnRow i s.latch o) (h : exec i s = .next t) :
    exec i (s.withLatch o) = .next (t.withLatch o) := by
  have hnext {u v : State} (hu : u = v.withLatch o) :
      (.next u : Host.Outcome State Fault Refusal) = .next (v.withLatch o) := congrArg _ hu
  cases i with
  | lit n => cases h; exact hnext (litGroup_withLatch n hrow)
  | nop => cases h; rfl
  | rep m => cases h; exact hnext (repGroup_withLatch m hrow)
  | pbdec =>
    cases h
    have ⟨_, hsrclen, _⟩ := hrow
    refine hnext (checked_withLatch hrow ?_ rfl)
    rw [State.withLatch_latch, ← hsrclen]
    exact streamLoop_withLatch _ (s := beginStream s) hrow
  | pbenc =>
    cases h
    have ⟨hsrc, hsrclen, hdst⟩ := hrow
    refine hnext (checked_withLatch hrow ?_ rfl)
    rw [← finishEncode_withLatch hrow, hsrc, hsrclen, hdst]
    rfl
  | deint | intlv => cases h; exact hnext (checked_withLatch hrow (reblockCommand_withLatch _ _ hrow hrow) rfl)
  | transp => cases h; exact hnext (checked_withLatch hrow (transposeCommand_withLatch hrow) rfl)
  | chunky => cases h; exact hnext (checked_withLatch hrow (chunkyCommand_withLatch hrow) rfl)
  | paldn | palup =>
    cases h
    have ⟨hsrc, hdst, hncolors⟩ := hrow
    refine hnext (checked_withLatch hrow ?_ rfl)
    rw [← finish_withLatch hrow hdst, hsrc, hdst, hncolors]
    rfl
  | paldef =>
    cases h
    have ⟨hdst, hncolors⟩ := hrow
    refine hnext (checked_withLatch hrow ?_ rfl)
    rw [← finish_withLatch hrow hdst, hdst, hncolors]
    rfl
  | paldet => cases h; exact hnext (checked_withLatch hrow (paldetCommand_withLatch hrow) rfl)

end

/-- Settles O51: an execution commutes with replacing the latched copies by any that agree on the instruction's row. -/
theorem commandsReadOnlyTheirOperandRow : Obligations.CommandsReadOnlyTheirOperandRow :=
  fun _ _ _ _ hrow h => exec_withLatch hrow h

end Sys2Proof.Machine
end

section
/-! One group of PBDEC with every access inside M (40_packbits_decode.md R122 to R124), and what a group's overrun and
its BusError leave (R126, 60_exceptions.md R244): the statements about LIT, REP and NOP. -/
namespace Sys2Proof.Machine

open Sys2Proof.Claim

theorem Memory.Within.sameOutside {a n : Nat} {m m' : Memory} (h : Memory.Within a (a + n) m m') :
    SameOutside m m' a n :=
  h.confined.sameOutside

/-! ### LIT -/

theorem litGroup_overrun {n : BitVec 7} {s : State} (h : s.latch.len.toNat < s.q + litCount n) :
    litGroup n s = streamFault .rowOverrun s := by
  rw [litGroup, if_pos h]

/-- R122: a LIT whose accesses lie inside M copies the `t` bytes that are there. -/
theorem litGroup_ok {n : BitVec 7} {s : State} {t : Nat} (hp : s.pc < s.latch.srclen.toNat)
    (hlen : s.q + litCount n ≤ s.latch.len.toNat) (ht : t = min (litCount n) (s.latch.srclen.toNat - (s.pc + 1)))
    (ha : Apart (s.latch.src.toNat + s.pc + 1) t (s.latch.dst.toNat + s.q) t)
    (hs : InMem s.mem (s.latch.src.toNat + s.pc + 1) t) (hd : InMem s.mem (s.latch.dst.toNat + s.q) t) :
    ∃ m', litGroup n s = s.withCursor { pc := s.pc + 1 + t, q := s.q + t, mem := m' } ∧
      (∀ j, j < t → m'.read (s.latch.dst.toNat + s.q + j) = s.mem.read (s.latch.src.toNat + s.pc + 1 + j)) ∧
      Memory.Within (s.latch.dst.toNat + s.q) (s.latch.dst.toNat + s.q + t) s.mem m' := by
  simp only [InMem, Apart] at hs hd ha
  obtain ⟨m', he, hcopy, hw⟩ := copyLiteral_ok (src := s.latch.src.toNat) (dst := s.latch.dst.toNat)
    (c := { pc := s.pc + 1, q := s.q, mem := s.mem }) (show s.pc + 1 ≤ s.latch.srclen.toNat from hp) ht
    (by simp only; omega) hd (by simp only; omega)
  refine ⟨m', by rw [litGroup, if_neg (by omega), he]; rfl, fun j hj => ?_, hw⟩
  rw [Memory.read_of_lt (by have := hw.size; simp only at this; omega), Memory.read_of_lt (by omega), hcopy j hj]
  rfl

/-! ### REP -/

theorem repGroup_overrun {m : BitVec 7} {s : State} (h : s.latch.len.toNat < s.q + repCount m) :
    repGroup m s = streamFault .rowOverrun s := by
  rw [repGroup, if_pos h]

/-- R123: a REP without its value byte consumes its control byte. -/
theorem repGroup_missing {m : BitVec 7} {s : State} (hlen : s.q + repCount m ≤ s.latch.len.toNat)
    (hn : s.pc + 1 = s.latch.srclen.toNat) : repGroup m s = { s with pc := s.pc + 1 } := by
  rw [repGroup, if_neg (by omega), if_pos hn]

/-- R123: a REP whose accesses lie inside M writes its value byte as often as its count says. -/
theorem repGroup_ok {m : BitVec 7} {s : State} (hlen : s.q + repCount m ≤ s.latch.len.toNat)
    (hn : s.pc + 1 < s.latch.srclen.toNat) (hs : s.latch.src.toNat + s.pc + 1 < s.mem.size)
    (hd : InMem s.mem (s.latch.dst.toNat + s.q) (repCount m)) :
    ∃ m', repGroup m s = s.withCursor { pc := s.pc + 2, q := s.q + repCount m, mem := m' } ∧
      (∀ j, j < repCount m → m'.read (s.latch.dst.toNat + s.q + j) = s.mem.read (s.latch.src.toNat + s.pc + 1)) ∧
      Memory.Within (s.latch.dst.toNat + s.q) (s.latch.dst.toNat + s.q + repCount m) s.mem m' := by
  obtain ⟨m', he, hfill, hw⟩ := fillRun_ok (dst := s.latch.dst.toNat)
    (v := s.mem.byteAt (s.latch.src.toNat + s.pc + 1)) (c := { pc := s.pc, q := s.q, mem := s.mem }) hd
  refine ⟨m', ?_, fun j hj => ?_, hw⟩
  · rw [repGroup, if_neg (by omega), if_neg (by omega), Memory.read_of_lt hs]
    simp only [he]
  · rw [Memory.read_of_lt hs]
    refine Memory.read_eq_some_iff.mpr ⟨?_, hfill j hj⟩
    have hsize := hw.size
    simp only [InMem] at hd hsize
    omega

/-! ### Faults inside a group -/

/-- R129: a fault of the stream at counters in range puts them into PRODUCED and CONSUMED. -/
theorem streamFault_eq (f : FaultKind) {s : State} (hp : s.pc ≤ s.latch.srclen.toNat) (hq : s.q ≤ s.latch.len.toNat) :
    streamFault f s =
      raise f { s with produced := BitVec.ofNat 32 s.q, consumed := BitVec.ofNat 32 s.pc } := by
  rw [streamFault, writeCounts_eq hq hp]

/-- R244: BusError at the cursor `c` after writes to the row only. -/
theorem streamBusFault_withCursor {s : State} {c : Cursor} (hp : c.pc ≤ s.latch.srclen.toNat)
    (hq : c.q ≤ s.latch.len.toNat)
    (hw : Memory.Within s.latch.dst.toNat (s.latch.dst.toNat + s.latch.len.toNat) s.mem c.mem) :
    ∃ m', streamBusFault (s.withCursor c) = raise .busError
        { s with pc := c.pc, q := c.q, mem := m', produced := BitVec.ofNat 32 c.q, consumed := BitVec.ofNat 32 c.pc } ∧
      SameOutside s.mem m' s.latch.dst.toNat s.latch.len.toNat := by
  refine ⟨c.mem.leaveOpen s.latch.dst.toNat s.latch.len.toNat, ?_, hw.leaveOpen.sameOutside⟩
  rw [streamBusFault, writeCounts_eq (s := s.withCursor c) hq hp]
  rfl

/-! ### The statements -/

/-- Settles O24, by the three ways through `litGroup`: overrun, all its accesses inside M, access `j` the first
outside. -/
theorem litCopiesItsLiteralBytes : Obligations.LitCopiesItsLiteralBytes := by
  intro n s k from_ to_ avail hp hq
  refine ⟨fun hover => ?overrun, fun hlen ha hs hd => ?copy, fun j hlen hj ha hs hd hout => ?bus⟩
  case overrun =>
    refine congrArg Host.Outcome.next ?_
    rw [litGroup_overrun hover, streamFault_eq _ (Nat.le_of_lt hp) hq]
  case copy =>
    obtain ⟨m', he, hcopy, hw⟩ := litGroup_ok hp hlen rfl ha hs hd
    exact ⟨m', congrArg Host.Outcome.next he, hcopy, hw.sameOutside⟩
  case bus =>
    obtain ⟨m, he, hw⟩ := litGroup_bus hlen (show j < litCount n by unfold litCount; omega) (by omega) hs hd ha hout
    obtain ⟨m', hfault, hsame⟩ := streamBusFault_withCursor (s := s)
      (c := { pc := s.pc + 1 + j, q := s.q + j, mem := m }) (by simp only; omega) (by simp only; omega)
      (hw.mono (by omega) (by omega))
    exact ⟨m', congrArg Host.Outcome.next (he.trans hfault), hsame⟩

/-- Settles O25, by the five ways through `repGroup`: overrun, no value byte, all its accesses inside M, and the value
byte or write `j` the first access outside. -/
theorem repRepeatsItsValueByte : Obligations.RepRepeatsItsValueByte := by
  intro m s k from_ to_ hp hq
  refine ⟨fun hover => ?overrun, fun hlen hn => congrArg Host.Outcome.next (repGroup_missing hlen hn),
    fun hlen hn hs hd => ?fill, fun hlen hn hout => ?value, fun j hlen hn hs hj hd hout => ?write⟩
  case overrun =>
    refine congrArg Host.Outcome.next ?_
    rw [repGroup_overrun hover, streamFault_eq _ (Nat.le_of_lt hp) hq]
  case fill =>
    obtain ⟨m', he, hfill, hw⟩ := repGroup_ok hlen hn hs hd
    exact ⟨m', congrArg Host.Outcome.next he, hfill, hw.sameOutside⟩
  case value =>
    obtain ⟨m', hfault, hsame⟩ := streamBusFault_withCursor (s := s) (c := { pc := s.pc, q := s.q, mem := s.mem })
      (Nat.le_of_lt hp) hq (.refl _ _ _)
    exact ⟨m', congrArg Host.Outcome.next ((repGroup_bus_value hlen hn hout).trans hfault), hsame⟩
  case write =>
    obtain ⟨m₁, he, hw⟩ := repGroup_bus_write hlen hn hs hj hd hout
    obtain ⟨m', hfault, hsame⟩ := streamBusFault_withCursor (s := s) (c := { pc := s.pc, q := s.q + j, mem := m₁ })
      (Nat.le_of_lt hp) (by simp only; omega) (hw.mono (by omega) (by omega))
    exact ⟨m', congrArg Host.Outcome.next (he.trans hfault), hsame⟩

/-- Settles O26: `nopGroup` is the moved cursor. -/
theorem nopConsumesOneByte : Obligations.NopConsumesOneByte := fun _ => rfl

end Sys2Proof.Machine
end

section
/-! PBDEC as a whole (40_packbits_decode.md R129 to R132): it decodes the whole groups at the head of its source, and
then its row is full or its source has run out. -/
namespace Sys2Proof.Machine

open Sys2Proof.Claim

/-! ### The command and its loop -/

theorem exec_pbdec_of_apart {s : State}
    (ha : Apart s.latch.src.toNat s.latch.srclen.toNat s.latch.dst.toNat s.latch.len.toNat) :
    exec .pbdec s = .next (streamLoop (s.latch.srclen.toNat + 1) (beginStream s)) := by
  have hok : paramsOk .pbdec s.latch = true := by
    simpa [paramsOk] using (overlap_eq_false_iff_apart .pbdec s.latch).mpr ha
  simp only [exec, execPbdec, if_pos hok]

/-- R132: PBDEC on intersecting extents. -/
theorem exec_pbdec_of_not_apart {s : State}
    (ha : ¬ Apart s.latch.src.toNat s.latch.srclen.toNat s.latch.dst.toNat s.latch.len.toNat) :
    exec .pbdec s = .next (pbdecRefuse s) := by
  have hbad : ¬ paramsOk .pbdec s.latch = true := by
    simpa [paramsOk] using fun h => ha ((overlap_eq_false_iff_apart .pbdec s.latch).mp h)
  simp only [exec, execPbdec, if_neg hbad]

/-- A loop that has ended stays where it is. -/
theorem streamLoop_succ_of_ended {f : Nat} {s : State} (h : (streamLoop f s).seq = .command) :
    streamLoop (f + 1) s = streamLoop f s := by
  induction f generalizing s with
  | zero => exact streamLoop_command h 1
  | succ f ih =>
    cases hs : s.seq with
    | command => rw [streamLoop_command hs, streamLoop_command hs]
    | stream =>
      rw [streamLoop_stream hs f] at h
      rw [streamLoop_stream hs, streamLoop_stream hs, ih h]

/-- 10_state.md R28: PBDEC has come to its end, so one turn more is one it does not take. -/
theorem exec_pbdec_spare_turn {s t : State} {f : Nat} (h : exec .pbdec s = .next (streamLoop f t)) :
    exec .pbdec s = .next (streamLoop (f + 1) t) := by
  obtain ⟨u, hu, hends⟩ := exec_command_ends (i := .pbdec) rfl s
  cases hu.symm.trans h
  obtain ⟨_, _, hseq⟩ := hends.finishes.done
  rw [h, streamLoop_succ_of_ended hseq]

theorem inMem_congr {m m' : Memory} {a n : Nat} (h : InMem m a n) (hs : m'.size = m.size) : InMem m' a n := by
  rwa [InMem, hs]

theorem inMem_split {m : Memory} {a n k : Nat} (h : InMem m a (n + k)) : InMem m a n ∧ InMem m (a + n) k := by
  simp only [InMem] at h ⊢
  omega

/-- Bytes written inside M stand there. -/
theorem holds_of_byteAt {m : Memory} {a : Nat} {X : List Byte} (hin : InMem m a X.length)
    (h : ∀ j b, X[j]? = some b → m.byteAt (a + j) = b) : Holds m a X := by
  intro j b hj
  have hlt := (List.getElem?_eq_some_iff.mp hj).1
  simp only [InMem] at hin
  exact Memory.read_eq_some_iff.mpr ⟨by omega, h j b hj⟩

/-- Bytes that stand in M lie inside it. -/
theorem inMem_of_holds {m : Memory} {a : Nat} {X : List Byte} (h : Holds m a X) : InMem m a X.length := by
  rcases Nat.eq_zero_or_pos X.length with hzero | hpos
  · exact .inl hzero
  · have hlast := h (X.length - 1) _ (List.getElem?_eq_getElem (by omega))
    have hlt := (Memory.read_eq_some_iff.mp hlast).1
    exact .inr (by omega)

theorem holds_append_iff {m : Memory} {a : Nat} {X Y : List Byte} :
    Holds m a (X ++ Y) ↔ Holds m a X ∧ Holds m (a + X.length) Y := by
  induction X generalizing a with
  | nil => exact ⟨fun h => ⟨nofun, h⟩, fun h => h.2⟩
  | cons b X ih => rw [List.cons_append, holds_cons_iff, ih, holds_cons_iff, and_assoc, List.length_cons,
      Nat.add_assoc a, Nat.add_comm 1]

/-- Settles O27: after the groups the row is full, so the turn at the boundary after them completes the command. -/
theorem pbdecDecodesTheGroupsOfARow : Obligations.PbdecDecodesTheGroupsOfARow := by
  intro s gs hwf hfetch hrow hp ha hb hd
  obtain ⟨m, f, hexec, hout, hw⟩ :=
    execPbdec_after_groups hwf hfetch (Nat.le_of_eq hrow) hp ha hb (hrow.symm ▸ hd)
  have hlast : streamTurn (s.atBoundary ⟨(assembleAll gs).length, (outputAll gs).length, m⟩) =
      complete (writeCounts (s.atBoundary ⟨(assembleAll gs).length, (outputAll gs).length, m⟩)) := streamTurn_full hrow
  rw [streamLoop_of_last_turn rfl hlast rfl, writeCounts_eq (Nat.le_of_eq hrow) hp] at hexec
  refine ⟨m, ?_, holds_of_byteAt (inMem_congr (hrow.symm ▸ hd) hw.size) hout, (hrow ▸ hw).sameOutside⟩
  rw [hexec, State.atBoundary_q, State.atBoundary_pc, hrow, BitVec.ofNat_toNat, BitVec.setWidth_eq]
  rfl

/-! ### A source that runs out -/

/-- R130: a turn that takes the source to its end with the row short, and the turn after it. -/
theorem streamLoop_to_short_end {s : State} {c : Cursor} (hs : s.seq = .stream) (ht : streamTurn s = s.withCursor c)
    (hq : c.q < s.latch.len.toNat) (hp : c.pc = s.latch.srclen.toNat) (f : Nat) :
    streamLoop (f + 2) s = streamFault .truncatedData (s.withCursor c) := by
  have hlast := streamTurn_short (s := s.withCursor c) hq hp
  rw [streamLoop_stream hs, ht, streamLoop_of_last_turn (s := s.withCursor c) hs hlast rfl]

/-- R122, R123, R130: PBDEC at the boundary before a cut group. The cut group takes the source to its end, where the
next turn raises TruncatedData. -/
theorem streamLoop_cutGroup {tail extra : List Byte} {count : Nat} (hcut : CutGroup tail extra count) {s : State}
    (hseq : s.seq = .stream) (hcount : s.q + count ≤ s.latch.len.toNat)
    (hshort : s.q + extra.length < s.latch.len.toNat) (hp : s.pc + tail.length = s.latch.srclen.toNat)
    (ha : Apart s.latch.src.toNat s.latch.srclen.toNat s.latch.dst.toNat s.latch.len.toNat)
    (hb : Holds s.mem (s.latch.src.toNat + s.pc) tail) (hd : InMem s.mem (s.latch.dst.toNat + s.q) extra.length)
    (f : Nat) :
    ∃ m', streamLoop (f + 2) s = streamFault .truncatedData
        (s.withCursor { pc := s.latch.srclen.toNat, q := s.q + extra.length, mem := m' }) ∧
      Holds m' (s.latch.dst.toNat + s.q) extra ∧
      Memory.Within (s.latch.dst.toNat + s.q) (s.latch.dst.toNat + s.q + extra.length) s.mem m' := by
  cases hcut with
  | between =>
    have hend : s.pc = s.latch.srclen.toNat := hp
    have hq : s.q < s.latch.len.toNat := by simpa using hshort
    refine ⟨s.mem, ?_, nofun, .refl _ _ _⟩
    rw [streamLoop_of_last_turn hseq (streamTurn_short hq hend) rfl, ← hend]
    rfl
  | literal _ _ hmax hless =>
    obtain ⟨hcontrol, hbytes⟩ := holds_cons_iff.mp hb
    obtain ⟨hdecode, hc⟩ := decodeControl_literal (m := count) (by omega) hmax
    rw [List.length_cons] at hp
    have hapart : Apart (s.latch.src.toNat + s.pc + 1) extra.length (s.latch.dst.toNat + s.q) extra.length := by
      simp only [Apart] at ha ⊢
      omega
    obtain ⟨m', he, hcopy, hw⟩ := litGroup_ok (n := BitVec.ofNat 7 (count - 1)) (s := s) (t := extra.length) (by omega)
      (by omega) (by omega) hapart (inMem_of_holds hbytes) hd
    refine ⟨m', streamLoop_to_short_end hseq ?_ hshort rfl f, fun j b hj => ?_, hw⟩
    · rw [streamTurn_group (c := literalControl count) (by omega) (by omega) hcontrol, runGroup_lit hdecode, he,
        ← hp, Nat.add_assoc, Nat.add_comm 1]
    · rw [hcopy j (List.getElem?_eq_some_iff.mp hj).1]
      exact hbytes j b hj
  | repeated _ hmin hmax =>
    obtain ⟨hdecode, hc⟩ := decodeControl_repeat hmin hmax
    have hq : s.q < s.latch.len.toNat := by simpa using hshort
    have hmissing : s.pc + 1 = s.latch.srclen.toNat := hp
    obtain ⟨hcontrol, _⟩ := holds_cons_iff.mp hb
    refine ⟨s.mem, streamLoop_to_short_end hseq ?_ hshort rfl f, nofun, .refl _ _ _⟩
    rw [streamTurn_group (c := repeatControl count) hq (by omega) hcontrol, runGroup_rep hdecode,
      repGroup_missing (by omega) hmissing, ← hmissing]
    rfl

/-- While the row stays short, every group is fetched (R121). -/
theorem fetchesAll_of_lt {gs : List Group} {L : Nat} (h : (outputAll gs).length < L) : FetchesAll gs L :=
  fun i _ => (length_outputAll_take gs i).trans_lt h

/-- Settles O28: after the whole groups the loop stands before the cut group, and two turns more end it. -/
theorem pbdecRaisesTruncatedData : Obligations.PbdecRaisesTruncatedData := by
  intro s gs tail extra count hwf hcut hcount hshort hp ha hb hd
  rw [List.length_append] at hshort hp hd
  obtain ⟨hbgs, hbtail⟩ := holds_append_iff.mp hb
  obtain ⟨hdgs, hdextra⟩ := inMem_split hd
  obtain ⟨m, f, hexec, hout, hw⟩ :=
    execPbdec_after_groups hwf (fetchesAll_of_lt (by omega)) (by omega) (by omega) ha hbgs hdgs
  have htail : Holds m (s.latch.src.toNat + (assembleAll gs).length) tail :=
    holds_congr hbtail fun k hlo hhi => hw.read (by simp only [Apart] at ha; omega)
  obtain ⟨m', he, hextra, hw'⟩ := streamLoop_cutGroup hcut
    (s := s.atBoundary ⟨(assembleAll gs).length, (outputAll gs).length, m⟩) rfl hcount hshort hp ha htail
    (inMem_congr hdextra hw.size) f
  simp only [State.atBoundary_latch, State.atBoundary_q, State.atBoundary_mem] at he hextra hw'
  have hgs : Holds m' s.latch.dst.toNat (outputAll gs) :=
    holds_congr (holds_of_byteAt (inMem_congr hdgs hw.size) hout) fun k _ hhi => hw'.read (by omega)
  refine ⟨m', ?_, holds_append_iff.mpr ⟨hgs, hextra⟩, ?_⟩
  · rw [exec_pbdec_spare_turn hexec, he, List.length_append, streamFault_eq _ (Nat.le_refl _) (Nat.le_of_lt hshort),
      State.withCursor_pc, BitVec.ofNat_toNat, BitVec.setWidth_eq]
    rfl
  · rw [List.length_append]
    exact ((hw.mono (Nat.le_refl _) (by omega)).trans (hw'.mono (Nat.le_add_right _ _) (by omega))).sameOutside

/-! ### However it ends -/

/-- Settles O30: the counters at the loop's end are in range, so the result registers hold them; short of LEN it ends
only in a fault. -/
theorem pbdecReportsWhatItReached : Obligations.PbdecReportsWhatItReached := by
  intro s t h
  refine ⟨fun hbad => ?_, fun hok => ?_⟩
  · cases (exec_pbdec_of_not_apart hbad).symm.trans h
    rfl
  · cases (exec_pbdec_of_apart (not_not.mp hok)).symm.trans h
    obtain ⟨pc, q, m, _, hpc, _, hq, _, hend⟩ :=
      streamLoop_ends (f := s.latch.srclen.toNat + 1) (s := beginStream s) rfl (Nat.zero_le _) (Nat.zero_le _) (by simp)
    rw [beginStream_latch] at hpc hq hend
    have hproduced : (countWord q).toNat = q := countWord_of_lt (by omega)
    have hconsumed : (countWord pc).toNat = pc := countWord_of_lt (by omega)
    rcases hend with ⟨hfull, he⟩ | he | ⟨k, _, he⟩
    · rw [he]
      exact ⟨hproduced, hconsumed, hq, hpc, fun _ => BitVec.eq_of_toNat_eq (hproduced.trans hfull)⟩
    · rw [he]
      exact ⟨hproduced, hconsumed, hq, hpc, nofun⟩
    · rw [he]
      exact ⟨hproduced, hconsumed, hq, hpc, nofun⟩

end Sys2Proof.Machine
end

section
/-! The bytes PBENC writes (41_packbits_encode.md R151, R152): each pass of its loop writes the group at the head of what
is left of the row, so a PBENC without a fault leaves the claims' `encodedRow` at DST. -/
namespace Sys2Proof.Machine

open Sys2Proof.Claim

/-! ### The group at the head of a row -/

/-- R152: the group a pass of PBENC's loop emits for the rest `X` of the row. -/
def headGroup : List Byte → Group
  | [] => .nop
  | v :: rest =>
    if 3 ≤ runOf (v :: rest) then .rep (runOf (v :: rest)) v
    else .lit ((v :: rest).take (literalOf 128 (v :: rest)))

theorem headGroup_repeat {v : Byte} {rest : List Byte} (h : 3 ≤ runOf (v :: rest)) :
    headGroup (v :: rest) = .rep (runOf (v :: rest)) v := if_pos h

theorem headGroup_literal {v : Byte} {rest : List Byte} (h : runOf (v :: rest) < 3) :
    headGroup (v :: rest) = .lit ((v :: rest).take (literalOf 128 (v :: rest))) := if_neg (Nat.not_le.mpr h)

theorem length_take_literalOf (X : List Byte) : (X.take (literalOf 128 X)).length = literalOf 128 X := by
  rw [List.length_take, Nat.min_eq_left (literalOf_le 128 X).1]

/-- R151: a run consists of the byte at its head. -/
theorem take_runOf (v : Byte) (rest : List Byte) :
    (v :: rest).take (runOf (v :: rest)) = List.replicate (runOf (v :: rest)) v := by
  refine List.eq_replicate_iff.mpr ⟨List.length_take_of_le (runOf_le _), fun b hb => ?_⟩
  obtain ⟨r, hr⟩ : ∃ r, runOf (v :: rest) = r + 1 := Nat.exists_eq_add_one.mpr (by simp only [runOf]; omega)
  have hle : r ≤ (rest.takeWhile (· == v)).length := by simp only [runOf] at hr; omega
  rw [hr, List.take_succ_cons, List.mem_cons] at hb
  rcases hb with rfl | hb
  · rfl
  · have htake : rest.take r = (rest.takeWhile (· == v)).take r := by
      rw [← List.take_append_of_le_length hle, List.takeWhile_append_dropWhile]
    rw [htake] at hb
    exact beq_iff_eq.mp (List.mem_takeWhile_imp (p := (· == v)) (List.mem_of_mem_take hb))

theorem groupsOf_cons (fuel : Nat) (v : Byte) (rest : List Byte) :
    groupsOf (fuel + 1) (v :: rest) = headGroup (v :: rest) ::
      groupsOf fuel ((v :: rest).drop (headGroup (v :: rest)).output.length) := by
  rcases Nat.lt_or_ge (runOf (v :: rest)) 3 with h | h
  · rw [groupsOf_literal h, headGroup_literal h, Group.output, length_take_literalOf]
  · rw [groupsOf_repeat h, headGroup_repeat h, Group.output, List.length_replicate]

/-- The group's output is the head of the row. -/
theorem headGroup_output_append_drop (v : Byte) (rest : List Byte) :
    (headGroup (v :: rest)).output ++ (v :: rest).drop (headGroup (v :: rest)).output.length = v :: rest := by
  rcases Nat.lt_or_ge (runOf (v :: rest)) 3 with h | h
  · rw [headGroup_literal h, Group.output, length_take_literalOf, List.take_append_drop]
  · rw [headGroup_repeat h, Group.output, List.length_replicate, ← take_runOf, List.take_append_drop]

/-- R156: no NOP, no repeat of 2, nothing empty or longer than 128. -/
theorem headGroup_emittable (v : Byte) (rest : List Byte) : Emittable (headGroup (v :: rest)) := by
  rcases Nat.lt_or_ge (runOf (v :: rest)) 3 with h | h
  · rw [headGroup_literal h, Emittable, length_take_literalOf]
    exact ⟨literalOf_pos (by omega) (by simp) h, (literalOf_le 128 _).2⟩
  · rw [headGroup_repeat h]
    exact ⟨h, by simp only [runOf]; omega⟩

theorem wf_of_emittable {g : Group} (h : Emittable g) : g.wf = true := by
  cases g with
  | lit bytes =>
    obtain ⟨hmin, hmax⟩ := h
    simp only [Group.wf, Bool.and_eq_true, decide_eq_true_eq]
    exact ⟨hmin, hmax⟩
  | rep count v =>
    obtain ⟨hmin, hmax⟩ := h
    simp only [Group.wf, Bool.and_eq_true, decide_eq_true_eq]
    exact ⟨by omega, hmax⟩
  | nop => cases h

theorem output_pos_of_emittable {g : Group} (h : Emittable g) : 0 < g.output.length := by
  cases g with
  | lit bytes => exact h.1
  | rep count v =>
    obtain ⟨hmin, _⟩ := h
    rw [Group.output, List.length_replicate]
    omega
  | nop => cases h

/-- R156: what PBENC may emit for a row. -/
theorem emittable_of_mem_groupsOf {fuel : Nat} {X : List Byte} {g : Group} (h : g ∈ groupsOf fuel X) : Emittable g := by
  induction fuel generalizing X with
  | zero => cases h
  | succ fuel ih =>
    cases X with
    | nil => cases h
    | cons v rest =>
      rw [groupsOf_cons, List.mem_cons] at h
      rcases h with rfl | h
      · exact headGroup_emittable v rest
      · exact ih h

/-- R155: the groups of a row produce the row. -/
theorem outputAll_groupsOf {fuel : Nat} {X : List Byte} (h : X.length ≤ fuel) : outputAll (groupsOf fuel X) = X := by
  induction fuel generalizing X with
  | zero => rw [List.length_eq_zero_iff.mp (Nat.le_zero.mp h)]; rfl
  | succ fuel ih =>
    cases X with
    | nil => rfl
    | cons v rest =>
      have hpos := output_pos_of_emittable (headGroup_emittable v rest)
      rw [groupsOf_cons, outputAll, ih (by rw [List.length_drop]; omega), headGroup_output_append_drop]

/-- R121: groups that each produce something are all fetched for the row they make up. -/
theorem fetchesAll_of_output_pos {gs : List Group} (h : ∀ g ∈ gs, 0 < g.output.length) :
    FetchesAll gs (outputAll gs).length := by
  induction gs with
  | nil => exact nofun
  | cons g gs ih =>
    intro i hi
    have hpos := h g List.mem_cons_self
    cases i with
    | zero => simp only [List.take_zero, outputAll, List.length_nil, List.length_append]; omega
    | succ i =>
      have := ih (fun g' hg' => h g' (List.mem_cons_of_mem g hg')) i (by simpa using hi)
      simp only [List.take_succ_cons, outputAll, List.length_append]
      omega

/-! ### One pass -/

theorem store_eq_ok {a : Nat} {v : Option Byte} {m m' : Memory} (h : store a v m = .ok m') :
    ∃ b, v = some b ∧ a < m.size ∧ m' = m.set a b := by
  rcases store_cases a v m with ⟨b, hv, ha, he⟩ | ⟨_, he⟩
  · exact ⟨b, hv, ha, Run.ok.inj (h.symm.trans he)⟩
  · cases he.symm.trans h

/-- A loop of stores that copies the bytes `Y` from `i` to `a`, the one apart from the other. -/
theorem loop_store_copies {src a i : Nat} {m m' : Memory} {Y : List Byte} (hY : Holds m (src + i) Y)
    (ha : src + i + Y.length ≤ a ∨ a + Y.length ≤ src + i) (hpos : 0 < Y.length)
    (h : loop Y.length (fun t m => store (a + t) (srcByte src m (i + t)) m) m = .ok m') :
    Holds m' a Y ∧ Memory.Within a (a + Y.length) m m' := by
  have hfit := loop_store_lt h hpos
  obtain ⟨m₁, he, hw⟩ := loop_writes (n := Y.length) (m := m) (P := fun t x b => x = a + t ∧ Y[t]? = some b)
    (body := fun t m => store (a + t) (srcByte src m (i + t)) m) (fun x => src + i ≤ x ∧ x < src + i + Y.length)
    (fun t x b ht hx => by omega) (fun t t' x b b' _ _ hx hx' => by omega) fun t m₁ ht hsize hkeep => by
      have hbyte := List.getElem?_eq_getElem ht
      have hread : srcByte src m₁ (i + t) = some Y[t] := by
        rw [srcByte, ← Nat.add_assoc, Memory.read_congr hsize (hkeep _ ⟨by omega, by omega⟩)]
        exact hY t _ hbyte
      obtain ⟨m₂, hstore, hw⟩ := store_writes hread (show a + t < m₁.size by omega)
      exact ⟨m₂, hstore, hw.congr fun x b => and_congr_right fun _ => by rw [hbyte, Option.some.injEq, eq_comm]⟩
  cases he.symm.trans h
  refine ⟨fun j b hj => hw.read ⟨j, (List.getElem?_eq_some_iff.mp hj).1, rfl, hj⟩ ?_, hw.within ?_⟩
  · have := (List.getElem?_eq_some_iff.mp hj).1
    omega
  · rintro x b ⟨t, ht, rfl, _⟩
    omega

theorem holds_take {m : Memory} {a : Nat} {X : List Byte} (h : Holds m a X) (k : Nat) : Holds m a (X.take k) :=
  (holds_append_iff.mp ((List.take_append_drop k X).symm ▸ h)).1

/-- The control byte written in front of the bytes `Y`. -/
theorem holds_control_cons {a hi : Nat} {c : Byte} {m m' : Memory} {Y : List Byte} (ha : a < m.size)
    (hw : Memory.Within (a + 1) hi (m.set a c) m') (hY : Holds m' (a + 1) Y) : Holds m' a (c :: Y) :=
  holds_cons_iff.mpr ⟨(hw.read (by omega)).trans (Memory.read_set_self ha c), hY⟩

/-- What is left of the row stands while PBENC writes apart from it. -/
theorem holds_set {a b : Nat} {c : Byte} {m : Memory} {X : List Byte} (h : Holds m b X)
    (ha : a < b ∨ b + X.length ≤ a) : Holds (m.set a c) b X :=
  holds_congr h fun k hlo hhi => Memory.read_set_ne c (by omega)

/-- R152: the repeat branch writes its control byte and its value. -/
theorem encodeRepeat_writes {src dst r : Nat} {e e' : Enc} {v : Byte} (hv : e.mem.read (src + e.i) = some v)
    (ha : src + e.i < dst + e.o ∨ dst + e.o + 2 ≤ src + e.i) (h : encodeRepeat src dst r e = .ok e') :
    Holds e'.mem (dst + e.o) [repeatControl r, v] := by
  obtain ⟨m, hm, rfl⟩ := Enc.after_eq_ok h
  obtain ⟨m₁, hput, hstore⟩ := Run.andThen_eq_ok hm
  obtain ⟨_, hc, hin, rfl⟩ := store_eq_ok (v := some (repeatControl r)) hput
  cases hc
  obtain ⟨b, hb, hin', rfl⟩ := store_eq_ok hstore
  rw [srcByte, Memory.read_set_ne _ (by omega), hv] at hb
  cases hb
  refine holds_control_cons hin (Memory.within_set _ _ hin' (Nat.le_refl _) (Nat.lt_succ_self _)) ?_
  exact holds_cons_iff.mpr ⟨Memory.read_set_self hin' v, nofun⟩

/-- R152: the literal branch writes its control byte and the bytes `Y` up to its end. -/
theorem encodeLiteral_writes {src dst j : Nat} {e e' : Enc} {Y : List Byte} (hY : Holds e.mem (src + e.i) Y)
    (hj : j = e.i + Y.length) (hpos : 0 < Y.length)
    (ha : src + e.i + Y.length ≤ dst + e.o ∨ dst + e.o + 1 + Y.length ≤ src + e.i)
    (h : encodeLiteral src dst j e = .ok e') : Holds e'.mem (dst + e.o) (literalControl Y.length :: Y) := by
  obtain ⟨m, hm, rfl⟩ := Enc.after_eq_ok h
  obtain ⟨m₁, hput, hloop⟩ := Run.andThen_eq_ok hm
  obtain ⟨_, hc, hin, rfl⟩ := store_eq_ok (v := some (literalControl (j - e.i))) hput
  cases hc
  rw [hj, Nat.add_sub_cancel_left] at hloop
  obtain ⟨hcopied, hw⟩ := loop_store_copies (holds_set hY (by omega)) (by omega) hpos hloop
  exact holds_control_cons hin hw hcopied

/-- R152: a pass inside M writes the group at the head of the row's rest `X` and moves past it. -/
theorem encodeGroup_writes {src n dst : Nat} {e e' : Enc} {v : Byte} {rest : List Byte}
    (hold : Holds e.mem (src + e.i) (v :: rest)) (hX : (v :: rest).length = n - e.i) (hi : e.i < n)
    (ha : src + n ≤ dst + e.o ∨ dst + e.o + (headGroup (v :: rest)).assemble.length ≤ src + e.i)
    (h : encodeGroup src n dst e = .ok e') :
    e'.i = e.i + (headGroup (v :: rest)).output.length ∧ e'.o = e.o + (headGroup (v :: rest)).assemble.length ∧
      Holds e'.mem (dst + e.o) (headGroup (v :: rest)).assemble ∧
      Memory.Within (dst + e.o) (dst + e'.o) e.mem e'.mem := by
  rcases Nat.lt_or_ge (runOf (v :: rest)) 3 with hrun | hrun
  · have hpos := literalOf_pos (room := 128) (by omega) (by simp) hrun
    have hle := (literalOf_le 128 (v :: rest)).1
    have hlen := length_take_literalOf (v :: rest)
    rw [encodeGroup_literal hold hX hi hrun] at h
    obtain ⟨hei, heo, _⟩ := encodeLiteral_ok (by omega) h
    have hw := encodeLiteral_within (src := src) (dst := dst) (j := e.i + literalOf 128 (v :: rest)) (e := e)
    rw [h, ← heo] at hw
    rw [headGroup_literal hrun] at ha ⊢
    have hY : Holds e.mem (src + e.i) ((v :: rest).take (literalOf 128 (v :: rest))) := holds_take hold _
    simp only [Group.assemble, List.length_cons (a := literalControl _)] at ha
    refine ⟨by rw [hei, Group.output, hlen], ?_, encodeLiteral_writes hY ?_ ?_ ?_ h, hw⟩
    · simp only [Group.assemble, List.length_cons (a := literalControl _)]
      omega
    · rw [hlen]
    · omega
    · omega
  · obtain ⟨hv, _⟩ := holds_cons_iff.mp hold
    rw [encodeGroup_repeat hold hX hi hrun] at h
    obtain ⟨hei, heo, _⟩ := encodeRepeat_ok h
    have hw := encodeRepeat_within src dst (runOf (v :: rest)) e
    rw [h, ← heo] at hw
    rw [headGroup_repeat hrun] at ha ⊢
    refine ⟨by rw [hei, Group.output, List.length_replicate], heo, encodeRepeat_writes hv ?_ h, hw⟩
    exact ha.imp (by omega) id

/-! ### The loop -/

/-- R152: PBENC's loop inside M writes the groups of the row's rest `X`, one after another. -/
theorem encodeLoop_writes {src n dst fuel : Nat} {e e' : Enc} {X : List Byte}
    (h : encodeLoop src n dst fuel e = .ok e') (hX : X.length = n - e.i) (hi : e.i ≤ n)
    (hold : Holds e.mem (src + e.i) X)
    (ha : Apart src n dst (e.o + (assembleAll (groupsOf fuel X)).length)) :
    e'.o = e.o + (assembleAll (groupsOf fuel X)).length ∧
      Holds e'.mem (dst + e.o) (assembleAll (groupsOf fuel X)) ∧
      Memory.Within (dst + e.o) (dst + e'.o) e.mem e'.mem := by
  induction fuel generalizing e X with
  | zero => cases h; exact ⟨rfl, nofun, .refl _ _ _⟩
  | succ fuel ih =>
    cases X with
    | nil =>
      have hend : e.i = n := by simp only [List.length_nil] at hX; omega
      cases (encodeLoop_of_done hend _).symm.trans h
      exact ⟨rfl, nofun, .refl _ _ _⟩
    | cons v rest =>
      have hlt : e.i < n := by simp only [List.length_cons] at hX; omega
      have hpos := Group.assemble_pos (headGroup (v :: rest))
      rw [encodeLoop, if_pos hlt] at h
      obtain ⟨e₁, hgroup, hrest⟩ := Run.andThen_eq_ok h
      rw [groupsOf_cons, assembleAll, List.length_append] at ha ⊢
      obtain ⟨hei, heo, hhead, hw⟩ :=
        encodeGroup_writes hold hX hlt (by simp only [Apart] at ha; omega) hgroup
      obtain ⟨_, hle, _⟩ := encodeGroup_ok hlt hgroup
      have hold₁ : Holds e₁.mem (src + e₁.i) ((v :: rest).drop (headGroup (v :: rest)).output.length) := by
        rw [hei, ← Nat.add_assoc]
        refine holds_congr (holds_drop hold _) fun a hlo hhi => hw.read ?_
        rw [List.length_drop] at hhi
        simp only [Apart] at ha
        omega
      obtain ⟨heo', htail, hw'⟩ := ih hrest (by rw [List.length_drop]; omega) hle hold₁
        (by rwa [heo, Nat.add_assoc])
      refine ⟨by omega, holds_append_iff.mpr ⟨?_, ?_⟩, (hw.mono (Nat.le_refl _) (by omega)).trans
        (hw'.mono (by omega) (Nat.le_refl _))⟩
      · exact holds_congr hhead fun a _ hhi => hw'.read (by omega)
      · rwa [Nat.add_assoc, ← heo]

/-! ### The command -/

theorem apart_mono {a m b n n' : Nat} (h : Apart a m b n) (hn : n' ≤ n) : Apart a m b n' := by
  simp only [Apart] at h ⊢
  omega

/-- A PBENC without a fault has passed its operand check, and its accesses all lie inside M. -/
theorem pbencRun_of_no_fault {s t : State} (h : exec .pbenc s = .next t) (herr : t.status.err = false) :
    Apart s.latch.src.toNat s.latch.srclen.toNat s.latch.dst.toNat
        (s.latch.srclen.toNat + s.latch.srclen.toNat / 128 + 1) ∧
      ∃ e, pbencRun s = .ok e ∧
        t = complete { s with mem := e.mem, produced := countWord e.o, consumed := countWord e.i } := by
  cases hok : paramsOk .pbenc s.latch with
  | false =>
    simp only [exec, execPbenc, hok] at h
    cases h
    cases herr
  | true =>
    have ha := (overlap_eq_false_iff_apart .pbenc s.latch).mp (overlap_of_paramsOk hok)
    cases (exec_pbenc ha).symm.trans h
    refine ⟨ha, ?_⟩
    cases hrun : pbencRun s with
    | ok e => exact ⟨e, rfl, rfl⟩
    | bus e => rw [hrun] at herr; cases herr

/-- R152: PBENC whose accesses lie inside M writes the encoded row. -/
theorem pbencRun_writes {s : State} {e : Enc} {X : List Byte} (h : pbencRun s = .ok e)
    (hX : X.length = s.latch.srclen.toNat) (hold : Holds s.mem s.latch.src.toNat X)
    (ha : Apart s.latch.src.toNat s.latch.srclen.toNat s.latch.dst.toNat
      (s.latch.srclen.toNat + s.latch.srclen.toNat / 128 + 1)) :
    e.o = (encodedRow X).length ∧ Holds e.mem s.latch.dst.toNat (encodedRow X) ∧
      Memory.Within s.latch.dst.toNat (s.latch.dst.toNat + (encodedRow X).length) s.mem e.mem := by
  rw [← hX] at ha
  rw [pbencRun, ← hX] at h
  obtain ⟨hbound, _⟩ := length_assembleAll_groupsOf_le X.length X
  obtain ⟨ho, hout, hw⟩ := encodeLoop_writes h rfl (Nat.zero_le _) hold
    (apart_mono ha (by rw [Nat.zero_add]; exact hbound))
  rw [Nat.zero_add] at ho
  rw [ho] at hw
  exact ⟨ho, hout, hw⟩

/-- R152: a PBENC without a fault leaves the encoded row at DST and its length in PRODUCED. The length fits the
register: the row and its encoding lie apart inside M, which has 2^32 bytes at most. -/
theorem pbenc_encodes {s t : State} {X : List Byte} (hm : s.mem.size ≤ 4294967296) (h : exec .pbenc s = .next t)
    (herr : t.status.err = false) (hX : X.length = s.latch.srclen.toNat) (hold : Holds s.mem s.latch.src.toNat X) :
    Holds t.mem s.latch.dst.toNat (encodedRow X) ∧ t.produced = BitVec.ofNat 32 (encodedRow X).length ∧
      (encodedRow X).length < 4294967296 := by
  obtain ⟨ha, e, hrun, rfl⟩ := pbencRun_of_no_fault h herr
  obtain ⟨ho, hout, hw⟩ := pbencRun_writes hrun hX hold ha
  have hlt : (encodedRow X).length < 4294967296 := by
    obtain ⟨hbound, _⟩ := length_assembleAll_groupsOf_le X.length X
    have hrow := inMem_of_holds hold
    have hfit := inMem_congr (inMem_of_holds hout) hw.size.symm
    simp only [Apart, InMem, encodedRow] at *
    omega
  exact ⟨hout, by rw [complete_produced, ho, countWord_eq hlt], hlt⟩

/-- R155: the encoded row as the groups it consists of. -/
theorem encodedRow_groups (X : List Byte) :
    ∃ gs : List Group, assembleAll gs = encodedRow X ∧ outputAll gs = X ∧ ∀ g ∈ gs, Emittable g :=
  ⟨groupsOf X.length X, rfl, outputAll_groupsOf (Nat.le_refl _), fun _ => emittable_of_mem_groupsOf⟩

/-- The `n` bytes of M from `a` on. -/
def Memory.bytes (m : Memory) (a n : Nat) : List Byte := (List.range n).map fun j => m.byteAt (a + j)

@[simp] theorem Memory.length_bytes (m : Memory) (a n : Nat) : (m.bytes a n).length = n := by simp [Memory.bytes]

theorem Memory.holds_bytes {m : Memory} {a n : Nat} (h : InMem m a n) : Holds m a (m.bytes a n) :=
  holds_of_byteAt (by rwa [Memory.length_bytes]) fun j b hj => by
    obtain ⟨hlt, hb⟩ := List.getElem?_eq_some_iff.mp hj
    simpa [Memory.bytes] using hb

/-- Settles O35: PBENC's output is a sequence of whole groups that produce the row, each of them something, so PBDEC
decodes it as O27 says. -/
theorem pbdecUndoesPbenc : Obligations.PbdecUndoesPbenc := by
  intro s t u hm h herr hmem hsrc hsrclen hlen ha hd
  obtain ⟨_, e, hrun, _⟩ := pbencRun_of_no_fault h herr
  have hrow := Memory.holds_bytes (pbencRun_ok hrun).1
  have hX := Memory.length_bytes s.mem s.latch.src.toNat s.latch.srclen.toNat
  obtain ⟨henc, hproduced, hlt⟩ := pbenc_encodes hm h herr hX hrow
  obtain ⟨gs, hassemble, houtput, hgs⟩ := encodedRow_groups (s.mem.bytes s.latch.src.toNat s.latch.srclen.toNat)
  rw [← hassemble] at henc hproduced hlt
  have hfetch := fetchesAll_of_output_pos fun g hg => output_pos_of_emittable (hgs g hg)
  rw [← houtput] at hX hrow
  have hN : t.produced.toNat = (assembleAll gs).length := by
    rw [hproduced, BitVec.toNat_ofNat]
    exact Nat.mod_eq_of_lt hlt
  obtain ⟨m', he, hout, hsame⟩ := pbdecDecodesTheGroupsOfARow u gs (fun g hg => wf_of_emittable (hgs g hg))
    (by rwa [hlen, ← hX]) (by rw [hX, hlen]) (by rw [hsrclen, hN]) ha (by rwa [hmem, hsrc]) hd
  refine ⟨m', ?_, fun j hj => ?_, hsame⟩
  · rw [he, hlen, hN, ← hproduced]
  · have hbyte := List.getElem?_eq_getElem (hX.symm ▸ hj)
    rw [hout j _ hbyte, hrow j _ hbyte]

end Sys2Proof.Machine
end

section
/-! PBENC completes when its row and its output lie inside M (41_packbits_encode.md R150 to R156): no access of a pass
meets a BusError, so what it writes is the encoded row, in whole groups and within the size bound. -/
namespace Sys2Proof.Machine

open Sys2Proof.Claim

/-! ### Passes whose accesses lie inside M -/

/-- A byte copied inside M. -/
theorem store_srcByte_ok {src j a : Nat} {m : Memory} (hj : src + j < m.size) (ha : a < m.size) :
    ∃ m', store a (srcByte src m j) m = .ok m' ∧ m'.size = m.size := by
  obtain ⟨m', hstore, _⟩ := store_writes (v := srcByte src m j) (Memory.read_of_lt hj) ha
  exact ⟨m', hstore, store_size hstore⟩

theorem encodeRepeat_completes {src dst r : Nat} {e : Enc} (hsrc : src + e.i < e.mem.size)
    (hdst : dst + e.o + 2 ≤ e.mem.size) : ∃ e', encodeRepeat src dst r e = .ok e' := by
  obtain ⟨m, hstore, _⟩ := store_srcByte_ok (m := e.mem.set (dst + e.o) (repeatControl r)) (a := dst + e.o + 1) hsrc
    (Nat.lt_of_succ_le hdst)
  exact ⟨⟨e.i + r, e.o + 2, m⟩, by rw [encodeRepeat, put_of_lt _ (by omega), Run.ok_andThen, hstore, Enc.after]⟩

theorem encodeLiteral_completes {src dst j : Nat} {e : Enc} (hj : e.i ≤ j) (hsrc : src + j ≤ e.mem.size)
    (hdst : dst + e.o + 1 + (j - e.i) ≤ e.mem.size) (hin : dst + e.o < e.mem.size) :
    ∃ e', encodeLiteral src dst j e = .ok e' := by
  obtain ⟨m, hloop, _⟩ := loop_ok (fun _ m => m.size = e.mem.size) (n := j - e.i)
    (s := e.mem.set (dst + e.o) (literalControl (j - e.i))) rfl fun t m ht hsize => by
      obtain ⟨m', hstore, hsize'⟩ := store_srcByte_ok (src := src) (j := e.i + t) (a := dst + e.o + 1 + t) (m := m)
        (by omega) (by omega)
      exact ⟨m', hstore, hsize'.trans hsize⟩
  exact ⟨⟨j, e.o + 1 + (j - e.i), m⟩, by rw [encodeLiteral, put_of_lt _ hin, Run.ok_andThen, hloop, Enc.after]⟩

/-- R152: a pass completes when the row's rest stands in M and the group at its head fits there. -/
theorem encodeGroup_completes {src n dst : Nat} {e : Enc} {v : Byte} {rest : List Byte}
    (hold : Holds e.mem (src + e.i) (v :: rest)) (hX : (v :: rest).length = n - e.i) (hi : e.i < n)
    (hfit : dst + e.o + (headGroup (v :: rest)).assemble.length ≤ e.mem.size) :
    ∃ e', encodeGroup src n dst e = .ok e' := by
  have hrow := inMem_of_holds hold
  simp only [InMem] at hrow
  rcases Nat.lt_or_ge (runOf (v :: rest)) 3 with hrun | hrun
  · obtain ⟨hle, _⟩ := literalOf_le 128 (v :: rest)
    simp only [headGroup_literal hrun, Group.assemble, List.length_cons (a := literalControl _),
      length_take_literalOf] at hfit
    rw [encodeGroup_literal hold hX hi hrun]
    exact encodeLiteral_completes (by omega) (by omega) (by omega) (by omega)
  · rw [headGroup_repeat hrun] at hfit
    rw [encodeGroup_repeat hold hX hi hrun]
    exact encodeRepeat_completes (by omega) hfit

/-- R152: a pass inside M that writes apart from the row leaves what is left of it standing. -/
theorem encodeGroup_leaves_rest {src n dst : Nat} {e e' : Enc} {v : Byte} {rest : List Byte}
    (hold : Holds e.mem (src + e.i) (v :: rest)) (hX : (v :: rest).length = n - e.i) (hi : e.i < n)
    (ha : src + n ≤ dst + e.o ∨ dst + e.o + (headGroup (v :: rest)).assemble.length ≤ src + e.i)
    (h : encodeGroup src n dst e = .ok e') :
    Holds e'.mem (src + e'.i) ((v :: rest).drop (headGroup (v :: rest)).output.length) := by
  obtain ⟨hei, heo, _, hw⟩ := encodeGroup_writes hold hX hi ha h
  rw [hei, ← Nat.add_assoc]
  refine holds_congr (holds_drop hold _) fun a hlo hhi => hw.read ?_
  rw [List.length_drop] at hhi
  omega

/-! ### The loop -/

/-- R152: PBENC's loop completes at the row's end when the row's rest `X` stands in M and the groups of `X` fit there,
apart from the row. -/
theorem encodeLoop_completes {src n dst fuel : Nat} {e : Enc} {X : List Byte} (hX : X.length = n - e.i) (hi : e.i ≤ n)
    (hf : X.length ≤ fuel) (hold : Holds e.mem (src + e.i) X)
    (ha : Apart src n dst (e.o + (assembleAll (groupsOf fuel X)).length))
    (hfit : InMem e.mem (dst + e.o) (assembleAll (groupsOf fuel X)).length) :
    ∃ e', encodeLoop src n dst fuel e = .ok e' ∧ e'.i = n := by
  induction fuel generalizing e X with
  | zero => exact ⟨e, rfl, by omega⟩
  | succ fuel ih =>
    cases X with
    | nil =>
      have hend : e.i = n := by simp only [List.length_nil] at hX; omega
      exact ⟨e, encodeLoop_of_done hend _, hend⟩
    | cons v rest =>
      have hlt : e.i < n := by simp only [List.length_cons] at hX; omega
      have hpos := Group.assemble_pos (headGroup (v :: rest))
      rw [groupsOf_cons, assembleAll, List.length_append] at ha hfit
      obtain ⟨hhead, htail⟩ := inMem_split hfit
      have hapart : src + n ≤ dst + e.o ∨ dst + e.o + (headGroup (v :: rest)).assemble.length ≤ src + e.i := by
        simp only [Apart] at ha; omega
      obtain ⟨e₁, hgroup⟩ := encodeGroup_completes (dst := dst) hold hX hlt (by simp only [InMem] at hhead; omega)
      obtain ⟨_, heo, _, _⟩ := encodeGroup_writes hold hX hlt hapart hgroup
      obtain ⟨_, hle, _, _, hsize⟩ := encodeGroup_ok hlt hgroup
      rw [encodeLoop, if_pos hlt, hgroup, Run.ok_andThen]
      exact ih (by rw [List.length_drop]; omega) hle (by rw [List.length_drop]; omega)
        (encodeGroup_leaves_rest hold hX hlt hapart hgroup) (by rwa [heo, Nat.add_assoc])
        (inMem_congr (by rwa [heo, ← Nat.add_assoc]) hsize)

/-! ### The command -/

/-- R153: PBENC on intersecting extents. -/
theorem exec_pbenc_of_not_apart {s : State} (ha : ¬ Apart s.latch.src.toNat s.latch.srclen.toNat s.latch.dst.toNat
    (s.latch.srclen.toNat + s.latch.srclen.toNat / 128 + 1)) : exec .pbenc s = .next (raise .badParam s) := by
  have hbad : ¬ paramsOk .pbenc s.latch = true := by
    simpa [paramsOk] using fun h => ha ((overlap_eq_false_iff_apart .pbenc s.latch).mp h)
  simp only [exec, execPbenc, if_neg hbad]

/-- R154: the size bound. -/
theorem length_encodedRow_le (X : List Byte) : (encodedRow X).length ≤ X.length + X.length / 128 + 1 :=
  (length_assembleAll_groupsOf_le X.length X).1

theorem pbencRun_completes {s : State} {X : List Byte} (hX : X.length = s.latch.srclen.toNat)
    (hold : Holds s.mem s.latch.src.toNat X)
    (ha : Apart s.latch.src.toNat X.length s.latch.dst.toNat (X.length + X.length / 128 + 1))
    (hfit : InMem s.mem s.latch.dst.toNat (encodedRow X).length) :
    ∃ e, pbencRun s = .ok e ∧ e.i = s.latch.srclen.toNat := by
  rw [pbencRun, ← hX]
  exact encodeLoop_completes rfl (Nat.zero_le _) (Nat.le_refl _) hold
    (apart_mono ha (by rw [Nat.zero_add]; exact length_encodedRow_le X)) hfit

/-- An encoded row's length fits PRODUCED: the row and its encoding lie apart inside M, which has 2^32 bytes at most. -/
theorem length_encodedRow_lt {m : Memory} {a b : Nat} {X : List Byte} (hm : m.size ≤ 4294967296)
    (hrow : InMem m a X.length) (hfit : InMem m b (encodedRow X).length)
    (ha : Apart a X.length b (X.length + X.length / 128 + 1)) : (encodedRow X).length < 4294967296 := by
  have hbound := length_encodedRow_le X
  simp only [Apart, InMem] at ha hrow hfit
  omega

/-- Settles O32: with its row and its output inside M the command meets no BusError, so `pbencRun_writes` says what it
has written. -/
theorem pbencWritesTheEncodedRow : Obligations.PbencWritesTheEncodedRow := by
  refine fun s hm => ⟨exec_pbenc_of_not_apart, fun X hX hold ha hfit => ?_⟩
  obtain ⟨e, hrun, hi⟩ := pbencRun_completes hX hold ha hfit
  have hlt := length_encodedRow_lt hm (inMem_of_holds hold) hfit ha
  rw [hX] at ha
  obtain ⟨ho, hout, hw⟩ := pbencRun_writes hrun hX hold ha
  have hconsumed : countWord e.i = s.latch.srclen := by
    rw [hi, countWord_eq s.latch.srclen.isLt, BitVec.ofNat_toNat, BitVec.setWidth_eq]
  refine ⟨e.mem, ?_, hout, hw.sameOutside⟩
  rw [exec_pbenc ha, hrun, ← hconsumed, ← countWord_eq hlt, ← ho]
  rfl

/-- Settles O33: what a PBENC without a fault leaves at DST is the encoded row, which consists of groups that produce
the row and is no longer than the bound. -/
theorem pbencEmitsGroupsOfTheRow : Obligations.PbencEmitsGroupsOfTheRow := by
  intro s t X hm hX hold h herr
  obtain ⟨hout, hproduced, hlt⟩ := pbenc_encodes hm h herr hX hold
  obtain ⟨gs, hassemble, houtput, hgs⟩ := encodedRow_groups X
  have hlength : t.produced.toNat = (encodedRow X).length := by
    rw [hproduced, BitVec.toNat_ofNat, Nat.mod_eq_of_lt hlt]
  refine ⟨gs, hgs, houtput, ?_, ?_, ?_⟩
  · rwa [hassemble]
  · rw [hlength, hassemble]
  · rw [hlength]
    exact length_encodedRow_le X

end Sys2Proof.Machine
end

section
/-! How a command that writes buffer memory ends (60_exceptions.md R243, R244; 10_state.md R28): refused by its operand
check, completed with all its accesses inside M, or in BusError. -/
namespace Sys2Proof.Machine

open Sys2Proof.Claim

section
variable {i : Instr} {s t : State}

/-- R243: a command whose operand check comes to `L` is refused where `L` fails and else does what its rule says. -/
theorem exec_checked {L : Prop} (hexec : exec i s = .next (if paramsOk i s.latch then t else raise .badParam s))
    (hL : paramsOk i s.latch = true ↔ L) : (¬ L → BadParams i s) ∧ (L → exec i s = .next t) :=
  ⟨fun h => hexec.trans (by rw [if_neg fun hp => h (hL.mp hp)]), fun h => hexec.trans (by rw [if_pos (hL.mpr h)])⟩

/-- R28: with every access inside M the command completes, and it writes its destination extent at most. -/
theorem exec_finish_ok {m : Memory} {p c : Nat} (hi : i.isStream = false)
    (hexec : exec i s = .next (finish i s (.ok m) p c)) :
    exec i s = .next (complete { s with mem := m, produced := countWord p, consumed := countWord c }) ∧
      SameOutside s.mem m s.latch.dst.toNat (destinationBytes i s.latch) :=
  ⟨hexec, commandsWriteOnlyTheirDestination i s _ hi hexec⟩

/-- R244: with an access outside M the command ends in BusError. -/
theorem exec_finish_bus {r : Run Memory} {p c : Nat} (hi : i.isStream = false)
    (hexec : exec i s = .next (finish i s r p c)) (hr : ∃ m, r = .bus m) :
    BusErrors i s s.latch.dst.toNat (destinationBytes i s.latch) := by
  obtain ⟨m, rfl⟩ := hr
  exact ⟨_, hexec, commandsWriteOnlyTheirDestination i s _ hi hexec⟩

/-- A command that ends without ERR had legal operands (`L`) and met no access outside M (`I`). -/
theorem legal_and_inside_of_no_fault {L I : Prop} {a n : Nat} (hbad : ¬ L → BadParams i s)
    (hbus : L → ¬ I → BusErrors i s a n) (h : exec i s = .next t) (herr : t.status.err = false) : L ∧ I := by
  have hL : L := by
    by_contra hL
    cases (hbad hL).symm.trans h
    cases herr
  have hI : I := by
    by_contra hI
    obtain ⟨m, hexec, _⟩ := hbus hL hI
    cases hexec.symm.trans h
    cases herr
  exact ⟨hL, hI⟩

end

/-- Two extents inside M that lie apart have fewer than 2^32 bytes each. -/
theorem lengths_lt_of_apart {a m b n size : Nat} (ha : Apart a m b n) (hm : 0 < m) (hn : 0 < n)
    (hsrc : a + m ≤ size) (hdst : b + n ≤ size) (hsize : size ≤ 4294967296) :
    m < 4294967296 ∧ n < 4294967296 := by
  simp only [Apart] at ha
  omega

end Sys2Proof.Machine
end

section
/-! DEINT and INTLV (42_plane_layout.md R170 to R182): one re-blocking between two layouts, and its inverse. -/
namespace Sys2Proof.Machine

open Sys2Proof.Claim

/-! ### Rows and bytes of a PlaneBuffer -/

/-- An offset below `n * r` is a row number below `n` and an offset below the stride `r`. -/
theorem exists_digits {n r j : Nat} (h : j < n * r) : ∃ q k, q < n ∧ k < r ∧ j = q * r + k := by
  have hr : 0 < r := Nat.pos_of_mul_pos_left (Nat.zero_lt_of_lt h)
  refine ⟨j / r, j % r, Nat.div_lt_of_lt_mul (by rwa [Nat.mul_comm]), Nat.mod_lt j hr, ?_⟩
  rw [Nat.mul_comm, Nat.div_add_mod]

section
variable {g : Geometry} (l : Layout)

/-- 20_memory.md R71, R72: a row of a plane has a number below `NP * H`, whatever the bytes of a row. -/
theorem Geometry.exists_rowNumber {y p : Nat} (hy : y < g.h) (hp : p < g.np) :
    ∃ row, row < g.np * g.h ∧ ∀ rb k, g.off l rb y p k = row * rb + k := by
  cases l with
  | interleaved => exact ⟨y * g.np + p, by rw [Nat.mul_comm g.np]; exact digits_lt hy hp, fun _ _ => rfl⟩
  | nonInterleaved => exact ⟨p * g.h + y, digits_lt hp hy, fun _ _ => rfl⟩

/-- R71, R72: every number below `NP * H` is that of a row of a plane. -/
theorem Geometry.exists_of_rowNumber {row : Nat} (h : row < g.np * g.h) :
    ∃ y p, y < g.h ∧ p < g.np ∧ ∀ rb k, g.off l rb y p k = row * rb + k := by
  cases l with
  | interleaved =>
    rw [Nat.mul_comm] at h
    obtain ⟨y, p, hy, hp, rfl⟩ := exists_digits h
    exact ⟨y, p, hy, hp, fun _ _ => rfl⟩
  | nonInterleaved =>
    obtain ⟨p, y, hp, hy, rfl⟩ := exists_digits h
    exact ⟨y, p, hy, hp, fun _ _ => rfl⟩

/-- Every offset in a PlaneBuffer is that of a byte of a row of a plane. -/
theorem Geometry.exists_of_offset {rb j : Nat} (h : j < g.np * rb * g.h) :
    ∃ y p k, y < g.h ∧ p < g.np ∧ k < rb ∧ g.off l rb y p k = j := by
  rw [Nat.mul_right_comm] at h
  obtain ⟨row, k, hrow, hk, rfl⟩ := exists_digits h
  obtain ⟨y, p, hy, hp, hoff⟩ := Geometry.exists_of_rowNumber l hrow
  exact ⟨y, p, k, hy, hp, hk, hoff rb k⟩

/-- 20_memory.md R66: a re-blocking whose source does not lie inside M ends in BusError: its last byte does not. -/
theorem reblock_bus_of_source {m : Memory} (l' : Layout) (hsb : g.sb ≤ g.rb) (hpos : 0 < g.np * g.sb * g.h)
    (hbad : m.size < g.src + g.np * g.sb * g.h) : ∃ m', reblock g l l' m = .bus m' := by
  obtain ⟨y, p, k, hy, hp, hk, hoff⟩ := Geometry.exists_of_offset l (Nat.sub_one_lt_of_lt hpos)
  exact reblock_bus hy hp (hk.trans_le hsb) (.inl ⟨hk, by omega⟩)

/-- R66: a re-blocking whose destination does not lie inside M ends in BusError. -/
theorem reblock_bus_of_destination {m : Memory} (l' : Layout) (hpos : 0 < g.np * g.rb * g.h)
    (hbad : m.size < g.dst + g.np * g.rb * g.h) : ∃ m', reblock g l l' m = .bus m' := by
  obtain ⟨y, p, k, hy, hp, hk, hoff⟩ := Geometry.exists_of_offset l' (Nat.sub_one_lt_of_lt hpos)
  exact reblock_bus hy hp hk (.inr (by omega))

end

/-- 42_plane_layout.md R171: legal planes have bytes. -/
theorem planes_pos {o : Operands} (h : GeometryLegal o) : 0 < planesIn o ∧ 0 < planesOut o := by
  obtain ⟨_, hh, hnp, _, hsb, hrb⟩ := h
  exact ⟨Nat.mul_pos (Nat.mul_pos hnp hsb) hh, Nat.mul_pos (Nat.mul_pos hnp (hsb.trans hrb)) hh⟩

/-! ### The command -/

/-- `i` re-blocks from layout `l` to layout `l'`. -/
inductive Reblocks : Instr → Layout → Layout → Prop
  | deint : Reblocks .deint .interleaved .nonInterleaved
  | intlv : Reblocks .intlv .nonInterleaved .interleaved

/-- R175, R181: every row of every plane at DST holds that row of the source, zero-extended. -/
def Reblocked (o : Operands) (l l' : Layout) (m m' : Memory) : Prop :=
  ∀ y p k, y < o.height.toNat → p < o.nplanes.toNat → k < rowBytesOf o.width.toNat →
    m'.read (o.dst.toNat + (geometry o).off l' (rowBytesOf o.width.toNat) y p k) = rowRead (geometry o) l y p k m

section
variable {i : Instr} {l l' : Layout} {s : State}

theorem Reblocks.isStream (hr : Reblocks i l l') : i.isStream = false := by cases hr <;> rfl

theorem Reblocks.destinationBytes (hr : Reblocks i l l') (o : Operands) : destinationBytes i o = planesOut o := by
  cases hr <;> rfl

theorem Reblocks.paramsOk_iff (hr : Reblocks i l l') (o : Operands) : paramsOk i o = true ↔ ReblockLegal o := by
  cases hr <;>
    simp only [paramsOk, Bool.and_eq_true, Bool.not_eq_true', geometryOk_iff, overlap_eq_false_iff_apart] <;> rfl

theorem Reblocks.exec_eq (hr : Reblocks i l l') (s : State) :
    exec i s = .next (if paramsOk i s.latch then reblockCommand i l l' s else raise .badParam s) := by
  cases hr <;> rfl

theorem Reblocks.badParams (hr : Reblocks i l l') (h : ¬ ReblockLegal s.latch) : BadParams i s :=
  (exec_checked (hr.exec_eq s) (hr.paramsOk_iff s.latch)).1 h

theorem Reblocks.exec_of_legal (hr : Reblocks i l l') (h : ReblockLegal s.latch) :
    exec i s = .next (finish i s (reblock (geometry s.latch) l l' s.mem) (planesOut s.latch) (planesIn s.latch)) :=
  (exec_checked (hr.exec_eq s) (hr.paramsOk_iff s.latch)).2 h

theorem Reblocks.completes (hr : Reblocks i l l') (hm : s.mem.size ≤ 4294967296) (h : ReblockLegal s.latch)
    (hin : s.latch.src.toNat + planesIn s.latch ≤ s.mem.size)
    (hout : s.latch.dst.toNat + planesOut s.latch ≤ s.mem.size) :
    ∃ m', exec i s = .next (complete { s with
        mem := m', produced := BitVec.ofNat 32 (planesOut s.latch), consumed := BitVec.ofNat 32 (planesIn s.latch) }) ∧
      Reblocked s.latch l l' s.mem m' ∧ SameOutside s.mem m' s.latch.dst.toNat (planesOut s.latch) := by
  obtain ⟨hgeo, ha⟩ := h
  obtain ⟨hin0, hout0⟩ := planes_pos hgeo
  obtain ⟨hconsumed, hproduced⟩ := lengths_lt_of_apart ha hin0 hout0 hin hout hm
  obtain ⟨m', hrun, hw⟩ := reblock_writes (g := geometry s.latch) (l := l) (l' := l') hin hout
    (by simp only [Apart] at ha; exact (ha.resolve_left hin0.ne').resolve_left hout0.ne')
  have hexec := hr.exec_of_legal ⟨hgeo, ha⟩
  rw [hrun] at hexec
  obtain ⟨hexec, hsame⟩ := exec_finish_ok hr.isStream hexec
  rw [countWord_eq hproduced, countWord_eq hconsumed] at hexec
  rw [hr.destinationBytes] at hsame
  refine ⟨m', hexec, fun y p k hy hp hk => ?_, hsame⟩
  have hlt := Geometry.off_lt (g := geometry s.latch) (l := l') hy hp hk
  have hrow := rowRead_some (g := geometry s.latch) (l := l) (k := k) hy hp hin
  rw [hrow]
  exact hw.read ⟨y, hy, p, hp, k, hk, rfl, hrow⟩ ((Nat.add_lt_add_left hlt _).trans_le hout)

theorem Reblocks.busErrors (hr : Reblocks i l l') (h : ReblockLegal s.latch)
    (hbus : s.mem.size < s.latch.src.toNat + planesIn s.latch ∨ s.mem.size < s.latch.dst.toNat + planesOut s.latch) :
    BusErrors i s s.latch.dst.toNat (planesOut s.latch) := by
  rw [← hr.destinationBytes]
  refine exec_finish_bus hr.isStream (hr.exec_of_legal h) ?_
  obtain ⟨hgeo, _⟩ := h
  obtain ⟨hin0, hout0⟩ := planes_pos hgeo
  obtain ⟨_, _, _, _, _, hrb⟩ := hgeo
  rcases hbus with hbus | hbus
  · exact reblock_bus_of_source _ _ hrb hin0 hbus
  · exact reblock_bus_of_destination _ _ hout0 hbus

/-- A re-blocking without a fault had legal operands and both extents inside M, and has re-blocked its planes. -/
theorem Reblocks.of_no_fault {t : State} (hr : Reblocks i l l') (hm : s.mem.size ≤ 4294967296)
    (h : exec i s = .next t) (herr : t.status.err = false) :
    ReblockLegal s.latch ∧ s.latch.dst.toNat + planesOut s.latch ≤ s.mem.size ∧ t.mem.size = s.mem.size ∧
      Reblocked s.latch l l' s.mem t.mem := by
  obtain ⟨hlegal, hin, hout⟩ := legal_and_inside_of_no_fault
    (I := s.latch.src.toNat + planesIn s.latch ≤ s.mem.size ∧ s.latch.dst.toNat + planesOut s.latch ≤ s.mem.size)
    hr.badParams (fun hlegal hnot => hr.busErrors hlegal (by omega)) h herr
  obtain ⟨m', hexec, hblocks, hsize, _⟩ := hr.completes hm hlegal hin hout
  cases hexec.symm.trans h
  exact ⟨hlegal, hout, hsize, hblocks⟩

end

/-- Settles O36: DEINT is the re-blocking from interleaved to plane-major. -/
theorem deintReblocksToPlaneMajor : Obligations.DeintReblocksToPlaneMajor :=
  fun _ hm => ⟨Reblocks.deint.badParams, Reblocks.deint.completes hm, Reblocks.deint.busErrors⟩

/-- Settles O37: INTLV is the re-blocking from plane-major to interleaved. -/
theorem intlvReblocksToInterleaved : Obligations.IntlvReblocksToInterleaved :=
  fun _ hm => ⟨Reblocks.intlv.badParams, Reblocks.intlv.completes hm, Reblocks.intlv.busErrors⟩

/-! ### The inverse -/

/-- R182: `o'` are the operands of a re-blocking back, on the padded output of one with the operands `o`. -/
structure ReblocksBack (o o' : Operands) : Prop where
  src : o'.src = o.dst
  width : o'.width = o.width
  height : o'.height = o.height
  nplanes : o'.nplanes = o.nplanes
  srb : o'.srb.toNat = rowBytesOf o.width.toNat

section
variable {o o' : Operands}

/-- R182: the two buffers of a re-blocking back have padded rows. -/
theorem ReblocksBack.planes (hb : ReblocksBack o o') :
    planesIn o' = planesOut o ∧ planesOut o' = planesOut o := by
  simp only [planesIn, planesOut, hb.width, hb.height, hb.nplanes, hb.srb, and_self]

theorem ReblocksBack.off_eq (hb : ReblocksBack o o') (l : Layout) (rb y p k : Nat) :
    (geometry o').off l rb y p k = (geometry o).off l rb y p k := by
  cases l <;> simp only [Geometry.off, geometry, hb.height, hb.nplanes]

theorem ReblocksBack.geometryLegal (hb : ReblocksBack o o') (h : GeometryLegal o) : GeometryLegal o' := by
  obtain ⟨hw, hh, hnp, hnp8, hsb, hrb⟩ := h
  rw [GeometryLegal, hb.width, hb.height, hb.nplanes, hb.srb]
  exact ⟨hw, hh, hnp, hnp8, hsb.trans hrb, Nat.le_refl _⟩

/-- A row read of a re-blocked buffer, whose rows are padded, is the row read of the first source. -/
theorem Reblocked.rowRead_eq {l l' : Layout} {m m' : Memory} (h : Reblocked o l l' m m') (hb : ReblocksBack o o')
    {y p k : Nat} (hy : y < o.height.toNat) (hp : p < o.nplanes.toNat) (hk : k < rowBytesOf o.width.toNat) :
    rowRead (geometry o') l' y p k m' = rowRead (geometry o) l y p k m := by
  have hsrc : (geometry o').src = o.dst.toNat := congrArg BitVec.toNat hb.src
  have hsb : (geometry o').sb = rowBytesOf o.width.toNat := hb.srb
  rw [← h y p k hy hp hk, ← hb.off_eq, rowRead, hsrc, hsb, if_pos hk]

/-- R182: a re-blocking and one back leave every row of the first source, zero-extended, where it was. -/
theorem Reblocked.back {l l' : Layout} {m m' m'' : Memory} (h : Reblocked o l l' m m') (hb : ReblocksBack o o')
    (h' : Reblocked o' l' l m' m'') {row k : Nat} (hrow : row < o.nplanes.toNat * o.height.toNat)
    (hk : k < rowBytesOf o.width.toNat) :
    m''.read (o'.dst.toNat + (row * rowBytesOf o.width.toNat + k)) =
      if k < o.srb.toNat then m.read (o.src.toNat + (row * o.srb.toNat + k)) else some 0#8 := by
  obtain ⟨y, p, hy, hp, hoff⟩ := Geometry.exists_of_rowNumber (g := geometry o) l hrow
  have hback := h' y p k (by rwa [hb.height]) (by rwa [hb.nplanes]) (by rwa [hb.width])
  rw [hb.width, hb.off_eq, hoff, h.rowRead_eq hb hy hp hk, rowRead, hoff] at hback
  exact hback

end

/-- Settles O40: both runs re-block, and the second undoes the first row by row. -/
theorem intlvAndDeintUndoEachOther : Obligations.IntlvAndDeintUndoEachOther := by
  intro i i' s t u hi hm h herr hmem hsrc hwidth hheight hnplanes hsrb ha hout
  obtain ⟨l, l', hr, hr'⟩ : ∃ l l', Reblocks i l l' ∧ Reblocks i' l' l := by
    rcases hi with ⟨rfl, rfl⟩ | ⟨rfl, rfl⟩
    · exact ⟨_, _, .deint, .intlv⟩
    · exact ⟨_, _, .intlv, .deint⟩
  have hb : ReblocksBack s.latch u.latch := ⟨hsrc, hwidth, hheight, hnplanes, hsrb⟩
  obtain ⟨hplanesIn, hplanesOut⟩ := hb.planes
  obtain ⟨⟨hgeo, _⟩, hbetween, hsize, hblocks⟩ := hr.of_no_fault hm h herr
  rw [← hmem] at hsize hblocks
  obtain ⟨m', hexec, hback, _⟩ := hr'.completes (s := u) (by rwa [hsize]) ⟨hb.geometryLegal hgeo, ha⟩
    (by rwa [hsrc, hplanesIn, hsize]) hout
  rw [hplanesIn, hplanesOut] at hexec
  exact ⟨m', hexec, fun row k hrow hk => hblocks.back hb hback hrow hk⟩

end Sys2Proof.Machine
end

section
/-! TRANSP (42_plane_layout.md R187, R188): the transpose of byte columns, and its inverse. -/
namespace Sys2Proof.Machine

open Sys2Proof.Claim

/-! ### Entries -/

theorem not_inMem_iff {m : Memory} {a n : Nat} : ¬ InMem m a n ↔ 0 < n ∧ m.size < a + n := by
  rw [InMem, not_or, Nat.not_le, Nat.pos_iff_ne_zero]

theorem lt_of_inMem {m : Memory} {a n j : Nat} (h : InMem m a n) (hj : j < n) : a + j < m.size := by
  simp only [InMem] at h
  omega

section
variable {t : Columns} {m : Memory}

/-- R187: with both extents inside M and apart, an entry's byte reads back in its output row, and the padding is 0. -/
theorem transpose_reads (hok : t.cols * t.cw ≤ t.db) (hin : InMem m t.src (t.cols * t.rows * t.cw))
    (hout : InMem m t.dst (t.rows * t.db)) (ha : Apart t.src (t.cols * t.rows * t.cw) t.dst (t.rows * t.db)) :
    ∃ m', loop t.rows (transposeRow t) m = .ok m' ∧
      (∀ y i k, y < t.rows → i < t.cols → k < t.cw →
        m'.read (t.dst + (y * t.db + i * t.cw + k)) = m.read (t.src + ((i * t.rows + y) * t.cw + k))) ∧
      (∀ y k, y < t.rows → t.cols * t.cw ≤ k → k < t.db → m'.read (t.dst + (y * t.db + k)) = some 0#8) := by
  obtain ⟨m', hrun, hw⟩ := transpose_writes hok hin hout ha
  refine ⟨m', hrun, fun y i k hy hi hk => ?_, fun y k hy hpad hk => ?_⟩
  · have hrow := digits_lt hy ((Columns.entry_lt hi hk).trans_le hok)
    have hsource := lt_of_inMem hin (Columns.source_lt hy hi hk)
    rw [Memory.read_of_lt hsource, Nat.add_assoc (y * t.db), ← Nat.add_assoc t.src]
    exact hw.read ⟨y, hy, .inl ⟨i, hi, k, hk, by omega, rfl⟩⟩ (lt_of_inMem hout hrow)
  · exact hw.read ⟨y, hy, .inr ⟨k, hpad, hk, (Nat.add_assoc ..).symm, rfl⟩⟩ (lt_of_inMem hout (digits_lt hy hk))

/-- 20_memory.md R66: a transpose whose source does not lie inside M ends in BusError: its last byte does not. -/
theorem transpose_bus_of_source (hok : t.cols * t.cw ≤ t.db) (h : ¬ InMem m t.src (t.cols * t.rows * t.cw)) :
    ∃ m', loop t.rows (transposeRow t) m = .bus m' := by
  obtain ⟨hpos, hbad⟩ := not_inMem_iff.mp h
  obtain ⟨entry, k, hentry, hk, hj⟩ := exists_digits (Nat.sub_one_lt_of_lt hpos)
  obtain ⟨c, y, hc, hy, rfl⟩ := exists_digits hentry
  exact transpose_bus hok hy (.inl ⟨c, hc, hk, by omega⟩)

/-- R66: a transpose whose output rows do not lie inside M ends in BusError. -/
theorem transpose_bus_of_destination (hok : t.cols * t.cw ≤ t.db) (h : ¬ InMem m t.dst (t.rows * t.db)) :
    ∃ m', loop t.rows (transposeRow t) m = .bus m' := by
  obtain ⟨hpos, hbad⟩ := not_inMem_iff.mp h
  obtain ⟨y, k, hy, hk, hj⟩ := exists_digits (Nat.sub_one_lt_of_lt hpos)
  exact transpose_bus hok hy (.inr ⟨hk, by omega⟩)

end

/-- R187: the output rows hold every entry, so they have as many bytes as the source or more. -/
theorem transposeSource_le {o : Operands} (h : TransposeLegal o) :
    o.cols.toNat * o.rows.toNat * o.colw.toNat ≤ o.rows.toNat * o.drb.toNat := by
  rw [Nat.mul_comm o.cols.toNat, Nat.mul_assoc]
  exact Nat.mul_le_mul_left _ h.1

/-- R187: TRANSP's source has fewer than 2^32 bytes: the output rows have as many, and the two lie apart, one of them
before the other's start. -/
theorem transposeSource_lt {o : Operands} (h : TransposeLegal o) :
    o.cols.toNat * o.rows.toNat * o.colw.toNat < 4294967296 := by
  have hle := transposeSource_le h
  obtain ⟨_, ha⟩ := h
  simp only [Apart] at ha
  omega

/-! ### The command -/

theorem paramsOk_transp_iff (o : Operands) : paramsOk .transp o = true ↔ TransposeLegal o := by
  simp only [paramsOk, Bool.and_eq_true, Bool.not_eq_true', decide_eq_true_eq, overlap_eq_false_iff_apart]
  rfl

theorem exec_transp_of_legal {s : State} (h : TransposeLegal s.latch) : exec .transp s =
    .next (finish .transp s (loop s.latch.rows.toNat (transposeRow (columns s.latch)) s.mem)
      (s.latch.rows.toNat * s.latch.drb.toNat) (s.latch.cols.toNat * s.latch.rows.toNat * s.latch.colw.toNat)) :=
  (exec_checked rfl (paramsOk_transp_iff s.latch)).2 h

/-- Settles O38: `transpose_reads` says what the loops leave with both extents inside M, and an extent that is not has a
last byte whose access is a BusError. -/
theorem transpTransposesByteColumns : Obligations.TranspTransposesByteColumns := by
  refine fun s _ => ⟨(exec_checked rfl (paramsOk_transp_iff s.latch)).1, fun h hin hout => ?_, fun h hbus => ?_⟩
  · have hexec := exec_transp_of_legal h
    obtain ⟨m', hrun, hentries, hpadding⟩ := transpose_reads (t := columns s.latch) h.1 hin hout h.2
    rw [show loop s.latch.rows.toNat _ _ = .ok m' from hrun] at hexec
    obtain ⟨hexec, hsame⟩ := exec_finish_ok rfl hexec
    rw [countWord_eq (transposeSource_lt h)] at hexec
    exact ⟨m', _, hexec, countWord_eq, hentries, hpadding, hsame⟩
  · refine exec_finish_bus rfl (exec_transp_of_legal h) ?_
    rcases hbus with hbus | hbus
    · exact transpose_bus_of_source (t := columns s.latch) h.1 hbus
    · exact transpose_bus_of_destination (t := columns s.latch) h.1 hbus

/-! ### The inverse -/

/-- A byte of an entry, by its entry's number or by its offset in a row of entries. -/
theorem entry_offset (q r i w k : Nat) : (q * r + i) * w + k = q * (r * w) + i * w + k := by
  rw [Nat.add_mul, Nat.mul_assoc]

/-- Settles O41: the entry that the first run moves from block `i`, entry `y` to block `y`, entry `i` of its output is
moved back by the second. -/
theorem transpIsSelfInverse : Obligations.TranspIsSelfInverse := by
  intro s t u hm hdrb h herr hmem hsrc hcolw hrows hcols hdrb' ha hout'
  obtain ⟨hbad, hdone, hbus⟩ := transpTransposesByteColumns s hm
  obtain ⟨hlegal, hin, hout⟩ := legal_and_inside_of_no_fault
    (I := InMem s.mem s.latch.src.toNat (s.latch.cols.toNat * s.latch.rows.toNat * s.latch.colw.toNat) ∧
      InMem s.mem s.latch.dst.toNat (s.latch.rows.toNat * s.latch.drb.toNat))
    hbad (fun hlegal hnot => hbus hlegal (not_and_or.mp hnot)) h herr
  obtain ⟨m', p, hexec, _, hentry, _, hsize, _⟩ := hdone hlegal hin hout
  cases hexec.symm.trans h
  have hsource : u.latch.cols.toNat * u.latch.rows.toNat * u.latch.colw.toNat =
      s.latch.cols.toNat * s.latch.rows.toNat * s.latch.colw.toNat := by
    rw [hcols, hrows, hcolw, Nat.mul_comm s.latch.rows.toNat]
  have hdest : u.latch.rows.toNat * u.latch.drb.toNat =
      s.latch.cols.toNat * s.latch.rows.toNat * s.latch.colw.toNat := by
    rw [hrows, hdrb', Nat.mul_assoc]
  have hbetween : s.latch.rows.toNat * s.latch.drb.toNat =
      s.latch.cols.toNat * s.latch.rows.toNat * s.latch.colw.toNat := by
    rw [hdrb, ← Nat.mul_assoc, Nat.mul_comm s.latch.rows.toNat]
  obtain ⟨_, hdone', _⟩ := transpTransposesByteColumns u (by rw [hmem]; exact hsize.trans_le hm)
  obtain ⟨m'', p', hexec', _, hentry', _, _⟩ := hdone'
    ⟨by rw [hcols, hcolw, hdrb'], by rwa [hsource, hdest]⟩
    (by rw [hsource, hsrc, ← hbetween]; exact inMem_congr hout (by rw [hmem]; exact hsize)) (by rwa [hdest])
  refine ⟨_, hexec', rfl, fun j hj => ?_⟩
  obtain ⟨entry, k, hnumber, hk, rfl⟩ := exists_digits hj
  obtain ⟨i, y, hi, hy, rfl⟩ := exists_digits hnumber
  have hback := hentry' i y k (by rwa [hrows]) (by rwa [hcols]) (by rwa [hcolw])
  have hthere := hentry y i k hy hi hk
  rw [hdrb] at hthere
  rw [hdrb', hcolw, hrows, hsrc, hmem, ← entry_offset, entry_offset y] at hback
  exact hback.trans hthere

end Sys2Proof.Machine
end

section
/-! CHUNKY (42_plane_layout.md R190 to R197): the surface it gathers from its planes, and that the planes' layout does
not show in it. -/
namespace Sys2Proof.Machine

open Sys2Proof.Claim

/-! ### The bytes CHUNKY reads -/

/-- R194: the layout of the source. -/
theorem planeByteAddress_eq (o : Operands) (y p k : Nat) :
    planeByteAddress o (flagIlv o.flags) y p k =
      o.src.toNat + (geometry o).off (chunkyLayout o.flags) o.srb.toNat y p k := by
  unfold planeByteAddress chunkyLayout
  cases flagIlv o.flags <;> rfl

/-- R195: the last byte read is that of the last plane row that has one for the last column below SRB. -/
theorem off_le_chunkyLastRead {o : Operands} (l : Layout) {x y p : Nat} (hx : x < o.width.toNat)
    (hy : y < o.height.toNat) (hp : p < o.nplanes.toNat) (hk : x / 8 < o.srb.toNat) :
    o.src.toNat + (geometry o).off l o.srb.toNat y p (x / 8) ≤ chunkyLastRead o := by
  obtain ⟨row, hrow, hoff⟩ := Geometry.exists_rowNumber (g := geometry o) l hy hp
  have hlast : row * o.srb.toNat ≤ (o.nplanes.toNat * o.height.toNat - 1) * o.srb.toNat :=
    Nat.mul_le_mul_right _ (Nat.le_sub_one_of_lt hrow)
  rw [hoff, chunkyLastRead]
  omega

/-- R195: the last byte read is the plane byte of some pixel. -/
theorem exists_chunkyLastRead {o : Operands} (h : GeometryLegal o) (l : Layout) :
    ∃ x y p, x < o.width.toNat ∧ y < o.height.toNat ∧ p < o.nplanes.toNat ∧ x / 8 < o.srb.toNat ∧
      o.src.toNat + (geometry o).off l o.srb.toNat y p (x / 8) = chunkyLastRead o := by
  obtain ⟨hw, hh, hnp, _, hsb, _⟩ := h
  obtain ⟨y, p, hy, hp, hoff⟩ := Geometry.exists_of_rowNumber (g := geometry o) l
    (Nat.sub_one_lt (Nat.mul_pos hnp hh).ne')
  refine ⟨8 * min ((o.width.toNat - 1) / 8) (o.srb.toNat - 1), y, p, by omega, hy, hp, ?_, ?_⟩ <;>
    rw [Nat.mul_div_cancel_left _ (by omega)]
  · omega
  · rw [hoff, chunkyLastRead, Nat.add_assoc]
    rfl

theorem chunkyLastRead_lt {o : Operands} (h : GeometryLegal o) : chunkyLastRead o < o.src.toNat + planesIn o := by
  obtain ⟨x, y, p, _, hy, hp, hk, hlast⟩ := exists_chunkyLastRead h .interleaved
  rw [← hlast]
  exact Nat.add_lt_add_left (Geometry.off_lt (g := geometry o) hy hp hk) _

theorem rowRead_of_le_lastRead {o : Operands} {m : Memory} (hlast : chunkyLastRead o < m.size) (l : Layout)
    {x y p : Nat} (hx : x < o.width.toNat) (hy : y < o.height.toNat) (hp : p < o.nplanes.toNat) :
    rowRead (geometry o) l y p (x / 8) m = some (if x / 8 < o.srb.toNat then
      m.byteAt (o.src.toNat + (geometry o).off l o.srb.toNat y p (x / 8)) else 0#8) := by
  by_cases hk : x / 8 < o.srb.toNat
  · rw [if_pos hk, ← Memory.read_of_lt ((off_le_chunkyLastRead l hx hy hp hk).trans_lt hlast)]
    exact if_pos hk
  · rw [if_neg hk]
    exact if_neg hk

/-! ### Pixels -/

/-- R195: with every byte CHUNKY reads inside M, a pixel's bits are those of its planes. -/
theorem pixel_bits {o : Operands} {m : Memory} (hnp : o.nplanes.toNat ≤ 8) (hlast : chunkyLastRead o < m.size)
    {x y : Nat} (hx : x < o.width.toNat) (hy : y < o.height.toNat) :
    ∃ v, pixel (geometry o) (chunkyLayout o.flags) x y m o.nplanes.toNat = some v ∧
      ∀ j, v.getLsbD j = pixelBit o m (flagIlv o.flags) j x y := by
  obtain ⟨v, hv, hbits⟩ := pixel_some hnp _ fun p hp => rowRead_of_le_lastRead hlast (chunkyLayout o.flags) hx hy hp
  refine ⟨v, hv, fun j => ?_⟩
  rw [hbits, pixelBit, planeBit, planeByteAddress_eq]
  by_cases hk : x / 8 < o.srb.toNat <;> simp [hk]

/-- R194, R196: the surface byte of a pixel value, with and without bit doubling. -/
theorem chunkyByte_getLsbD (dbl : Bool) (v : Byte) {j : Nat} (hj : j < 8) :
    (chunkyByte dbl v).getLsbD j = if dbl then v.getLsbD (j / 2) else v.getLsbD j := by
  cases dbl with
  | false => rfl
  | true => exact double4_getLsbD v j hj

/-! ### The command -/

/-- R194: the flags' reserved bits are those from bit 2 on. -/
theorem flagsReserved_eq_zero_iff (flags : Word) : flagsReserved flags = 0 ↔ flags.toNat < 4 := by
  rw [flagsReserved]
  omega

theorem paramsOk_chunky_iff (o : Operands) : paramsOk .chunky o = true ↔ ChunkyLegal o := by
  simp only [paramsOk, Bool.and_eq_true, Bool.not_eq_true', beq_iff_eq, geometryOk_iff, flagsReserved_eq_zero_iff,
    overlap_eq_false_iff_apart, and_assoc, ChunkyLegal, GeometryLegal]
  rfl

/-- R70, R195: of the source extent at most the last byte is one no pixel needs. -/
theorem sourceEnd_le_chunkyLastRead {o : Operands} (h : GeometryLegal o) :
    o.src.toNat + planesIn o ≤ chunkyLastRead o + 2 := by
  obtain ⟨_, hh, hnp, _, _, hrb⟩ := h
  have hplanes : planesIn o = (o.nplanes.toNat * o.height.toNat - 1) * o.srb.toNat + o.srb.toNat := by
    rw [planesIn, Nat.mul_right_comm, ← Nat.succ_mul, Nat.succ_eq_add_one, Nat.sub_add_cancel (Nat.mul_pos hnp hh)]
  rw [rowBytesOf] at hrb
  rw [hplanes, chunkyLastRead]
  omega

/-- R195: CHUNKY's source has fewer than 2^32 bytes, also where its last byte lies outside M: a surface of two pixels or
more lies before SRC or after the source, and the planes of one pixel have 16 bytes at most. -/
theorem planesIn_lt_of_chunkyLegal {o : Operands} {size : Nat} (hm : size ≤ 4294967296) (h : ChunkyLegal o)
    (hlast : chunkyLastRead o < size) : planesIn o < 4294967296 := by
  obtain ⟨hgeo, _, ha⟩ := h
  have hend := sourceEnd_le_chunkyLastRead hgeo
  obtain ⟨hw, hh, _, hnp, _, hrb⟩ := hgeo
  have hwidth := Nat.le_mul_of_pos_right o.width.toNat hh
  have hheight := Nat.le_mul_of_pos_left o.height.toNat hw
  rcases Nat.lt_or_ge (o.width.toNat * o.height.toNat) 2 with hone | hmore
  · have hsb : o.srb.toNat ≤ 2 := by rw [rowBytesOf] at hrb; omega
    have h16 : planesIn o ≤ 8 * 2 * 1 := Nat.mul_le_mul (Nat.mul_le_mul hnp hsb) (by omega)
    omega
  · simp only [Apart] at ha
    omega

theorem exec_chunky_of_legal {s : State} (h : ChunkyLegal s.latch) : exec .chunky s = .next (finish .chunky s
      (chunkyLoop (geometry s.latch) (chunkyLayout s.latch.flags) (flagDbl s.latch.flags) s.mem)
      (s.latch.width.toNat * s.latch.height.toNat) (planesIn s.latch)) :=
  (exec_checked rfl (paramsOk_chunky_iff s.latch)).2 h

/-- R194: every byte of the surface at DST is that of its pixel. -/
def Gathered (o : Operands) (m m' : Memory) : Prop :=
  ∀ x y, x < o.width.toNat → y < o.height.toNat → m'.read (o.dst.toNat + (y * o.width.toNat + x)) =
    (pixel (geometry o) (chunkyLayout o.flags) x y m o.nplanes.toNat).map (chunkyByte (flagDbl o.flags))

section
variable {s : State}

theorem chunky_completes (hm : s.mem.size ≤ 4294967296) (h : ChunkyLegal s.latch)
    (hlast : chunkyLastRead s.latch < s.mem.size)
    (hout : s.latch.dst.toNat + s.latch.width.toNat * s.latch.height.toNat ≤ s.mem.size) :
    ∃ m', exec .chunky s = .next (complete { s with
        mem := m', produced := BitVec.ofNat 32 (s.latch.width.toNat * s.latch.height.toNat),
        consumed := BitVec.ofNat 32 (planesIn s.latch) }) ∧
      Gathered s.latch s.mem m' ∧
      SameOutside s.mem m' s.latch.dst.toNat (s.latch.width.toNat * s.latch.height.toNat) := by
  have hexec := exec_chunky_of_legal h
  have hconsumed := planesIn_lt_of_chunkyLegal hm h hlast
  obtain ⟨hgeo, _, ha⟩ := h
  have hin0 := (planes_pos hgeo).1
  obtain ⟨_, _, _, hnp, _, _⟩ := hgeo
  have hvalue : ∀ x y, x < s.latch.width.toNat → y < s.latch.height.toNat →
      ∃ v, pixel (geometry s.latch) (chunkyLayout s.latch.flags) x y s.mem s.latch.nplanes.toNat = some v :=
    fun x y hx hy => (pixel_bits hnp hlast hx hy).imp fun _ h => h.1
  simp only [Apart] at ha
  obtain ⟨m', hrun, hw⟩ := chunkyLoop_writes (g := geometry s.latch) (l := chunkyLayout s.latch.flags)
    (dbl := flagDbl s.latch.flags) (A := fun a => s.latch.src.toNat ≤ a ∧ a < s.latch.src.toNat + planesIn s.latch)
    (fun x y p _ hy hp hk => ⟨Nat.le_add_right _ _, Nat.add_lt_add_left (Geometry.off_lt hy hp hk) _⟩) hout
    (fun a hlo hhi => by simp only [geometry] at hlo hhi; omega) hvalue
  rw [hrun] at hexec
  obtain ⟨hexec, hsame⟩ := exec_finish_ok rfl hexec
  rw [countWord_eq (by omega), countWord_eq hconsumed] at hexec
  refine ⟨m', hexec, fun x y hx hy => ?_, hsame⟩
  obtain ⟨v, hv⟩ := hvalue x y hx hy
  have hlt := digits_lt hy hx
  rw [Nat.mul_comm s.latch.height.toNat] at hlt
  rw [hv]
  exact hw.read ⟨y, hy, x, hx, rfl, congrArg (Option.map _) hv⟩ (by omega)

theorem chunky_busErrors (h : ChunkyLegal s.latch)
    (hbus : s.mem.size ≤ chunkyLastRead s.latch ∨
      s.mem.size < s.latch.dst.toNat + s.latch.width.toNat * s.latch.height.toNat) :
    BusErrors .chunky s s.latch.dst.toNat (s.latch.width.toNat * s.latch.height.toNat) := by
  refine exec_finish_bus rfl (exec_chunky_of_legal h) ?_
  obtain ⟨hgeo, _, _⟩ := h
  rcases hbus with hbus | hbus
  · obtain ⟨x, y, p, hx, hy, hp, hk, hlast⟩ := exists_chunkyLastRead hgeo (chunkyLayout s.latch.flags)
    exact chunkyLoop_bus (g := geometry s.latch) hx hy (.inl ⟨p, hp, hk, hbus.trans_eq hlast.symm⟩)
  · obtain ⟨hw, hh, _⟩ := hgeo
    rw [Nat.mul_comm] at hbus
    obtain ⟨y, x, hy, hx, hj⟩ := exists_digits (Nat.sub_one_lt_of_lt (Nat.mul_pos hh hw))
    exact chunkyLoop_bus (g := geometry s.latch) hx hy (.inr (by simp only [geometry]; omega))

/-- A CHUNKY without a fault has gathered its surface. -/
theorem chunky_of_no_fault {t : State} (hm : s.mem.size ≤ 4294967296) (h : exec .chunky s = .next t)
    (herr : t.status.err = false) : Gathered s.latch s.mem t.mem := by
  obtain ⟨hlegal, hlast, hout⟩ := legal_and_inside_of_no_fault
    (I := chunkyLastRead s.latch < s.mem.size ∧
      s.latch.dst.toNat + s.latch.width.toNat * s.latch.height.toNat ≤ s.mem.size)
    (exec_checked rfl (paramsOk_chunky_iff s.latch)).1 (fun hlegal hnot => chunky_busErrors hlegal (by omega)) h herr
  obtain ⟨m', hexec, hsurface, _⟩ := chunky_completes hm hlegal hlast hout
  cases hexec.symm.trans h
  exact hsurface

end

/-- Settles O39: the surface byte that `chunky_completes` gives is that of the pixel value, and `pixel_bits` gives the
value's bits. -/
theorem chunkyGathersThePixels : Obligations.ChunkyGathersThePixels := by
  refine fun s hm => ⟨(exec_checked rfl (paramsOk_chunky_iff s.latch)).1, fun h hlast hout => ?_, chunky_busErrors⟩
  obtain ⟨m', hexec, hsurface, hsame⟩ := chunky_completes hm h hlast hout
  refine ⟨m', hexec, fun x y hx hy => ?_, hsame⟩
  obtain ⟨⟨_, _, _, hnp, _, _⟩, _⟩ := h
  obtain ⟨v, hv, hbits⟩ := pixel_bits hnp hlast hx hy
  refine ⟨chunkyByte (flagDbl s.latch.flags) v, by rw [hsurface x y hx hy, hv]; rfl, fun j hj => ?_⟩
  rw [chunkyByte_getLsbD _ _ hj, hbits, hbits]
  rfl

/-! ### The layout does not show -/

/-- R195: pixels with the same row reads have the same value, in whichever layouts their planes are. -/
theorem pixel_eq_of_rowRead {g g' : Geometry} {l l' : Layout} {x y np : Nat} {m m' : Memory}
    (h : ∀ p, p < np → rowRead g' l' y p (x / 8) m' = rowRead g l y p (x / 8) m) :
    pixel g' l' x y m' np = pixel g l x y m np := by
  induction np with
  | zero => rfl
  | succ p ih => simp only [pixel, ih fun q hq => h q (by omega), h p (by omega)]

section
variable {o o' : Operands} {m m' : Memory} {x y : Nat}

/-- R25: the source's layout by FLAGS.ILV. -/
theorem chunkyLayout_of_ilv {flags : Word} {ilv : Bool} (h : flags.getLsbD 1 = ilv) :
    chunkyLayout flags = if ilv then .interleaved else .nonInterleaved := by
  rw [chunkyLayout, flagIlv, h]

/-- R175, R195: a pixel of DEINT's output is that of the interleaved planes it was made of. -/
theorem Reblocked.pixel_eq (h : Reblocked o .interleaved .nonInterleaved m m') (hb : ReblocksBack o o')
    (hx : x < o.width.toNat) (hy : y < o.height.toNat) :
    pixel (geometry o') .nonInterleaved x y m' o.nplanes.toNat =
      pixel (geometry o) .interleaved x y m o.nplanes.toNat :=
  pixel_eq_of_rowRead fun _ hp => h.rowRead_eq hb hy hp (column_lt_rowBytes hx)

/-- A pixel depends on the operands that name the planes only, not on DST. -/
theorem pixel_eq_of_samePlanes (hsrc : o'.src = o.src) (hheight : o'.height = o.height)
    (hnplanes : o'.nplanes = o.nplanes) (hsrb : o'.srb = o.srb) (l : Layout) (np : Nat) :
    pixel (geometry o') l x y m np = pixel (geometry o) l x y m np := by
  have hgeo : geometry o' = { geometry o with dst := o'.dst.toNat, w := o'.width.toNat } := by
    simp only [geometry, hsrc, hheight, hnplanes, hsrb]
  rw [hgeo]
  exact pixel_eq_of_rowRead fun _ _ => by cases l <;> rfl

end

/-- Settles O42: DEINT's output has at every pixel the value that the interleaved planes have there. -/
theorem chunkySurfaceIsLayoutIndependent : Obligations.ChunkySurfaceIsLayoutIndependent := by
  intro s t c d u hm h herr hcmem hcsrc hcwidth hcheight hcnplanes hcsrb hcilv hc hcerr humem husrc huwidth huheight
    hunplanes husrb huflags huilv hdbl ha hout
  have hb : ReblocksBack s.latch u.latch := ⟨husrc, huwidth, huheight, hunplanes, husrb⟩
  obtain ⟨⟨hgeo, _⟩, hbetween, hsize, hblocks⟩ := Reblocks.deint.of_no_fault hm h herr
  rw [← humem] at hsize hblocks
  have hcsurface := chunky_of_no_fault (by rwa [hcmem]) hc hcerr
  have hulegal : ChunkyLegal u.latch := ⟨hb.geometryLegal hgeo, huflags, by rwa [huwidth, huheight]⟩
  have hulast : chunkyLastRead u.latch < u.mem.size := by
    refine (chunkyLastRead_lt hulegal.1).trans_le ?_
    rwa [husrc, hb.planes.1, hsize]
  obtain ⟨m', hexec, husurface, _⟩ := chunky_completes (by rwa [hsize]) hulegal hulast (by rwa [huwidth, huheight])
  refine ⟨_, hexec, rfl, fun j hj => ?_⟩
  rw [Nat.mul_comm] at hj
  obtain ⟨y, x, hy, hx, rfl⟩ := exists_digits hj
  have hubyte := husurface x y (by rwa [huwidth]) (by rwa [huheight])
  have hcbyte := hcsurface x y (by rwa [hcwidth]) (by rwa [hcheight])
  rw [huwidth, hunplanes, chunkyLayout_of_ilv huilv, flagDbl, hdbl] at hubyte
  rw [hcwidth, hcnplanes, chunkyLayout_of_ilv hcilv, hcmem,
    pixel_eq_of_samePlanes hcsrc hcheight hcnplanes hcsrb] at hcbyte
  exact hubyte.trans ((congrArg _ (hblocks.pixel_eq hb hx hy)).trans hcbyte.symm)

end Sys2Proof.Machine
end

section
/-! The operand checks of 60_exceptions.md R243: what the block refuses is the command's row of the claims' table. -/
namespace Sys2Proof.Machine

open Sys2Proof.Claim

/-- 43_palette.md R210: the cap on NCOLORS. -/
theorem colorsOk_iff (o : Operands) : colorsOk o = true ↔ ¬ 256 < o.ncolors.toNat := by
  rw [colorsOk, decide_eq_true_eq, Nat.not_lt]
  rfl

theorem paramsOk_iff_not_badParamRow (i : Instr) (o : Operands) : paramsOk i o = true ↔ ¬ BadParamRow i o := by
  cases i with
  | lit _ | nop | rep _ => exact iff_of_true rfl id
  | pbdec | pbenc =>
    simp only [paramsOk, Bool.not_eq_true', overlap_eq_false_iff_apart]
    exact not_not.symm
  | deint => exact (Reblocks.deint.paramsOk_iff o).trans not_not.symm
  | intlv => exact (Reblocks.intlv.paramsOk_iff o).trans not_not.symm
  | transp => exact (paramsOk_transp_iff o).trans not_not.symm
  | chunky => exact (paramsOk_chunky_iff o).trans not_not.symm
  | paldn | palup =>
    simp only [paramsOk, Bool.and_eq_true, Bool.not_eq_true', colorsOk_iff, overlap_eq_false_iff_apart, BadParamRow,
      not_or, not_not]
    rfl
  | paldef | paldet => exact colorsOk_iff o

/-- R243: a command whose row holds is refused, and any other does what its rule says. -/
theorem exec_by_badParamRow {i : Instr} {s t : State}
    (hexec : exec i s = .next (if paramsOk i s.latch then t else raise .badParam s)) :
    (BadParamRow i s.latch → BadParams i s) ∧ (¬ BadParamRow i s.latch → exec i s = .next t) := by
  obtain ⟨hbad, hok⟩ := exec_checked hexec (paramsOk_iff_not_badParamRow i s.latch)
  exact ⟨fun h => hbad (not_not.mpr h), hok⟩

end Sys2Proof.Machine
end

section
/-! The colour conversions of 43_palette.md R211 to R213: the bytes of a scaled colour, and the bucket law. -/
namespace Sys2Proof.Machine

/-- R214: the bytes of a colour word that `scaleDown` gives. -/
theorem scaleDown_eq_be16 (r g b : Byte) : scaleDown r g b =
    be16 (BitVec.ofNat 8 (r.toNat / 16)) (BitVec.ofNat 8 (g.toNat / 16 * 16 + b.toNat / 16)) := by
  rw [← highByte_scaleDown r g b, ← lowByte_scaleDown r g b, be16_highByte_lowByte]

/-- The channels that `scaleUp` takes from the bytes of a scaled colour are the top four bits of the colour's own. -/
theorem channels_of_scaled (r g b : Byte) :
    (BitVec.ofNat 8 (r.toNat / 16)).toNat % 16 = r.toNat / 16 ∧
      (BitVec.ofNat 8 (g.toNat / 16 * 16 + b.toNat / 16)).toNat / 16 = g.toNat / 16 ∧
      (BitVec.ofNat 8 (g.toNat / 16 * 16 + b.toNat / 16)).toNat % 16 = b.toNat / 16 := by
  have hr := r.isLt; have hg := g.isLt; have hb := b.isLt
  simp only [BitVec.toNat_ofNat]
  omega

/-- R213: the bucket law. -/
theorem scaleUp_scaleDown (r g b : Byte) : scaleUp (scaleDown r g b) =
    (BitVec.ofNat 8 (17 * (r.toNat / 16)), BitVec.ofNat 8 (17 * (g.toNat / 16)),
      BitVec.ofNat 8 (17 * (b.toNat / 16))) := by
  obtain ⟨hr, hg, hb⟩ := channels_of_scaled r g b
  rw [scaleDown_eq_be16, scaleUp_be16, hr, hg, hb, Nat.mul_comm 17, Nat.mul_comm 17, Nat.mul_comm 17]

/-- R213: a byte is 17 times its top four bits exactly where those are its bottom four too. -/
theorem bucket_eq_self_iff (c : Byte) : BitVec.ofNat 8 (17 * (c.toNat / 16)) = c ↔ c.toNat % 17 = 0 := by
  have hc := c.isLt
  rw [← BitVec.toNat_inj, BitVec.toNat_ofNat, Nat.mod_eq_of_lt (by omega)]
  omega

/-- R212: the top four bits of an expanded channel are the channel. -/
theorem expandNibble_div {n : Nat} (h : n < 16) : (expandNibble n).toNat / 16 = n := by
  rw [expandNibble, BitVec.toNat_ofNat, Nat.mod_eq_of_lt (by omega)]
  omega

/-- R107, R213: bits 15:12 of a colour word do not come back. -/
theorem scaleDown_scaleUp (w : BitVec 16) :
    scaleDown (scaleUp w).1 (scaleUp w).2.1 (scaleUp w).2.2 = w &&& 0x0FFF#16 := by
  have hmask : (w &&& 0x0FFF#16).toNat = w.toNat % 2 ^ 12 := by
    rw [BitVec.toNat_and]
    exact Nat.and_two_pow_sub_one_eq_mod _ 12
  have hchannel : ∀ n, (expandNibble (n % 16)).toNat / 16 = n % 16 :=
    fun n => expandNibble_div (Nat.mod_lt n (by omega))
  rw [scaleDown_eq_be16, ← BitVec.toNat_inj, hmask]
  simp only [be16, scaleUp, redOf, greenOf, blueOf, hchannel, BitVec.toNat_ofNat]
  omega

/-- Settles O47: the bucket law, channel by channel, and the way back. -/
theorem scalingKeepsTheBucket : Obligations.ScalingKeepsTheBucket := by
  refine ⟨scaleUp_scaleDown, fun r g b => ?_, scaleDown_scaleUp⟩
  rw [scaleUp_scaleDown, Prod.mk.injEq, Prod.mk.injEq, bucket_eq_self_iff, bucket_eq_self_iff, bucket_eq_self_iff]

end Sys2Proof.Machine
end

section
/-! PALDET (43_palette.md R230 to R232). -/
namespace Sys2Proof.Machine

/-- R231: the end of PALDET by the source's two tests. -/
theorem paldetCommand_eq (s : State) : paldetCommand s =
    if s.latch.filelen.toNat = s.latch.pixlen.toNat + s.latch.ncolors.toNat * 2 then complete { s with result := 1#32 }
    else if s.latch.filelen.toNat = s.latch.pixlen.toNat then complete { s with result := 0#32 }
    else raise .sizeMismatch s := by
  rw [paldetCommand]
  rcases detect_cases s.latch.filelen.toNat s.latch.pixlen.toNat s.latch.ncolors.toNat with
    ⟨hpresent, hd⟩ | ⟨hpresent, habsent, hd⟩ | ⟨hpresent, habsent, hd⟩
  · rw [hd, if_pos hpresent]
  · rw [hd, if_neg hpresent, if_pos habsent]
  · rw [hd, if_neg hpresent, if_neg habsent]

/-- Settles O46: past its operand check the command ends by the two tests of R231. -/
theorem paldetDetectsATrailingPalette : Obligations.PaldetDetectsATrailingPalette := by
  intro s
  obtain ⟨hbad, hexec⟩ := exec_by_badParamRow (i := .paldet) (s := s) rfl
  rw [paldetCommand_eq] at hexec
  refine ⟨hbad, fun hnc hpresent => ?_, fun hnc hpresent habsent => ?_, fun hnc hpresent habsent => ?_⟩
  · rw [hexec (Nat.not_lt.mpr hnc), if_pos hpresent]
  · rw [hexec (Nat.not_lt.mpr hnc), if_neg hpresent, if_pos habsent]
  · rw [hexec (Nat.not_lt.mpr hnc), if_neg hpresent, if_neg habsent]

end Sys2Proof.Machine
end

section
/-! The palette arrays (43_palette.md R214, R220, R226): PALDN, PALUP and PALDEF write the entries their rules give, and
PALUP on PALDN's output gives the buckets of R213. -/
namespace Sys2Proof.Machine

open Sys2Proof.Claim

/-! ### What the loops leave inside M -/

section
variable {src dst nc : Nat} {m : Memory}

/-- R214: with both extents inside M and apart, each entry's word reads back. -/
theorem paldn_reads (hin : InMem m src (3 * nc)) (hout : InMem m dst (2 * nc)) (ha : Apart src (3 * nc) dst (2 * nc)) :
    ∃ m', loop nc (paldnEntry src dst) m = .ok m' ∧
      ∀ i r g b, i < nc → m.read (src + 3 * i) = some r → m.read (src + 3 * i + 1) = some g →
        m.read (src + 3 * i + 2) = some b → m'.read (dst + 2 * i) = some (BitVec.ofNat 8 (r.toNat / 16)) ∧
          m'.read (dst + 2 * i + 1) = some (BitVec.ofNat 8 (g.toNat / 16 * 16 + b.toNat / 16)) := by
  simp only [InMem, Apart] at hin hout ha
  obtain ⟨m', hrun, hw⟩ := paldn_writes (src := src) (dst := dst) (nc := nc) (m := m) (by omega) (by omega) (by omega)
  refine ⟨m', hrun, fun i r g b hi hr hg hb => ?_⟩
  obtain ⟨_, rfl⟩ := Memory.read_eq_some_iff.mp hr
  obtain ⟨_, rfl⟩ := Memory.read_eq_some_iff.mp hg
  obtain ⟨_, rfl⟩ := Memory.read_eq_some_iff.mp hb
  rw [← highByte_scaleDown, ← lowByte_scaleDown]
  exact ⟨hw.read ⟨i, hi, .inl ⟨rfl, rfl⟩⟩ (by omega), hw.read ⟨i, hi, .inr ⟨rfl, rfl⟩⟩ (by omega)⟩

/-- R220: with both extents inside M and apart, each entry's triplet reads back. -/
theorem palup_reads (hin : InMem m src (2 * nc)) (hout : InMem m dst (3 * nc)) (ha : Apart src (2 * nc) dst (3 * nc)) :
    ∃ m', loop nc (palupEntry src dst) m = .ok m' ∧
      ∀ i hi lo, i < nc → m.read (src + 2 * i) = some hi → m.read (src + 2 * i + 1) = some lo →
        m'.read (dst + 3 * i) = some (BitVec.ofNat 8 (hi.toNat % 16 * 17)) ∧
          m'.read (dst + 3 * i + 1) = some (BitVec.ofNat 8 (lo.toNat / 16 * 17)) ∧
          m'.read (dst + 3 * i + 2) = some (BitVec.ofNat 8 (lo.toNat % 16 * 17)) := by
  simp only [InMem, Apart] at hin hout ha
  obtain ⟨m', hrun, hw⟩ := palup_writes (src := src) (dst := dst) (nc := nc) (m := m) (by omega) (by omega) (by omega)
  simp only [scaleUp_be16] at hw
  refine ⟨m', hrun, fun i hi lo hlt hhi hlo => ?_⟩
  obtain ⟨_, rfl⟩ := Memory.read_eq_some_iff.mp hhi
  obtain ⟨_, rfl⟩ := Memory.read_eq_some_iff.mp hlo
  exact ⟨hw.read ⟨i, hlt, .inl (.inl ⟨rfl, rfl⟩)⟩ (by omega), hw.read ⟨i, hlt, .inl (.inr ⟨rfl, rfl⟩)⟩ (by omega),
    hw.read ⟨i, hlt, .inr ⟨rfl, rfl⟩⟩ (by omega)⟩

/-- R67, R225: the bytes of an entry of the default palette. -/
theorem defaultColor_bytes (i : Nat) : highByte (defaultColor i) = (if i = 0 then 0x00#8 else 0x0F#8) ∧
    lowByte (defaultColor i) = if i = 0 then 0x00#8 else 0xFF#8 := by
  unfold defaultColor
  split <;> decide

/-- R226: with its extent inside M, PALDEF's entries read back. -/
theorem paldef_reads (hout : InMem m dst (2 * nc)) :
    ∃ m', loop nc (paldefEntry dst) m = .ok m' ∧
      ∀ i, i < nc → m'.read (dst + 2 * i) = some (if i = 0 then 0x00#8 else 0x0F#8) ∧
        m'.read (dst + 2 * i + 1) = some (if i = 0 then 0x00#8 else 0xFF#8) := by
  simp only [InMem] at hout
  obtain ⟨m', hrun, hw⟩ := paldef_writes (dst := dst) (nc := nc) (m := m) (by omega)
  refine ⟨m', hrun, fun i hi => ?_⟩
  obtain ⟨hhigh, hlow⟩ := defaultColor_bytes i
  rw [← hhigh, ← hlow]
  exact ⟨hw.read ⟨i, hi, .inl ⟨rfl, rfl⟩⟩ (by omega), hw.read ⟨i, hi, .inr ⟨rfl, rfl⟩⟩ (by omega)⟩

end

/-! ### The commands -/

/-- R28: with every access inside M and counts that fit the result registers, the command completes with them. -/
theorem exec_completes {i : Instr} {s : State} {m : Memory} {p c : Nat} (hi : i.isStream = false) (hp : p < 4294967296)
    (hc : c < 4294967296) (hexec : exec i s = .next (finish i s (.ok m) p c)) :
    exec i s = .next (complete { s with mem := m, produced := BitVec.ofNat 32 p, consumed := BitVec.ofNat 32 c }) ∧
      SameOutside s.mem m s.latch.dst.toNat (destinationBytes i s.latch) := by
  rw [← countWord_eq hp, ← countWord_eq hc]
  exact exec_finish_ok hi hexec

/-- Settles O43: `paldn_reads` gives the words, and an extent not inside M has a last entry that is a BusError. -/
theorem paldnScalesTripletsDown : Obligations.PaldnScalesTripletsDown := by
  intro s
  obtain ⟨hbad, hexec⟩ := exec_by_badParamRow (i := .paldn) (s := s) rfl
  refine ⟨hbad, fun h hin hout => ?_, fun h hbus => ?_⟩
  · specialize hexec h
    obtain ⟨hnc, ha⟩ := not_or.mp h
    obtain ⟨m', hrun, hwords⟩ := paldn_reads hin hout (not_not.mp ha)
    rw [hrun] at hexec
    obtain ⟨hexec, hsame⟩ := exec_completes rfl (by omega) (by omega) hexec
    exact ⟨m', hexec, hwords, hsame⟩
  · rw [not_inMem_iff, not_inMem_iff] at hbus
    exact exec_finish_bus rfl (hexec h) (paldn_bus (by omega) (by omega))

/-- Settles O44: `palup_reads` gives the triplets, and an extent not inside M has a last entry that is a BusError. -/
theorem palupExpandsColourWords : Obligations.PalupExpandsColourWords := by
  intro s
  obtain ⟨hbad, hexec⟩ := exec_by_badParamRow (i := .palup) (s := s) rfl
  refine ⟨hbad, fun h hin hout => ?_, fun h hbus => ?_⟩
  · specialize hexec h
    obtain ⟨hnc, ha⟩ := not_or.mp h
    obtain ⟨m', hrun, htriplets⟩ := palup_reads hin hout (not_not.mp ha)
    rw [hrun] at hexec
    obtain ⟨hexec, hsame⟩ := exec_completes rfl (by omega) (by omega) hexec
    exact ⟨m', hexec, htriplets, hsame⟩
  · rw [not_inMem_iff, not_inMem_iff] at hbus
    exact exec_finish_bus rfl (hexec h) (palup_bus (by omega) (by omega))

/-- Settles O45: `paldef_reads` gives the words, and an extent not inside M has a last word that is a BusError. -/
theorem paldefWritesTheDefaultPalette : Obligations.PaldefWritesTheDefaultPalette := by
  intro s
  obtain ⟨hbad, hexec⟩ := exec_by_badParamRow (i := .paldef) (s := s) rfl
  refine ⟨hbad, fun hnc hout => ?_, fun hnc hbus => ?_⟩
  · specialize hexec (Nat.not_lt.mpr hnc)
    obtain ⟨m', hrun, hwords⟩ := paldef_reads hout
    rw [hrun] at hexec
    obtain ⟨hexec, hsame⟩ := exec_completes rfl (by omega) (by omega) hexec
    exact ⟨m', hexec, hwords, hsame⟩
  · rw [not_inMem_iff] at hbus
    exact exec_finish_bus rfl (hexec (Nat.not_lt.mpr hnc)) (paldef_bus (by omega) (by omega))

/-! ### The round trip -/

/-- A PALDN without a fault had legal operands and both extents inside M, and leaves the words of its triplets. -/
theorem paldn_of_no_fault {s t : State} (h : exec .paldn s = .next t) (herr : t.status.err = false) :
    s.latch.ncolors.toNat ≤ 256 ∧ InMem t.mem s.latch.dst.toNat (2 * s.latch.ncolors.toNat) ∧
      ∀ i, i < s.latch.ncolors.toNat → ∃ r g b, s.mem.read (s.latch.src.toNat + 3 * i) = some r ∧
        s.mem.read (s.latch.src.toNat + 3 * i + 1) = some g ∧ s.mem.read (s.latch.src.toNat + 3 * i + 2) = some b ∧
        t.mem.read (s.latch.dst.toNat + 2 * i) = some (BitVec.ofNat 8 (r.toNat / 16)) ∧
        t.mem.read (s.latch.dst.toNat + 2 * i + 1) = some (BitVec.ofNat 8 (g.toNat / 16 * 16 + b.toNat / 16)) := by
  obtain ⟨hbad, hdone, hbus⟩ := paldnScalesTripletsDown s
  obtain ⟨hlegal, hin, hout⟩ := legal_and_inside_of_no_fault (L := ¬ BadParamRow .paldn s.latch)
    (I := InMem s.mem s.latch.src.toNat (3 * s.latch.ncolors.toNat) ∧
      InMem s.mem s.latch.dst.toNat (2 * s.latch.ncolors.toNat))
    (fun hrow => hbad (not_not.mp hrow)) (fun hlegal hnot => hbus hlegal (not_and_or.mp hnot)) h herr
  obtain ⟨m', hexec, hwords, hsize, _⟩ := hdone hlegal hin hout
  cases hexec.symm.trans h
  refine ⟨Nat.not_lt.mp fun hnc => hlegal (.inl hnc), inMem_congr hout hsize, fun i hi => ?_⟩
  have hr := Memory.read_of_lt (lt_of_inMem hin (show 3 * i < _ by omega))
  have hg := Memory.read_of_lt (lt_of_inMem hin (show 3 * i + 1 < _ by omega))
  have hb := Memory.read_of_lt (lt_of_inMem hin (show 3 * i + 2 < _ by omega))
  exact ⟨_, _, _, hr, hg, hb, hwords i _ _ _ hi hr hg hb⟩

/-- Settles O48: PALUP takes from each word the channels that PALDN put there. -/
theorem palupAfterPaldnGivesTheBuckets : Obligations.PalupAfterPaldnGivesTheBuckets := by
  intro s t u h herr hmem hsrc hncolors ha hout
  obtain ⟨hnc, hbetween, hwords⟩ := paldn_of_no_fault h herr
  obtain ⟨_, hdone, _⟩ := palupExpandsColourWords u
  rw [hncolors, hsrc, hmem] at hdone
  rw [hsrc] at ha
  rw [hmem] at hout
  have hlegal : ¬ BadParamRow .palup u.latch := by
    rw [BadParamRow, hncolors, hsrc, not_or, not_not, Nat.not_lt]
    exact ⟨hnc, ha⟩
  obtain ⟨m', hexec, htriplets, _⟩ := hdone hlegal hbetween hout
  refine ⟨_, hexec, rfl, fun j c hj hc => ?_⟩
  obtain ⟨i, k, hi, hk, rfl⟩ := exists_digits (n := s.latch.ncolors.toNat) (r := 3) (by rwa [Nat.mul_comm])
  obtain ⟨r, g, b, hr, hg, hb, hhigh, hlow⟩ := hwords i hi
  obtain ⟨hred, hgreen, hblue⟩ := htriplets i _ _ hi hhigh hlow
  obtain ⟨hrc, hgc, hbc⟩ := channels_of_scaled r g b
  rw [hrc] at hred
  rw [hgc] at hgreen
  rw [hbc] at hblue
  rw [Nat.mul_comm i, ← Nat.add_assoc] at hc ⊢
  rw [Nat.mul_comm 17]
  match k, hk with
  | 0, _ => cases hr.symm.trans hc; exact hred
  | 1, _ => cases hg.symm.trans hc; exact hgreen
  | 2, _ => cases hb.symm.trans hc; exact hblue

end Sys2Proof.Machine
end

section
/-! After a fault (60_exceptions.md R251): with ERR set and BUSY clear a step does what the host's move does to the
operand registers, to M and to what the host has read, and nothing else, until reset. -/
namespace Sys2Proof.Machine

/-- `t` comes after `s` with no more done than the host's moves waiting in `s` do to M: STATUS, CMD and the result
registers are as in `s`, no move has been added, and a byte that none of the moves writes is as it was. -/
structure OnlyHostWrites (s t : State) : Prop where
  status : t.status = s.status
  cmd : t.cmd = s.cmd
  produced : t.produced = s.produced
  consumed : t.consumed = s.consumed
  result : t.result = s.result
  inputs : t.inputs ⊆ s.inputs
  byte : ∀ a, (∀ b, Input.writeMem a b ∉ s.inputs) → t.mem.read a = s.mem.read a
  memory : (∀ a b, Input.writeMem a b ∉ s.inputs) → t.mem = s.mem

theorem OnlyHostWrites.of_same_mem {s t : State} (hstatus : t.status = s.status) (hcmd : t.cmd = s.cmd)
    (hproduced : t.produced = s.produced) (hconsumed : t.consumed = s.consumed) (hresult : t.result = s.result)
    (hinputs : t.inputs ⊆ s.inputs) (hmem : t.mem = s.mem) : OnlyHostWrites s t :=
  ⟨hstatus, hcmd, hproduced, hconsumed, hresult, hinputs, fun _ _ => by rw [hmem], fun _ => hmem⟩

theorem OnlyHostWrites.refl (s : State) : OnlyHostWrites s s :=
  .of_same_mem rfl rfl rfl rfl rfl (List.Subset.refl _) rfl

theorem OnlyHostWrites.trans {s t u : State} (h : OnlyHostWrites s t) (h' : OnlyHostWrites t u) : OnlyHostWrites s u where
  status := h'.status.trans h.status
  cmd := h'.cmd.trans h.cmd
  produced := h'.produced.trans h.produced
  consumed := h'.consumed.trans h.consumed
  result := h'.result.trans h.result
  inputs := List.Subset.trans h'.inputs h.inputs
  byte a ha := (h'.byte a fun b hb => ha b (h.inputs hb)).trans (h.byte a ha)
  memory hm := (h'.memory fun a b hb => hm a b (h.inputs hb)).trans (h.memory hm)

theorem sequencerTurn_of_idle {s : State} (hb : s.status.busy = false) : sequencerTurn s = .next s := by
  simp [sequencerTurn, hb]

theorem groupwiseTurn_of_idle {s : State} (hb : s.status.busy = false) : groupwiseTurn s = .next s := by
  rcases groupwiseTurn_cases s with h | ⟨hbusy, _⟩
  · rw [h, sequencerTurn_of_idle hb]
  · cases hb.symm.trans hbusy

/-- R27, R251: with ERR set a host write of a register reaches an operand register at most. -/
theorem writeReg_of_err {s : State} (he : s.status.err = true) (r : Reg) (v : Word) :
    ∃ o, writeReg r v s = { s with regs := o } := by
  rcases writeReg_cases r v s with ⟨_, h⟩ | ⟨_, h⟩ | ⟨_, _, h⟩
  · exact ⟨s.regs, h.trans (writeCmd_of_busy_or_err (.inr he) v)⟩
  · exact ⟨s.regs, h⟩
  · exact h

/-- R251: one step after a fault. -/
theorem step_onlyHostWrites {s t : State} (hb : s.status.busy = false) (he : s.status.err = true)
    (hreset : Input.reset ∉ s.inputs) (h : step s = .next t) : OnlyHostWrites s t := by
  rcases step_cases h with ⟨hi, _⟩ | ⟨rest, u, rfl, hmove⟩
  · cases (step_of_idle hi hb).symm.trans h
    exact .refl s
  · have hsame : ∀ {i}, s.inputs = i :: rest → ∀ o w,
        OnlyHostWrites s { s with inputs := rest, regs := o, hostData := w } := fun hi _ _ =>
      .of_same_mem rfl rfl rfl rfl rfl (hi ▸ List.subset_cons_self _ _) rfl
    rcases hmove with ⟨r, v, hi, rfl⟩ | ⟨r, hi, rfl⟩ | ⟨a, b, hi, _, _, rfl⟩ | ⟨a, w, hi, rfl⟩ | ⟨hi, _⟩ |
      ⟨hi, hturn⟩ | ⟨hi, hturn⟩
    · obtain ⟨o, ho⟩ := writeReg_of_err (s := { s with inputs := rest }) he r v
      rw [ho]
      exact hsame hi o s.hostData
    · exact hsame hi s.regs _
    · have hwritten : Input.writeMem a b ∈ s.inputs := hi ▸ List.mem_cons_self
      refine ⟨rfl, rfl, rfl, rfl, rfl, hi ▸ List.subset_cons_self _ _, fun x hx => ?_, fun hm => absurd hwritten (hm a b)⟩
      exact Memory.read_set_ne b fun hxa => hx b (hxa ▸ hwritten)
    · exact hsame hi s.regs w
    · exact absurd (hi ▸ List.mem_cons_self) hreset
    · cases (sequencerTurn_of_idle (s := { s with inputs := rest }) hb).symm.trans hturn
      exact hsame hi s.regs s.hostData
    · cases (groupwiseTurn_of_idle (s := { s with inputs := rest }) hb).symm.trans hturn
      exact hsame hi s.regs s.hostData

/-- A run that goes on for `k + 1` steps takes one step and goes on for `k`. -/
theorem coreStep_of_run_succ {M : Host.Core} {k : Nat} {s t : M.State} (h : M.run (k + 1) s = .next t) :
    ∃ u, M.step s = .next u ∧ M.run k u = .next t := by
  rw [Host.Core.run] at h
  split at h
  · exact ⟨_, ‹_›, h⟩
  · cases h
  · cases h

/-- R251: any number of steps after a fault; each leaves the fault standing for the next. -/
theorem run_onlyHostWrites {k : Nat} {s t : State} (hb : s.status.busy = false) (he : s.status.err = true)
    (hreset : Input.reset ∉ s.inputs) (h : Host.Core.run core k s = .next t) : OnlyHostWrites s t := by
  induction k generalizing s with
  | zero => cases h; exact .refl _
  | succ k ih =>
    obtain ⟨u, hstep, hrun⟩ := coreStep_of_run_succ (M := core) h
    have hfirst := step_onlyHostWrites hb he hreset hstep
    exact hfirst.trans
      (ih (hfirst.status ▸ hb) (hfirst.status ▸ he) (fun hr => hreset (hfirst.inputs hr)) hrun)

/-- Settles O16, by induction over the run: every step keeps `OnlyHostWrites`. -/
theorem faultStopsTheBlockUntilReset : Obligations.FaultStopsTheBlockUntilReset := by
  intro k s t hb he hreset h
  obtain ⟨hstatus, hcmd, hproduced, hconsumed, hresult, _, hbyte, hmemory⟩ := run_onlyHostWrites hb he hreset h
  exact ⟨hstatus, hcmd, hproduced, hconsumed, hresult, hbyte, hmemory⟩

end Sys2Proof.Machine
end

section
/-! Raising a fault (60_exceptions.md R240, R245), and IllegalCommand (R242, 30_encoding.md R105): a code outside the
command table is issued and faults at its turn. -/
namespace Sys2Proof.Machine

open Sys2Proof.Claim

/-- R240: the model's codes are the claims' table. -/
theorem causeCode_eq_codeOf (f : FaultKind) : causeCode f = BitVec.ofNat 4 (codeOf f) := by cases f <;> rfl

/-- Settles O14: `raise` with its code from the claims' table. -/
theorem raiseRecordsTheFirstFault : Obligations.RaiseRecordsTheFirstFault := by
  intro f s
  rw [← causeCode_eq_codeOf]
  rfl

/-- 30_encoding.md R105: a value that is none of the ten codes names no command. -/
theorem decodeCommand_of_unassigned {c : Word}
    (hc : c.toNat ∉ [0x01, 0x02, 0x10, 0x11, 0x12, 0x13, 0x20, 0x21, 0x22, 0x23]) :
    ∃ e, decodeCommand c = .error e := by
  cases hd : decodeCommand c with
  | error e => exact ⟨e, rfl⟩
  | ok i => exact absurd (List.mem_map_of_mem (f := fun row => row.1.toNat) (mem_of_lookupCommand hd)) hc

/-- R242: IllegalCommand is raised at the sequencer's turn. -/
theorem commandTurn_of_decode_error {s : State} {e : DecodeError} (h : decodeCommand s.cmd = .error e) :
    commandTurn s = .next (raise .illegalCommand s) := by
  rw [commandTurn, h]

/-- Settles O17: the first step issues the code, and the turn after it finds no command of that code. -/
theorem unassignedCodeIsIllegalCommand : Obligations.UnassignedCodeIsIllegalCommand := by
  intro s c hi hb he hc
  have hissue : step s = .next (issue c { s with inputs := [] }) :=
    (step_of_move hi).trans (congrArg _ (writeCmd_of_idle (s := { s with inputs := [] }) hb he c))
  obtain ⟨e, hd⟩ := decodeCommand_of_unassigned hc
  refine ⟨_, hissue, ?_⟩
  rw [step_of_command rfl rfl rfl, commandTurn_of_decode_error hd]
  rfl

end Sys2Proof.Machine
end

section
/-! RowOverrun (60_exceptions.md R247, 40_packbits_decode.md R126): the group that would pass the row's end is refused by
its control byte alone. -/
namespace Sys2Proof.Machine

open Sys2Proof.Claim

/-- R126: the control byte of a group whose output does not fit the rest of the row. -/
theorem runGroup_overrun {g : Group} {c : Byte} {s : State} (hg : g.wf = true) (hc : g.assemble.head? = some c)
    (hq : s.q ≤ s.latch.len.toNat) (h : s.latch.len.toNat < s.q + g.output.length) :
    runGroup c s = streamFault .rowOverrun s := by
  cases g with
  | nop => exact absurd h (Nat.not_lt.mpr hq)
  | lit bytes =>
    simp only [Group.wf, Bool.and_eq_true, decide_eq_true_eq] at hg
    obtain ⟨hmin, hmax⟩ := hg
    obtain ⟨hd, hcount⟩ := decodeControl_literal hmin hmax
    cases hc
    rw [runGroup_lit hd, litGroup_overrun (by rw [hcount]; exact h)]
  | rep count v =>
    simp only [Group.wf, Bool.and_eq_true, decide_eq_true_eq] at hg
    obtain ⟨hmin, hmax⟩ := hg
    obtain ⟨hd, hcount⟩ := decodeControl_repeat hmin hmax
    cases hc
    rw [Group.output, List.length_replicate] at h
    rw [runGroup_rep hd, repGroup_overrun (by rw [hcount]; exact h)]

/-- Settles O29: the whole groups leave the source as it was, so the turn at the boundary after them fetches the
offending control byte, and that turn is the last. -/
theorem pbdecRaisesRowOverrun : Obligations.PbdecRaisesRowOverrun := by
  intro s gs g c hwf hg hc hq hover hp ha hb hd
  rw [List.length_append] at hover
  obtain ⟨hbgs, hbc⟩ := holds_append_iff.mp hb
  obtain ⟨m, f, hexec, hout, hw⟩ :=
    execPbdec_after_groups hwf (fetchesAll_of_lt hq) (Nat.le_of_lt hq) (Nat.le_of_lt hp) ha hbgs hd
  have hcontrol : m.read (s.latch.src.toNat + (assembleAll gs).length) = some c :=
    (hw.read (by simp only [Apart] at ha; omega)).trans (hbc 0 c rfl)
  have hlast := streamTurn_group (s := s.atBoundary ⟨(assembleAll gs).length, (outputAll gs).length, m⟩) hq hp hcontrol
  rw [runGroup_overrun hg hc (Nat.le_of_lt hq) hover, streamFault_eq _ (Nat.le_of_lt hp) (Nat.le_of_lt hq)] at hlast
  rw [streamLoop_of_last_turn rfl hlast rfl] at hexec
  exact ⟨m, hexec, holds_of_byteAt (inMem_congr hd hw.size) hout, hw.sameOutside⟩

end Sys2Proof.Machine
end

section
/-! BadParam exactly by the table (60_exceptions.md R243): the operand check is the only place that raises it, so an
execution that passes the check records another fault or none. Either way there is a next state (R245). -/
namespace Sys2Proof.Machine

open Sys2Proof.Claim

/-- What an execution that passed its operand check leaves in STATUS: no fault more than before, or one that is not
BadParam. -/
def PassedCheck (s t : State) : Prop :=
  t.status.err = s.status.err ∨ ∃ f, f ≠ .badParam ∧ t.status = (raise f s).status

/-- R240: no other fault has BadParam's code. -/
theorem causeCode_eq_badParam {f : FaultKind} (h : causeCode f = 4#4) : f = .badParam := by
  cases f with
  | badParam => rfl
  | _ => cases h

theorem PassedCheck.not_badParam {s t : State} (h : PassedCheck s t) (he : s.status.err = false) :
    ¬ (t.status.err = true ∧ t.status.cause = 4#4) := by
  rintro ⟨herr, hcause⟩
  rcases h with h | ⟨f, hf, h⟩
  · cases herr.symm.trans (h.trans he)
  · refine hf (causeCode_eq_badParam ?_)
    simpa [h, he] using hcause

theorem finish_passedCheck (i : Instr) (s : State) (r : Run Memory) (p c : Nat) :
    PassedCheck s (finish i s r p c) := by
  rcases finish_cases i s r p c with ⟨m, _, h⟩ | ⟨m, _, h⟩
  · rw [h]; exact .inl rfl
  · rw [h]; exact .inr ⟨.busError, nofun, rfl⟩

theorem finishEncode_passedCheck (s : State) (r : Run Enc) : PassedCheck s (finishEncode s r) := by
  cases r with
  | ok e => exact finish_passedCheck ..
  | bus e => exact finish_passedCheck ..

theorem paldetCommand_passedCheck (s : State) : PassedCheck s (paldetCommand s) := by
  rw [paldetCommand_eq]
  split
  · exact .inl rfl
  · split
    · exact .inl rfl
    · exact .inr ⟨.sizeMismatch, nofun, rfl⟩

theorem litGroup_passedCheck (n : BitVec 7) (s : State) : PassedCheck s (litGroup n s) := by
  unfold litGroup afterGroup
  split
  · exact .inr ⟨.rowOverrun, nofun, rfl⟩
  · split
    · exact .inl rfl
    · exact .inr ⟨.busError, nofun, rfl⟩

theorem repGroup_passedCheck (m : BitVec 7) (s : State) : PassedCheck s (repGroup m s) := by
  unfold repGroup
  split
  · exact .inr ⟨.rowOverrun, nofun, rfl⟩
  · split
    · exact .inl rfl
    · split
      · exact .inr ⟨.busError, nofun, rfl⟩
      · split
        · exact .inl rfl
        · exact .inr ⟨.busError, nofun, rfl⟩

/-- 40_packbits_decode.md R129: PBDEC's loop ends completed or in one of its three faults. -/
theorem streamLoop_passedCheck (s : State) :
    PassedCheck s (streamLoop (s.latch.srclen.toNat + 1) (beginStream s)) := by
  obtain ⟨pc, q, m, _, _, _, _, _, ⟨_, h⟩ | h | ⟨f, hf, h⟩⟩ :=
    streamLoop_ends (f := s.latch.srclen.toNat + 1) (s := beginStream s) rfl (Nat.zero_le _) (Nat.zero_le _) (by simp)
  · rw [h]; exact .inl rfl
  · rw [h]; exact .inr ⟨.busError, nofun, rfl⟩
  · rw [h]; exact .inr ⟨f, by rcases hf with rfl | rfl <;> nofun, rfl⟩

/-- R243: every instruction checks its operands first; refused, it raises BadParam and leaves M alone. -/
theorem exec_by_paramsOk (i : Instr) (s : State) :
    ∃ t r, exec i s = .next (if paramsOk i s.latch then t else r) ∧ PassedCheck s t ∧
      r.status = (raise .badParam s).status ∧ r.mem = s.mem := by
  cases i with
  | lit n => exact ⟨_, raise .badParam s, rfl, litGroup_passedCheck n s, rfl, rfl⟩
  | nop => exact ⟨_, raise .badParam s, rfl, .inl rfl, rfl, rfl⟩
  | rep m => exact ⟨_, raise .badParam s, rfl, repGroup_passedCheck m s, rfl, rfl⟩
  | pbdec => exact ⟨_, pbdecRefuse s, rfl, streamLoop_passedCheck s, rfl, rfl⟩
  | pbenc => exact ⟨_, _, rfl, finishEncode_passedCheck .., rfl, rfl⟩
  | deint | intlv | transp | chunky | paldn | palup | paldef => exact ⟨_, _, rfl, finish_passedCheck .., rfl, rfl⟩
  | paldet => exact ⟨_, _, rfl, paldetCommand_passedCheck s, rfl, rfl⟩

/-- Settles O8: whether the operand check passes or not, what follows is a next state. -/
theorem everyInstructionHasANextState : Obligations.EveryInstructionHasANextState := by
  intro i s
  obtain ⟨_, _, hexec, _⟩ := exec_by_paramsOk i s
  exact ⟨_, hexec⟩

/-- Settles O52: the check refuses exactly where the row holds, and past the check no BadParam is raised. -/
theorem badParamExactlyByTheTable : Obligations.BadParamExactlyByTheTable := by
  intro i s he
  obtain ⟨t, r, hexec, hpassed, hstatus, hmem⟩ := exec_by_paramsOk i s
  refine ⟨_, hexec, ?_⟩
  by_cases hrow : BadParamRow i s.latch
  · rw [if_neg fun hok => (paramsOk_iff_not_badParamRow i s.latch).mp hok hrow]
    exact ⟨iff_of_true (by simp [hstatus, he, causeCode]) hrow, fun _ => hmem⟩
  · rw [if_pos ((paramsOk_iff_not_badParamRow i s.latch).mpr hrow)]
    exact ⟨iff_of_false (hpassed.not_badParam he) hrow, fun h => absurd h hrow⟩

end Sys2Proof.Machine
end

section
/-! The block with nothing to do: no host move waiting and no command in progress (70_reset_and_hazards.md R270, R286). -/
namespace Sys2Proof.Machine

/-- Settles O54: with no move waiting the step is the sequencer's turn, which leaves a block that is not BUSY as it is. -/
theorem idleBlockDoesNothing : Obligations.IdleBlockDoesNothing :=
  fun _ hinputs hbusy => step_of_idle hinputs hbusy

end Sys2Proof.Machine
end
